-- ==== Sys2Proof/Word.lean ====
section
/-! DEFINITION. The fixed-width words of the wire format and of the counters (00_scope.md R9, 30_encoding.md R92). -/

namespace Sys2Proof

/-- One byte of the program buffer (R90). -/
abbrev Byte := BitVec 8

/-- A `u32`: the program counter and the jump targets (R22, R250). -/
abbrev Word32 := BitVec 32

/-- A `u64`: the gas counters and the allotment latches (R24). -/
abbrev Word64 := BitVec 64

end Sys2Proof
end

