-- ==== Sys2Proof/Config.lean ====
section
/-! DEFINITION. The implementation parameters of 00_scope.md R7 (but the gas tables, which stand in Machine/Gas.lean),
and the host's free answers (45_environment_host.md R273, 93_implementation_defined.md U30 to U32). -/

namespace Sys2Proof

/-- `FIELD_MODULUS`, the prime `P` of the native field (R7, D7). The value is the spec's default, the order of the
scalar field of BN254, which the spec itself marks as general knowledge (93_implementation_defined.md G1). -/
def Config.fieldModulus : Nat :=
  21888242871839275222246405745257275088548364400416034343698204186575808495617

/-- `MAX_MEMORY_SIZE`: the number of memory cells (R7, R50, D5). -/
def Config.maxMemorySize : Nat := 2 ^ 32

/-- `AVM_MAX_OPERANDS`: the number of two-bit slots of the widest descriptor (R7, R70, D4). -/
def Config.maxOperands : Nat := 8

/-- `INTERNAL_CALL_STACK_CAPACITY` (R7, R28, D10). -/
def Config.callStackCapacity : Nat := 1024

/-- The longest program, in bytes: 2^32 - 1 (R7, R111, D22). It is also the greatest length of calldata (R32) and of
the output of a nested call (R273 c). -/
def Config.maxLength : Nat := 2 ^ 32 - 1

/-- FREE VALUE: the field element of the host's n-th unscripted answer, before it is reduced into `[0, P)`. It has no
body: R273 leaves it to the host (log entry 3). -/
opaque Config.freeField : Nat → Nat

/-- FREE VALUE: the truth value of the host's n-th unscripted answer (`exists`, or the success of a nested call). It
has no body: R273 b, c leave it to the host (log entry 3). -/
opaque Config.freeBool : Nat → Bool

/-- FREE VALUE: the output of the nested call answered n-th, before each element is reduced into `[0, P)` and the list
is cut to 2^32 - 1 elements (R273 c, log entry 3). -/
opaque Config.freeOutput : Nat → List Nat

/-- FREE VALUE: the L2 gas that the nested call answered n-th reports as used, before it is reduced to the gas offered
(R273 c, log entry 3). -/
opaque Config.freeL2Used : Nat → Nat

/-- FREE VALUE: the DA gas that the nested call answered n-th reports as used, before it is reduced to the gas offered
(R273 c, log entry 3). -/
opaque Config.freeDaUsed : Nat → Nat

/-- FREE VALUE: the storage writes of the nested call answered n-th which the host merges when the call succeeds, latest
first, each a contract, a slot and a value before they are reduced into `[0, P)` (R272, log entry 6). -/
opaque Config.freeWrites : Nat → List (Nat × Nat × Nat)

/-- A field element: an integer of `[0, P)` (R11, R184). -/
abbrev FieldElem := Fin Config.fieldModulus

/-- The field element that an integer denotes: the integer itself when it is below `P` (R65), its residue otherwise. -/
def fieldOfNat (n : Nat) : FieldElem :=
  ⟨n % Config.fieldModulus, Nat.mod_lt n (by decide)⟩

end Sys2Proof
end

