-- ==== Sys2Proof/Syntax.lean ====
section
/-! DEFINITION. The instructions of the catalogue `AVM-REF-1`: one constructor for each row of spec/opcode_table.json
(30_encoding.md R101). Each constructor's arguments are the wire fields in wire order, each of the width R100 gives it.
A decoded instruction keeps every field as the integer read from the wire (R98), so a field is a bit vector. -/

namespace Sys2Proof

/-- The type tags, in the order that numbers them 0 to 7 (10_state.md R30). -/
inductive Tag where
  | uninitialized
  | uint1
  | uint8
  | uint16
  | uint32
  | uint64
  | uint128
  | field
  deriving DecidableEq, Repr

/-- The 36 instructions of R101. -/
inductive Instr where
  /-- 0x00 `ADD_8` (R171) -/
  | add8 (indirect a b dst : BitVec 8)
  /-- 0x01 `ADD_16` (R172) -/
  | add16 (indirect : BitVec 8) (a b dst : BitVec 16)
  /-- 0x02 `SUB_8` (R173) -/
  | sub8 (indirect a b dst : BitVec 8)
  /-- 0x03 `SUB_16` (R174) -/
  | sub16 (indirect : BitVec 8) (a b dst : BitVec 16)
  /-- 0x04 `MUL_8` (R175) -/
  | mul8 (indirect a b dst : BitVec 8)
  /-- 0x05 `MUL_16` (R176) -/
  | mul16 (indirect : BitVec 8) (a b dst : BitVec 16)
  /-- 0x06 `DIV_8` (R177) -/
  | div8 (indirect a b dst : BitVec 8)
  /-- 0x07 `DIV_16` (R178) -/
  | div16 (indirect : BitVec 8) (a b dst : BitVec 16)
  /-- 0x08 `MOD_8` (R179) -/
  | mod8 (indirect a b dst : BitVec 8)
  /-- 0x09 `MOD_16` (R180) -/
  | mod16 (indirect : BitVec 8) (a b dst : BitVec 16)
  /-- 0x0A `FDIV_8` (R181) -/
  | fdiv8 (indirect a b dst : BitVec 8)
  /-- 0x0B `FDIV_16` (R182) -/
  | fdiv16 (indirect : BitVec 8) (a b dst : BitVec 16)
  /-- 0x0C `CAST_8` (R201) -/
  | cast8 (indirect src dst dstTag : BitVec 8)
  /-- 0x0D `CAST_16` (R202) -/
  | cast16 (indirect : BitVec 8) (src dst : BitVec 16) (dstTag : BitVec 8)
  /-- 0x0E `TORADIXBE` (R203) -/
  | toRadixBE (indirect : BitVec 8) (src radix numLimbs dst : BitVec 16)
  /-- 0x0F `SET_8` (R221) -/
  | set8 (indirect dst tag value : BitVec 8)
  /-- 0x10 `SET_16` (R222) -/
  | set16 (indirect : BitVec 8) (dst : BitVec 16) (tag : BitVec 8) (value : BitVec 16)
  /-- 0x11 `SET_32` (R223) -/
  | set32 (indirect : BitVec 8) (dst : BitVec 16) (tag : BitVec 8) (value : BitVec 32)
  /-- 0x12 `SET_64` (R224) -/
  | set64 (indirect : BitVec 8) (dst : BitVec 16) (tag : BitVec 8) (value : BitVec 64)
  /-- 0x13 `SET_128` (R225) -/
  | set128 (indirect : BitVec 8) (dst : BitVec 16) (tag : BitVec 8) (value : BitVec 128)
  /-- 0x14 `MOV_8` (R226) -/
  | mov8 (indirect src dst : BitVec 8)
  /-- 0x15 `MOV_16` (R227) -/
  | mov16 (indirect : BitVec 8) (src dst : BitVec 16)
  /-- 0x16 `CALLDATACOPY` (R228) -/
  | calldataCopy (indirect : BitVec 8) (cdOffset copySize dst : BitVec 16)
  /-- 0x17 `JUMP` (R251) -/
  | jump (target : BitVec 32)
  /-- 0x18 `JUMPI` (R252) -/
  | jumpi (indirect : BitVec 8) (cond : BitVec 16) (target : BitVec 32)
  /-- 0x19 `INTERNALCALL` (R253) -/
  | internalCall (target : BitVec 32)
  /-- 0x1A `INTERNALRETURN` (R254) -/
  | internalReturn
  /-- 0x1B `GETENVVAR` (R280) -/
  | getEnvVar (indirect : BitVec 8) (dst : BitVec 16) (var : BitVec 8)
  /-- 0x1C `SLOAD` (R285) -/
  | sload (indirect : BitVec 8) (slot dst : BitVec 16)
  /-- 0x1D `SSTORE` (R286) -/
  | sstore (indirect : BitVec 8) (src slot : BitVec 16)
  /-- 0x1E `NOTEHASHEXISTS` (R290) -/
  | noteHashExists (indirect : BitVec 8) (key existsDst valueDst : BitVec 16)
  /-- 0x1F `NULLIFIEREXISTS` (R291) -/
  | nullifierExists (indirect : BitVec 8) (key existsDst valueDst : BitVec 16)
  /-- 0x20 `L1TOL2MSGEXISTS` (R292) -/
  | l1ToL2MsgExists (indirect : BitVec 8) (key existsDst valueDst : BitVec 16)
  /-- 0x21 `CALL` (R300) -/
  | call (indirect l2Gas daGas addr args argsSize ret success retSize : BitVec 16)
  /-- 0x22 `RETURN` (R310) -/
  | ret (indirect : BitVec 8) (ret size : BitVec 16)
  /-- 0x23 `REVERT` (R311) -/
  | revert (indirect : BitVec 8) (ret size : BitVec 16)
  deriving DecidableEq, Repr

/-- The instruction store: byte offsets of instruction starts and the instructions decoded there (10_state.md R31),
in ascending order of the offsets. -/
abbrev Program := List (Nat × Instr)

/-- The opcode families: width variants of one operation, the key of the gas tables (R16, R99, R149). -/
inductive Family where
  | add | sub | mul | div | mod | fdiv
  | cast | toRadixBE
  | set | mov | calldataCopy
  | jump | jumpi | internalCall | internalReturn
  | getEnvVar | sload | sstore
  | noteHashExists | nullifierExists | l1ToL2MsgExists
  | call
  | ret | revert
  deriving DecidableEq, Repr

end Sys2Proof
end

