-- ==== Sys2Proof/WellFormed.lean ====
section
/-! DEFINITION. Which instructions carry no reserved immediate (30_encoding.md R103), and which buffers the load port
admits (R111). Every other field may hold any value of its width: the codec never rejects a field value (R98), and an
instruction with a reserved immediate loads and faults when it is executed. -/

namespace Sys2Proof

/-- A `tag` immediate is a code 1 to 7 (R92, R103 a). -/
def tagImmediateOk (t : BitVec 8) : Bool :=
  1 ≤ t.toNat && t.toNat ≤ 7

/-- A `var` immediate is an environment index 0 to 12 (R103 b, R281). -/
def varImmediateOk (v : BitVec 8) : Bool :=
  v.toNat ≤ 12

/-- No immediate of the instruction is reserved (R103). -/
def wellFormed : Instr → Bool
  | .add8 _ _ _ _ => true
  | .add16 _ _ _ _ => true
  | .sub8 _ _ _ _ => true
  | .sub16 _ _ _ _ => true
  | .mul8 _ _ _ _ => true
  | .mul16 _ _ _ _ => true
  | .div8 _ _ _ _ => true
  | .div16 _ _ _ _ => true
  | .mod8 _ _ _ _ => true
  | .mod16 _ _ _ _ => true
  | .fdiv8 _ _ _ _ => true
  | .fdiv16 _ _ _ _ => true
  | .cast8 _ _ _ t => tagImmediateOk t
  | .cast16 _ _ _ t => tagImmediateOk t
  | .toRadixBE _ _ _ _ _ => true
  | .set8 _ _ t _ => tagImmediateOk t
  | .set16 _ _ t _ => tagImmediateOk t
  | .set32 _ _ t _ => tagImmediateOk t
  | .set64 _ _ t _ => tagImmediateOk t
  | .set128 _ _ t _ => tagImmediateOk t
  | .mov8 _ _ _ => true
  | .mov16 _ _ _ => true
  | .calldataCopy _ _ _ _ => true
  | .jump _ => true
  | .jumpi _ _ _ => true
  | .internalCall _ => true
  | .internalReturn => true
  | .getEnvVar _ _ v => varImmediateOk v
  | .sload _ _ _ => true
  | .sstore _ _ _ => true
  | .noteHashExists _ _ _ _ => true
  | .nullifierExists _ _ _ _ => true
  | .l1ToL2MsgExists _ _ _ _ => true
  | .call _ _ _ _ _ _ _ _ _ => true
  | .ret _ _ _ => true
  | .revert _ _ _ => true

/-- The length of a buffer is an unsigned 32-bit number: at most 2^32 - 1 bytes (R7, R111). -/
def bufferOk (bytes : List Byte) : Bool :=
  bytes.length ≤ Config.maxLength

/-- What the host can present to the load port (R111): a longer buffer has no length `L` and does not exist here. -/
abbrev Buffer := { bytes : List Byte // bufferOk bytes = true }

end Sys2Proof
end

