-- ==== Sys2Proof/Decode.lean ====
section
/-! DEFINITION. The instruction codec (30_encoding.md): the seventeen formats of R100, the opcode map of R101, the
decoding of one instruction and of a whole buffer (R94), the encoder (R97), and the reading of one table word. -/

namespace Sys2Proof

/-- The two load errors (R95, R96) with what each reports: the offset of the offending instruction and, for an unknown
opcode, the byte (D38). -/
inductive CodecError where
  /-- `CodecError.UnknownOpcode`: raised by the codec for an opcode byte 0x24 to 0xFF. Safe: no frame starts. -/
  | unknownOpcode (offset : Nat) (byte : Byte)
  /-- `CodecError.TruncatedBytecode`: raised by the codec for an instruction cut short. Safe: no frame starts. -/
  | truncatedBytecode (offset : Nat)
  deriving DecidableEq, Repr

/-- `be(B)`: the integer whose big-endian bytes these are (R10). -/
def natOfBytes : List Byte → Nat
  | [] => 0
  | b :: bs => b.toNat * 256 ^ bs.length + natOfBytes bs

/-- `bytes_be(v, n)`: the n big-endian bytes of v (R10). -/
def bytesOfNat (v : Nat) : Nat → List Byte
  | 0 => []
  | n + 1 => BitVec.ofNat 8 (v / 256 ^ n) :: bytesOfNat v n

/-- Reads one field of w bits, big-endian, and advances the cursor; `none` when the buffer ends first (R94). -/
def takeField (w : Nat) (bs : List Byte) : Option (BitVec w × List Byte) :=
  if w / 8 ≤ bs.length then
    some (BitVec.ofNat w (natOfBytes (bs.take (w / 8))), bs.drop (w / 8))
  else none

/-- The big-endian bytes of one field of w bits (R97). -/
def putField (w : Nat) (v : BitVec w) : List Byte :=
  bytesOfNat v.toNat (w / 8)

/-- Format `F_I32` (R100). -/
def readI32 (mk : BitVec 32 → Instr) (bs : List Byte) : Option (Instr × List Byte) := do
  let (imm, bs) ← takeField 32 bs
  some (mk imm, bs)

/-- Format `F_2A8` (R100). -/
def read2A8 (mk : BitVec 8 → BitVec 8 → BitVec 8 → Instr) (bs : List Byte) : Option (Instr × List Byte) := do
  let (ind, bs) ← takeField 8 bs
  let (s0, bs) ← takeField 8 bs
  let (s1, bs) ← takeField 8 bs
  some (mk ind s0 s1, bs)

/-- Formats `F_3A8`, `F_2A8_T` and `F_A8_T_I8`: `indirect` and three more fields of one byte (R100). -/
def read3B (mk : BitVec 8 → BitVec 8 → BitVec 8 → BitVec 8 → Instr) (bs : List Byte) :
    Option (Instr × List Byte) := do
  let (ind, bs) ← takeField 8 bs
  let (f1, bs) ← takeField 8 bs
  let (f2, bs) ← takeField 8 bs
  let (f3, bs) ← takeField 8 bs
  some (mk ind f1 f2 f3, bs)

/-- Format `F_A16_I8` (R100). -/
def readA16I8 (mk : BitVec 8 → BitVec 16 → BitVec 8 → Instr) (bs : List Byte) : Option (Instr × List Byte) := do
  let (ind, bs) ← takeField 8 bs
  let (s0, bs) ← takeField 16 bs
  let (imm, bs) ← takeField 8 bs
  some (mk ind s0 imm, bs)

/-- Format `F_2A16` (R100). -/
def read2A16 (mk : BitVec 8 → BitVec 16 → BitVec 16 → Instr) (bs : List Byte) : Option (Instr × List Byte) := do
  let (ind, bs) ← takeField 8 bs
  let (s0, bs) ← takeField 16 bs
  let (s1, bs) ← takeField 16 bs
  some (mk ind s0 s1, bs)

/-- Format `F_2A16_T` (R100). -/
def read2A16T (mk : BitVec 8 → BitVec 16 → BitVec 16 → BitVec 8 → Instr) (bs : List Byte) :
    Option (Instr × List Byte) := do
  let (ind, bs) ← takeField 8 bs
  let (s0, bs) ← takeField 16 bs
  let (s1, bs) ← takeField 16 bs
  let (tag, bs) ← takeField 8 bs
  some (mk ind s0 s1 tag, bs)

/-- Formats `F_A16_T_I16`, `F_A16_T_I32`, `F_A16_T_I64` and `F_A16_T_I128`, by the width of the immediate (R100). -/
def readA16TI (w : Nat) (mk : BitVec 8 → BitVec 16 → BitVec 8 → BitVec w → Instr) (bs : List Byte) :
    Option (Instr × List Byte) := do
  let (ind, bs) ← takeField 8 bs
  let (s0, bs) ← takeField 16 bs
  let (tag, bs) ← takeField 8 bs
  let (imm, bs) ← takeField w bs
  some (mk ind s0 tag imm, bs)

/-- Format `F_3A16` (R100). -/
def read3A16 (mk : BitVec 8 → BitVec 16 → BitVec 16 → BitVec 16 → Instr) (bs : List Byte) :
    Option (Instr × List Byte) := do
  let (ind, bs) ← takeField 8 bs
  let (s0, bs) ← takeField 16 bs
  let (s1, bs) ← takeField 16 bs
  let (s2, bs) ← takeField 16 bs
  some (mk ind s0 s1 s2, bs)

/-- Format `F_A16_I32` (R100). -/
def readA16I32 (mk : BitVec 8 → BitVec 16 → BitVec 32 → Instr) (bs : List Byte) : Option (Instr × List Byte) := do
  let (ind, bs) ← takeField 8 bs
  let (s0, bs) ← takeField 16 bs
  let (imm, bs) ← takeField 32 bs
  some (mk ind s0 imm, bs)

/-- Format `F_4A16` (R100). -/
def read4A16 (mk : BitVec 8 → BitVec 16 → BitVec 16 → BitVec 16 → BitVec 16 → Instr) (bs : List Byte) :
    Option (Instr × List Byte) := do
  let (ind, bs) ← takeField 8 bs
  let (s0, bs) ← takeField 16 bs
  let (s1, bs) ← takeField 16 bs
  let (s2, bs) ← takeField 16 bs
  let (s3, bs) ← takeField 16 bs
  some (mk ind s0 s1 s2 s3, bs)

/-- Format `F_7A16_I16`, the one whose `indirect` is a `U16` (R100). -/
def read7A16I16
    (mk : BitVec 16 → BitVec 16 → BitVec 16 → BitVec 16 → BitVec 16 → BitVec 16 → BitVec 16 → BitVec 16 →
      BitVec 16 → Instr) (bs : List Byte) : Option (Instr × List Byte) := do
  let (ind, bs) ← takeField 16 bs
  let (s0, bs) ← takeField 16 bs
  let (s1, bs) ← takeField 16 bs
  let (s2, bs) ← takeField 16 bs
  let (s3, bs) ← takeField 16 bs
  let (s4, bs) ← takeField 16 bs
  let (s5, bs) ← takeField 16 bs
  let (s6, bs) ← takeField 16 bs
  let (imm, bs) ← takeField 16 bs
  some (mk ind s0 s1 s2 s3 s4 s5 s6 imm, bs)

/-- The opcode map (R101): the reader of the operands that an opcode byte selects; `none` for the 220 illegal opcodes
(R102). -/
def operandReader : Nat → Option (List Byte → Option (Instr × List Byte))
  | 0x00 => some (read3B .add8)
  | 0x01 => some (read3A16 .add16)
  | 0x02 => some (read3B .sub8)
  | 0x03 => some (read3A16 .sub16)
  | 0x04 => some (read3B .mul8)
  | 0x05 => some (read3A16 .mul16)
  | 0x06 => some (read3B .div8)
  | 0x07 => some (read3A16 .div16)
  | 0x08 => some (read3B .mod8)
  | 0x09 => some (read3A16 .mod16)
  | 0x0A => some (read3B .fdiv8)
  | 0x0B => some (read3A16 .fdiv16)
  | 0x0C => some (read3B .cast8)
  | 0x0D => some (read2A16T .cast16)
  | 0x0E => some (read4A16 .toRadixBE)
  | 0x0F => some (read3B .set8)
  | 0x10 => some (readA16TI 16 .set16)
  | 0x11 => some (readA16TI 32 .set32)
  | 0x12 => some (readA16TI 64 .set64)
  | 0x13 => some (readA16TI 128 .set128)
  | 0x14 => some (read2A8 .mov8)
  | 0x15 => some (read2A16 .mov16)
  | 0x16 => some (read3A16 .calldataCopy)
  | 0x17 => some (readI32 .jump)
  | 0x18 => some (readA16I32 .jumpi)
  | 0x19 => some (readI32 .internalCall)
  | 0x1A => some (fun bs => some (.internalReturn, bs))
  | 0x1B => some (readA16I8 .getEnvVar)
  | 0x1C => some (read2A16 .sload)
  | 0x1D => some (read2A16 .sstore)
  | 0x1E => some (read3A16 .noteHashExists)
  | 0x1F => some (read3A16 .nullifierExists)
  | 0x20 => some (read3A16 .l1ToL2MsgExists)
  | 0x21 => some (read7A16I16 .call)
  | 0x22 => some (read2A16 .ret)
  | 0x23 => some (read2A16 .revert)
  | _ => none

/-- Decodes the instruction that starts a buffer, and gives the bytes after it. The first argument is the offset of the
instruction in the whole program, which a load error reports (R94, D38). -/
def decodeOne (offset : Nat) : List Byte → Except CodecError (Instr × List Byte)
  | [] => .error (.truncatedBytecode offset)
  | op :: bs =>
    match operandReader op.toNat with
    | none => .error (.unknownOpcode offset op)
    | some read =>
      match read bs with
      | none => .error (.truncatedBytecode offset)
      | some r => .ok r

/-- `w(I)`: the encoded length in bytes (R101, R105). -/
def instrWidth : Instr → Nat
  | .add8 _ _ _ _ => 5
  | .add16 _ _ _ _ => 8
  | .sub8 _ _ _ _ => 5
  | .sub16 _ _ _ _ => 8
  | .mul8 _ _ _ _ => 5
  | .mul16 _ _ _ _ => 8
  | .div8 _ _ _ _ => 5
  | .div16 _ _ _ _ => 8
  | .mod8 _ _ _ _ => 5
  | .mod16 _ _ _ _ => 8
  | .fdiv8 _ _ _ _ => 5
  | .fdiv16 _ _ _ _ => 8
  | .cast8 _ _ _ _ => 5
  | .cast16 _ _ _ _ => 7
  | .toRadixBE _ _ _ _ _ => 10
  | .set8 _ _ _ _ => 5
  | .set16 _ _ _ _ => 7
  | .set32 _ _ _ _ => 9
  | .set64 _ _ _ _ => 13
  | .set128 _ _ _ _ => 21
  | .mov8 _ _ _ => 4
  | .mov16 _ _ _ => 6
  | .calldataCopy _ _ _ _ => 8
  | .jump _ => 5
  | .jumpi _ _ _ => 8
  | .internalCall _ => 5
  | .internalReturn => 1
  | .getEnvVar _ _ _ => 5
  | .sload _ _ _ => 6
  | .sstore _ _ _ => 6
  | .noteHashExists _ _ _ _ => 8
  | .nullifierExists _ _ _ _ => 8
  | .l1ToL2MsgExists _ _ _ _ => 8
  | .call _ _ _ _ _ _ _ _ _ => 19
  | .ret _ _ _ => 6
  | .revert _ _ _ => 6

/-- The linear decode of R94 from one offset on. The first argument bounds the number of instructions (each is at least
one byte, so the length of the buffer is enough). -/
def decodeFrom : Nat → Nat → List Byte → Except CodecError Program
  | _, _, [] => .ok []
  | 0, offset, _ :: _ => .error (.truncatedBytecode offset)
  | fuel + 1, offset, b :: bs =>
    match decodeOne offset (b :: bs) with
    | .error e => .error e
    | .ok (i, rest) =>
      match decodeFrom fuel (offset + instrWidth i) rest with
      | .error e => .error e
      | .ok prog => .ok ((offset, i) :: prog)

/-- `decode_program` (R94): the instruction store of a buffer, or the first load error in ascending byte order. -/
def decodeProgram (bytes : List Byte) : Except CodecError Program :=
  decodeFrom bytes.length 0 bytes

/-- An `indirect` byte and three more one-byte fields after the opcode (formats `F_3A8`, `F_2A8_T`, `F_A8_T_I8`). -/
def write3B (op : Byte) (ind f1 f2 f3 : BitVec 8) : List Byte :=
  op :: (putField 8 ind ++ putField 8 f1 ++ putField 8 f2 ++ putField 8 f3)

/-- Format `F_2A16`. -/
def write2A16 (op : Byte) (ind : BitVec 8) (s0 s1 : BitVec 16) : List Byte :=
  op :: (putField 8 ind ++ putField 16 s0 ++ putField 16 s1)

/-- Format `F_3A16`. -/
def write3A16 (op : Byte) (ind : BitVec 8) (s0 s1 s2 : BitVec 16) : List Byte :=
  op :: (putField 8 ind ++ putField 16 s0 ++ putField 16 s1 ++ putField 16 s2)

/-- Formats `F_A16_T_I16` to `F_A16_T_I128`, by the width of the immediate. -/
def writeA16TI (w : Nat) (op : Byte) (ind : BitVec 8) (s0 : BitVec 16) (tag : BitVec 8) (imm : BitVec w) :
    List Byte :=
  op :: (putField 8 ind ++ putField 16 s0 ++ putField 8 tag ++ putField w imm)

/-- `encode` (R97): the opcode byte, then the fields in wire order, each big-endian. -/
def encode : Instr → List Byte
  | .add8 ind a b dst => write3B 0x00 ind a b dst
  | .add16 ind a b dst => write3A16 0x01 ind a b dst
  | .sub8 ind a b dst => write3B 0x02 ind a b dst
  | .sub16 ind a b dst => write3A16 0x03 ind a b dst
  | .mul8 ind a b dst => write3B 0x04 ind a b dst
  | .mul16 ind a b dst => write3A16 0x05 ind a b dst
  | .div8 ind a b dst => write3B 0x06 ind a b dst
  | .div16 ind a b dst => write3A16 0x07 ind a b dst
  | .mod8 ind a b dst => write3B 0x08 ind a b dst
  | .mod16 ind a b dst => write3A16 0x09 ind a b dst
  | .fdiv8 ind a b dst => write3B 0x0A ind a b dst
  | .fdiv16 ind a b dst => write3A16 0x0B ind a b dst
  | .cast8 ind src dst tag => write3B 0x0C ind src dst tag
  | .cast16 ind src dst tag => 0x0D :: (putField 8 ind ++ putField 16 src ++ putField 16 dst ++ putField 8 tag)
  | .toRadixBE ind src radix numLimbs dst =>
    0x0E :: (putField 8 ind ++ putField 16 src ++ putField 16 radix ++ putField 16 numLimbs ++ putField 16 dst)
  | .set8 ind dst tag value => write3B 0x0F ind dst tag value
  | .set16 ind dst tag value => writeA16TI 16 0x10 ind dst tag value
  | .set32 ind dst tag value => writeA16TI 32 0x11 ind dst tag value
  | .set64 ind dst tag value => writeA16TI 64 0x12 ind dst tag value
  | .set128 ind dst tag value => writeA16TI 128 0x13 ind dst tag value
  | .mov8 ind src dst => 0x14 :: (putField 8 ind ++ putField 8 src ++ putField 8 dst)
  | .mov16 ind src dst => write2A16 0x15 ind src dst
  | .calldataCopy ind cdOffset copySize dst => write3A16 0x16 ind cdOffset copySize dst
  | .jump target => 0x17 :: putField 32 target
  | .jumpi ind cond target => 0x18 :: (putField 8 ind ++ putField 16 cond ++ putField 32 target)
  | .internalCall target => 0x19 :: putField 32 target
  | .internalReturn => [0x1A]
  | .getEnvVar ind dst var => 0x1B :: (putField 8 ind ++ putField 16 dst ++ putField 8 var)
  | .sload ind slot dst => write2A16 0x1C ind slot dst
  | .sstore ind src slot => write2A16 0x1D ind src slot
  | .noteHashExists ind key existsDst valueDst => write3A16 0x1E ind key existsDst valueDst
  | .nullifierExists ind key existsDst valueDst => write3A16 0x1F ind key existsDst valueDst
  | .l1ToL2MsgExists ind key existsDst valueDst => write3A16 0x20 ind key existsDst valueDst
  | .call ind l2Gas daGas addr args argsSize ret success retSize =>
    0x21 :: (putField 16 ind ++ putField 16 l2Gas ++ putField 16 daGas ++ putField 16 addr ++ putField 16 args ++
      putField 16 argsSize ++ putField 16 ret ++ putField 16 success ++ putField 16 retSize)
  | .ret ind ret size => write2A16 0x22 ind ret size
  | .revert ind ret size => write2A16 0x23 ind ret size

/-- `encode` of a program: the encodings in order, with nothing between them (R90, R97). -/
def encodeProgram (instrs : List Instr) : List Byte :=
  (instrs.map encode).flatten

/-- The store of a program laid out from an offset on: each instruction starts where the one before it ends (R90). -/
def layoutFrom : Nat → List Instr → Program
  | _, [] => []
  | offset, i :: is => (offset, i) :: layoutFrom (offset + instrWidth i) is

/-- The number of bytes of the longest instruction, `SET_128` (R105). -/
def maxInstrBytes : Nat := 21

/-- The bytes of a table word: bit 0 is the least significant bit of the first byte, the second byte is bits 15..8, and
every bit from nbits on is 0, up to the longest instruction. -/
def bytesOfTableWord (nbits w : Nat) : List Byte :=
  (List.range maxInstrBytes).map fun k => BitVec.ofNat 8 ((w % 2 ^ nbits) / 256 ^ k)

/-- The instruction the decoder reads from a table word, `none` where it refuses. -/
def decodeTableWord (nbits w : Nat) : Option Instr :=
  match decodeOne 0 (bytesOfTableWord nbits w) with
  | .error _ => none
  | .ok (i, _) => some i

end Sys2Proof
end

