-- ==== Sys2Proof/Machine/State.lean ====
section
/-! DEFINITION. The state of one frame (10_state.md R20) as plain data, with the host's side of its ports
(45_environment_host.md R270), the reasons for which a step stops, and the state right after reset. -/

namespace Sys2Proof.Machine

/-- A memory cell: a tag and a raw value (R29). -/
structure MemCell where
  tag : Tag
  value : Nat
  deriving DecidableEq, Repr

/-- The tagged memory: the cells that an instruction has written, by address, in strictly rising order (R50). An address
that is not listed holds the cell of R38, `(UNINITIALIZED, 0)`. -/
abbrev Memory := List (Nat × MemCell)

/-- An entry of the internal call stack (R28). -/
structure CallEntry where
  callPc : Word32
  returnPc : Word32
  deriving DecidableEq, Repr

/-- The fault kinds that `err.kind` can hold (60_exceptions.md R331). -/
inductive ErrKind where
  /-- 0 `NONE`: no fault -/
  | none
  /-- 1 `CodecError.UnknownOpcode`: returned by the load port only (R332) -/
  | unknownOpcode
  /-- 2 `CodecError.TruncatedBytecode`: returned by the load port only (R333) -/
  | truncatedBytecode
  /-- 3 `TagError.Uninitialized` (R334) -/
  | tagUninitialized
  /-- 4 `TagError.TagMismatch` (R335) -/
  | tagMismatch
  /-- 5 `AddressingError.RelativeAddressOutOfRange` (R336) -/
  | relativeAddressOutOfRange
  /-- 6 `ArithmeticError.DivisionByZero` (R338) -/
  | divisionByZero
  /-- 7 `ControlFlowError.StackOverflow` (R339) -/
  | stackOverflow
  /-- 8 `ControlFlowError.StackEmpty` (R340) -/
  | stackEmpty
  /-- 9 `ControlFlowError.InvalidProgramCounter` (R341) -/
  | invalidProgramCounter
  /-- 10 `OutOfGasError.L2` (R342) -/
  | outOfGasL2
  /-- 11 `OutOfGasError.DA` (R342) -/
  | outOfGasDA
  /-- 12 `AddressingError.SliceOutOfRange` (R337) -/
  | sliceOutOfRange
  /-- 13 `OperandError.InvalidImmediate` (R343) -/
  | invalidImmediate
  deriving DecidableEq, Repr

/-- The error register `err` (R26), which is also the payload of a `raise` (R13). -/
structure ErrReg where
  kind : ErrKind
  addr : Word32
  tagFound : BitVec 3
  tagExpected : BitVec 3
  deriving DecidableEq, Repr

/-- The error register of a frame that has not faulted (R26, R38). -/
def noError : ErrReg := ⟨.none, 0, 0, 0⟩

/-- The thirteen ExecutionEnvironment registers (R33). -/
structure Environment where
  address : FieldElem
  sender : FieldElem
  storageAddress : FieldElem
  functionSelector : BitVec 32
  isStaticCall : BitVec 1
  isDelegateCall : BitVec 1
  chainId : FieldElem
  version : FieldElem
  blockNumber : BitVec 32
  timestamp : BitVec 64
  feePerL2Gas : BitVec 128
  feePerDaGas : BitVec 128
  transactionFee : FieldElem
  deriving DecidableEq, Repr

/-- The three existence oracles (R270). -/
inductive Oracle where
  | noteHash
  | nullifier
  | l1ToL2Message
  deriving DecidableEq, Repr

/-- A request of the engine on a host port (R270), and the `rollback` signal. -/
inductive HostRequest where
  | storageRead (contract slot : FieldElem)
  | storageWrite (contract slot value : FieldElem)
  | membership (oracle : Oracle) (key : FieldElem)
  | nestedCall (contract : FieldElem) (args : List FieldElem) (l2Gas daGas : Word64)
  | rollback
  deriving DecidableEq, Repr

/-- The host's answer to `nested_call` (R270). -/
structure CallAnswer where
  success : Bool
  output : List FieldElem
  l2Used : Word64
  daUsed : Word64
  deriving DecidableEq, Repr

/-- A tentative write in the host's journal (R272). -/
structure StorageWrite where
  contract : FieldElem
  slot : FieldElem
  value : FieldElem
  deriving DecidableEq, Repr

/-- What the host does for one nested call: its answer, and the writes of the child frame, latest first, which it merges
into this frame's journal when the child completed successfully (R272, log entry 6). The writes are no part of the
response: the engine never sees them but through later reads of the slots. -/
structure ChildRun where
  answer : CallAnswer
  writes : List StorageWrite
  deriving DecidableEq, Repr

/-- The calldata store: its length is at most 2^32 - 1 (R32, R382 b). -/
abbrev Calldata := { elements : List FieldElem // elements.length ≤ Config.maxLength }

/-- Calldata of no element. -/
def noCalldata : Calldata := ⟨[], Nat.zero_le _⟩

/-- The host's side of the ports of one frame. `journal` is the frame's journal, latest write first: the writes of the
frame, and those of its successful children, which the host has merged (R272, R35 b).
`requests` are the requests and signals issued, in program order (R271). The five lists of answers are inputs: the
answers the host will give on each port, the next one first (R273). When a list is used up the answer is the free
value numbered `draws` (log entry 3). -/
structure HostSide where
  journal : List StorageWrite
  requests : List HostRequest
  storageAnswers : List FieldElem
  noteHashAnswers : List (Bool × FieldElem)
  nullifierAnswers : List (Bool × FieldElem)
  l1ToL2Answers : List (Bool × FieldElem)
  childRuns : List ChildRun
  draws : Nat
  deriving DecidableEq, Repr

/-- The state of one frame (R20), with the host's side of its ports. -/
structure State where
  /-- byte offset of the instruction to execute (R22) -/
  pc : Word32
  /-- `internal_call_stack`, the top entry first (R28) -/
  callStack : List CallEntry
  /-- `l2_gas_left` (R24) -/
  l2Gas : Word64
  /-- `da_gas_left` (R24) -/
  daGas : Word64
  /-- the tagged memory (R50) -/
  memory : Memory
  /-- `halted` (R25) -/
  halted : Bool
  /-- `reverted` (R25) -/
  reverted : Bool
  /-- `err` (R26) -/
  err : ErrReg
  /-- `output` (R27) -/
  output : List FieldElem
  /-- the instruction store (R31) -/
  program : Program
  /-- the calldata store (R32) -/
  calldata : Calldata
  /-- the ExecutionEnvironment registers (R33) -/
  env : Environment
  /-- `l2_gas_allotment` (R24) -/
  l2Allotment : Word64
  /-- `da_gas_allotment` (R24) -/
  daAllotment : Word64
  /-- the host's side of the ports (R270) -/
  host : HostSide
  deriving DecidableEq, Repr

/-- Why the machine stops with a fault. A runtime error of the engine is NOT one of these: it is taken, and gives a
next state (60_exceptions.md R345). -/
inductive Fault where
  /-- Raised by `step` on a halted frame: no step is defined when `halted = 1` (R142, U38). Safe: nothing is claimed of a
  step that does not exist. -/
  | frameHalted
  deriving DecidableEq, Repr

/-- Why the machine gives an instruction no meaning. -/
inductive Refusal where
  /-- Raised by an arm of `exec` for an instruction without a meaning; no arm does. Safe. -/
  | notModelled (mnemonic : String)
  /-- Raised by `CALL` when the scripted answer of the host breaks R273 c (more gas used than was offered, or an output
  longer than 2^32 - 1 elements); U32 says to refuse such an answer. Safe: nothing is claimed of a host that breaks its
  precondition. -/
  | hostAnswerOutOfContract
  deriving DecidableEq, Repr

/-- The environment after reset: every register zero. R38 leaves it to the host (log entry 2, DESIGN CHOICE). -/
def zeroEnvironment : Environment where
  address := fieldOfNat 0
  sender := fieldOfNat 0
  storageAddress := fieldOfNat 0
  functionSelector := 0
  isStaticCall := 0
  isDelegateCall := 0
  chainId := fieldOfNat 0
  version := fieldOfNat 0
  blockNumber := 0
  timestamp := 0
  feePerL2Gas := 0
  feePerDaGas := 0
  transactionFee := fieldOfNat 0

/-- The host's side at the start of a frame, with no scripted answer: an empty journal (R274 b), no request issued. -/
def quietHost : HostSide where
  journal := []
  requests := []
  storageAnswers := []
  noteHashAnswers := []
  nullifierAnswers := []
  l1ToL2Answers := []
  childRuns := []
  draws := 0

/-- The machine right after reset: the start of a frame (R38, R381). What the host supplies at the start has no default
there: the store is empty, calldata is empty, the environment is zero and each allotment is 1000 (log entries 1, 2). -/
def State.reset : State where
  pc := 0
  callStack := []
  l2Gas := 1000
  daGas := 1000
  memory := []
  halted := false
  reverted := false
  err := noError
  output := []
  program := []
  calldata := noCalldata
  env := zeroEnvironment
  l2Allotment := 1000
  daAllotment := 1000
  host := quietHost

end Sys2Proof.Machine
end

