-- ==== Sys2Proof/Machine/Flags.lean ====
section
/-! DEFINITION. The frame-status bits (10_state.md R25). The engine has no arithmetic condition code (R23), so these two
bits, with `err.kind`, are all the flags there are. -/

namespace Sys2Proof.Machine

/-- The four engine states (R25, R130). -/
inductive EngineState where
  | running
  | haltedReturn
  | haltedRevert
  | faulted (kind : ErrKind)
  deriving DecidableEq, Repr

/-- The engine state that `halted`, `reverted` and `err.kind` encode (the table of R25). -/
def engineState (s : State) : EngineState :=
  if s.halted then
    if s.reverted then
      if s.err.kind = .none then .haltedRevert else .faulted s.err.kind
    else .haltedReturn
  else .running

/-- Ends the frame with an output buffer: `halted` is set, `reverted` as given (R310, R311). -/
def State.halt (s : State) (reverted : Bool) (output : List FieldElem) : State :=
  { s with halted := true, reverted := reverted, output := output }

/-- The 4-bit code of a fault kind (R331). -/
def errCode : ErrKind → BitVec 4
  | .none => 0
  | .unknownOpcode => 1
  | .truncatedBytecode => 2
  | .tagUninitialized => 3
  | .tagMismatch => 4
  | .relativeAddressOutOfRange => 5
  | .divisionByZero => 6
  | .stackOverflow => 7
  | .stackEmpty => 8
  | .invalidProgramCounter => 9
  | .outOfGasL2 => 10
  | .outOfGasDA => 11
  | .sliceOutOfRange => 12
  | .invalidImmediate => 13

end Sys2Proof.Machine
end

