-- ==== Sys2Proof/Machine/HostPorts.lean ====
section
/-! DEFINITION. The engine's ports to its host (45_environment_host.md R270 to R274): each operation issues one request,
in program order, and gives the host's answer. -/

namespace Sys2Proof.Machine

/-- Records a request after all those issued before it (R271). -/
def issue (r : HostRequest) (h : HostSide) : HostSide :=
  { h with requests := h.requests ++ [r] }

/-- The value that the frame's journal fixes for a slot: the latest write there, of the frame itself or of a child that
the host has merged (R272, R273 a, 20_memory.md R85). -/
def journalValue (contract slot : FieldElem) : List StorageWrite → Option FieldElem
  | [] => none
  | w :: rest => if w.contract = contract ∧ w.slot = slot then some w.value else journalValue contract slot rest

/-- The host's n-th free field element (R273, log entry 3). -/
def freeFieldElem (n : Nat) : FieldElem := fieldOfNat (Config.freeField n)

/-- `storage_read` (R272, R273 a): the latest write in the frame's journal, else the host's answer. -/
def storageRead (contract slot : FieldElem) (h : HostSide) : FieldElem × HostSide :=
  let asked := issue (.storageRead contract slot) h
  match journalValue contract slot h.journal with
  | some v => (v, asked)
  | none =>
    match h.storageAnswers with
    | v :: rest => (v, { asked with storageAnswers := rest })
    | [] => (freeFieldElem h.draws, { asked with draws := h.draws + 1 })

/-- `storage_write` (R272): records the value in the journal; there is no response. -/
def storageWrite (contract slot value : FieldElem) (h : HostSide) : HostSide :=
  let asked := issue (.storageWrite contract slot value) h
  { asked with journal := ⟨contract, slot, value⟩ :: h.journal }

/-- The answers scripted for an oracle. -/
def oracleAnswers (o : Oracle) (h : HostSide) : List (Bool × FieldElem) :=
  match o with
  | .noteHash => h.noteHashAnswers
  | .nullifier => h.nullifierAnswers
  | .l1ToL2Message => h.l1ToL2Answers

/-- The host's side with other answers scripted for one oracle. -/
def setOracleAnswers (o : Oracle) (rest : List (Bool × FieldElem)) (h : HostSide) : HostSide :=
  match o with
  | .noteHash => { h with noteHashAnswers := rest }
  | .nullifier => { h with nullifierAnswers := rest }
  | .l1ToL2Message => { h with l1ToL2Answers := rest }

/-- `note_hash_exists`, `nullifier_exists`, `l1_to_l2_message_exists` (R273 b): any pair the host answers. -/
def askOracle (o : Oracle) (key : FieldElem) (h : HostSide) : (Bool × FieldElem) × HostSide :=
  let asked := issue (.membership o key) h
  match oracleAnswers o h with
  | a :: rest => (a, setOracleAnswers o rest asked)
  | [] => ((Config.freeBool h.draws, freeFieldElem h.draws), { asked with draws := h.draws + 1 })

/-- The host's n-th free answer to a nested call with these offers: it meets R273 c whatever the free values are. -/
def freeCallAnswer (n : Nat) (l2Offer daOffer : Word64) : CallAnswer where
  success := Config.freeBool n
  output := ((Config.freeOutput n).take Config.maxLength).map fieldOfNat
  l2Used := BitVec.ofNat 64 (Config.freeL2Used n % (l2Offer.toNat + 1))
  daUsed := BitVec.ofNat 64 (Config.freeDaUsed n % (daOffer.toNat + 1))

/-- The host's n-th free run of a child: a free answer, and free writes. -/
def freeChildRun (n : Nat) (l2Offer daOffer : Word64) : ChildRun where
  answer := freeCallAnswer n l2Offer daOffer
  writes := (Config.freeWrites n).map fun w => ⟨fieldOfNat w.1, fieldOfNat w.2.1, fieldOfNat w.2.2⟩

/-- The precondition on the host's answer to a nested call (R273 c). -/
def callAnswerOk (a : CallAnswer) (l2Offer daOffer : Word64) : Bool :=
  a.l2Used.toNat ≤ l2Offer.toNat && a.daUsed.toNat ≤ daOffer.toNat && a.output.length ≤ Config.maxLength

/-- The journal after a nested call: the writes of a child that completed successfully are merged, those of a failed one
are discarded (R272, R274 d). -/
def journalAfterCall (r : ChildRun) (j : List StorageWrite) : List StorageWrite :=
  if r.answer.success then r.writes ++ j else j

/-- `nested_call` (R273 c): the request, and the answer the host gives. -/
def nestedCall (contract : FieldElem) (args : List FieldElem) (l2Offer daOffer : Word64) (h : HostSide) :
    CallAnswer × HostSide :=
  let asked := issue (.nestedCall contract args l2Offer daOffer) h
  match h.childRuns with
  | r :: rest => (r.answer, { asked with childRuns := rest, journal := journalAfterCall r h.journal })
  | [] =>
    let r := freeChildRun h.draws l2Offer daOffer
    (r.answer, { asked with draws := h.draws + 1, journal := journalAfterCall r h.journal })

/-- `rollback` (R274 d): the host discards every tentative write of the frame and of its completed children. -/
def rollback (h : HostSide) : HostSide :=
  let asked := issue .rollback h
  { asked with journal := [] }

end Sys2Proof.Machine
end

