-- ==== Sys2Proof/Machine/Ops.lean ====
section
/-! DEFINITION. The named operations that the instructions share: tags and their domains, the memory controller
(20_memory.md), the checked reads, the fields of the state, taking a fault (60_exceptions.md R345), the fetch, and the
load, start and result ports. No operation returns from a fault: the machine has none (R347). -/

namespace Sys2Proof.Machine

/-! ## Tags -/

/-- `dom(T)`: the number of values of a tag (R11, R30). `UNINITIALIZED` has only the raw value 0 (R29, D36). -/
def domOf : Tag → Nat
  | .uninitialized => 1
  | .uint1 => 2
  | .uint8 => 2 ^ 8
  | .uint16 => 2 ^ 16
  | .uint32 => 2 ^ 32
  | .uint64 => 2 ^ 64
  | .uint128 => 2 ^ 128
  | .field => Config.fieldModulus

/-- The code of a tag: its position in the list of R30. -/
def tagCode : Tag → BitVec 3
  | .uninitialized => 0
  | .uint1 => 1
  | .uint8 => 2
  | .uint16 => 3
  | .uint32 => 4
  | .uint64 => 5
  | .uint128 => 6
  | .field => 7

/-- The tag of a code 1 to 7; `none` for the reserved codes of a `tag` immediate, 0 and 8 to 255 (R103 a). -/
def tagOfImmediate (t : BitVec 8) : Option Tag :=
  match t.toNat with
  | 1 => some .uint1
  | 2 => some .uint8
  | 3 => some .uint16
  | 4 => some .uint32
  | 5 => some .uint64
  | 6 => some .uint128
  | 7 => some .field
  | _ => none

/-! ## Raising a fault -/

/-- The result of a phase that may raise (R13): the payload of the raise, or a value. -/
abbrev Checked (α : Type) := Except ErrReg α

/-- The payload of a fault that records its kind only (R331). -/
def kindOnly (k : ErrKind) : ErrReg := ⟨k, 0, 0, 0⟩

/-- The payload of a tag error: the offending address, the tag found and the code expected (R26, R62). -/
def tagError (k : ErrKind) (a : Nat) (found : Tag) (expected : BitVec 3) : ErrReg :=
  ⟨k, BitVec.ofNat 32 a, tagCode found, expected⟩

/-! ## The memory controller -/

/-- What an address that nothing has written reads as (R38, R381). -/
def blankCell : MemCell := ⟨.uninitialized, 0⟩

/-- `get` (R56). -/
def readCell : Memory → Nat → MemCell
  | [], _ => blankCell
  | (b, c) :: m, a => if b = a then c else readCell m a

/-- Puts a cell at its place in the rising order of the addresses. -/
def insertCell : Memory → Nat → MemCell → Memory
  | [], a, c => [(a, c)]
  | (b, d) :: m, a, c =>
    if a < b then (a, c) :: (b, d) :: m
    else if a = b then (a, c) :: m
    else (b, d) :: insertCell m a c

/-- `set` (R57). Writing the cell that an unlisted address reads as removes the entry. -/
def writeCell (m : Memory) (a : Nat) (c : MemCell) : Memory :=
  if c = blankCell then m.filter (fun e => e.1 ≠ a) else insertCell m a c

/-- `set_slice` (R57): consecutive cells, in ascending order of the addresses. -/
def writeCells : Memory → Nat → List MemCell → Memory
  | m, _, [] => m
  | m, a, c :: cs => writeCells (writeCell m a c) (a + 1) cs

/-- The cell invariant of a written cell (R29, R57). -/
def cellOk (c : MemCell) : Bool :=
  c.tag ≠ .uninitialized && c.value < domOf c.tag

/-- The canonical form from an address on: strictly rising addresses of the memory, each with a written cell. -/
def memoryOkFrom : Nat → Memory → Bool
  | _, [] => true
  | lo, (a, c) :: m => lo ≤ a && a < Config.maxMemorySize && cellOk c && memoryOkFrom (a + 1) m

/-- The canonical form of a memory: strictly rising addresses below 2^32 (R50), no entry equal to what an unlisted
address reads as, every entry within its tag's domain (R29). -/
def Memory.wf (m : Memory) : Bool := memoryOkFrom 0 m

/-! ## Checked reads -/

/-- `ReadInit(a)` (R58). -/
def readInit (m : Memory) (a : Nat) : Checked MemCell :=
  let c := readCell m a
  if c.tag = .uninitialized then .error (tagError .tagUninitialized a .uninitialized 0) else .ok c

/-- `CheckTag(T, a)` (R59). -/
def checkTag (m : Memory) (t : Tag) (a : Nat) : Checked Nat :=
  let c := readCell m a
  if c.tag = .uninitialized then .error (tagError .tagUninitialized a .uninitialized (tagCode t))
  else if c.tag ≠ t then .error (tagError .tagMismatch a c.tag (tagCode t))
  else .ok c.value

/-- `CheckSame(a, b)` (R60): the common tag and the two values. -/
def checkSame (m : Memory) (a b : Nat) : Checked (Tag × Nat × Nat) := do
  let ca ← readInit m a
  let cb ← readInit m b
  if ca.tag ≠ cb.tag then .error (tagError .tagMismatch b cb.tag (tagCode ca.tag))
  else .ok (ca.tag, ca.value, cb.value)

/-- The rejection of a `FIELD` cell where an integral tag is required (R61): a class of tags, so `expected` is 0. -/
def rejectField (t : Tag) (a : Nat) : Checked Unit :=
  if t = .field then .error (tagError .tagMismatch a .field 0) else .ok ()

/-- The rejection of any other tag where `FIELD` is required of the first operand (R181). -/
def requireField (t : Tag) (a : Nat) : Checked Unit :=
  if t ≠ .field then .error (tagError .tagMismatch a t (tagCode .field)) else .ok ()

/-- `CheckIntegral(a)` (R61). -/
def checkIntegral (m : Memory) (a : Nat) : Checked MemCell := do
  let c ← readInit m a
  rejectField c.tag a
  .ok c

/-- `CheckSlice(a, n)` (R64). -/
def checkSlice (a n : Nat) : Checked Unit :=
  if Config.maxMemorySize < a + n then .error (kindOnly .sliceOutOfRange) else .ok ()

/-- `ReadSlice(a, n)` (R65): the values of n cells, the lowest address first. -/
def readSlice (m : Memory) : Nat → Nat → Checked (List Nat)
  | _, 0 => .ok []
  | a, n + 1 => do
    let c ← readInit m a
    let rest ← readSlice m (a + 1) n
    .ok (c.value :: rest)

/-- The check of a reserved tag immediate (R103 a, R343). -/
def checkTagImmediate (t : BitVec 8) : Checked Tag :=
  match tagOfImmediate t with
  | none => .error (kindOnly .invalidImmediate)
  | some tag => .ok tag

/-! ## The fields of the state -/

/-- `pc <- t` (R12). -/
def State.setPc (s : State) (pc : Word32) : State := { s with pc := pc }

/-- Phase 7 for an instruction that did not set `pc` itself (R138). -/
def State.advance (s : State) (width : Nat) : State := s.setPc (s.pc + BitVec.ofNat 32 width)

/-- The state with another memory. -/
def State.setMemory (s : State) (m : Memory) : State := { s with memory := m }

/-- `M[a] <- c` (R57). -/
def State.setCell (s : State) (a : Nat) (c : MemCell) : State := s.setMemory (writeCell s.memory a c)

/-- `MemWrite(a, n, cells)` (R57). -/
def State.setCells (s : State) (a : Nat) (cs : List MemCell) : State := s.setMemory (writeCells s.memory a cs)

/-- The state with other gas counters (R24). -/
def State.setGas (s : State) (l2 da : Word64) : State := { s with l2Gas := l2, daGas := da }

/-- The state with another internal call stack (R28). -/
def State.setStack (s : State) (st : List CallEntry) : State := { s with callStack := st }

/-- The state with another host side. -/
def State.setHost (s : State) (h : HostSide) : State := { s with host := h }

/-! ## Taking a fault -/

/-- The frame-boundary conversion (R345): the error is recorded, the output emptied, all gas consumed, the frame halted
and reverted, and the host told to roll back. `pc`, the stack and the memory keep what they held. -/
def takeFault (e : ErrReg) (s : State) : State :=
  { s with err := e, output := [], l2Gas := 0, daGas := 0, reverted := true, halted := true, host := rollback s.host }

/-- The end of a step (R131): its effect, or the conversion applied to the state BEFORE the step, for a step that raises
writes nothing (R140). -/
def atFrameBoundary (s : State) (r : Checked State) : Host.Outcome State Fault Refusal :=
  match r with
  | .error e => .next (takeFault e s)
  | .ok t => .next t

/-! ## Fetch -/

/-- The instruction that a store holds at an offset. -/
def instrAt : Program → Nat → Option Instr
  | [], _ => none
  | (p, i) :: rest, a => if p = a then some i else instrAt rest a

/-- Phases 1 and 2 (R132, R133): the instruction that starts at `pc`, if one does. -/
def fetch (s : State) : Option Instr := instrAt s.program s.pc.toNat

/-! ## The load, start and result ports -/

/-- The load port (R111): a new instruction store, or the load error; no other state changes. -/
def State.load (s : State) (buffer : Buffer) : Except CodecError State :=
  match decodeProgram buffer.val with
  | .error e => .error e
  | .ok prog => .ok { s with program := prog }

/-- The start port (R38, R380): every piece of state takes its reset value; of the engine's earlier state only the
instruction store is kept. `answers` gives the host's side: its answers to come; the frame's journal is empty. -/
def State.start (s : State) (calldata : Calldata) (env : Environment) (l2Allotment daAllotment : Word64)
    (answers : HostSide) : State where
  pc := 0
  callStack := []
  l2Gas := l2Allotment
  daGas := daAllotment
  memory := []
  halted := false
  reverted := false
  err := noError
  output := []
  program := s.program
  calldata := calldata
  env := env
  l2Allotment := l2Allotment
  daAllotment := daAllotment
  host := { answers with journal := [], requests := [] }

/-- The frame result (R313, R40). -/
structure FrameResult where
  success : Bool
  output : List FieldElem
  l2Used : Word64
  daUsed : Word64
  err : ErrReg
  deriving DecidableEq, Repr

/-- The result port (R313): read by the host when `halted = 1`. -/
def frameResult (s : State) : Option FrameResult :=
  if s.halted then
    some
      { success := !s.reverted
        output := s.output
        l2Used := s.l2Allotment - s.l2Gas
        daUsed := s.daAllotment - s.daGas
        err := s.err }
  else none

end Sys2Proof.Machine
end

