-- ==== Sys2Proof/Machine/Operands.lean ====
section
/-! DEFINITION. The addressing-mode resolver (20_memory.md R70 to R77). -/

namespace Sys2Proof.Machine

/-- The four addressing modes (R70). -/
inductive AddrMode where
  | direct
  | indirect
  | relative
  | indirectRelative
  deriving DecidableEq, Repr

/-- `mode[i]`: the mode of slot i, whose INDIRECT flag is bit 2i of the descriptor and whose RELATIVE flag is bit 2i + 1
(R70, R93). -/
def slotMode (descriptor : BitVec n) (i : Nat) : AddrMode :=
  match descriptor.getLsbD (2 * i), descriptor.getLsbD (2 * i + 1) with
  | false, false => .direct
  | true, false => .indirect
  | false, true => .relative
  | true, true => .indirectRelative

/-- The number of flags a mode sets (R148). -/
def modeFlags : AddrMode → Nat
  | .direct => 0
  | .indirect => 1
  | .relative => 1
  | .indirectRelative => 2

/-- The number of flags set in the first n slots: the slots the instruction has (R76, R147). -/
def flagCount (descriptor : BitVec w) : Nat → Nat
  | 0 => 0
  | n + 1 => flagCount descriptor n + modeFlags (slotMode descriptor n)

/-- The RELATIVE step (R71): the exact sum of the base in cell 0 and the offset, which must stay in the memory. -/
def relativeAddr (base offset : Nat) : Checked Nat :=
  if Config.maxMemorySize ≤ base + offset then .error (kindOnly .relativeAddressOutOfRange) else .ok (base + offset)

/-- The base pointer (R71): cell 0, which must be tagged `UINT32`. -/
def basePointer (m : Memory) : Checked Nat := checkTag m .uint32 0

/-- The dereference of a pointer cell (R72). -/
def derefPointer (m : Memory) (a : Nat) : Checked Nat := checkTag m .uint32 a

/-- The address that one operand resolves to (the table of R74). Resolution writes nothing (R75), so the base read here
is the one that R71 caches (R35 a). -/
def resolveOperand (m : Memory) (mode : AddrMode) (offset : Nat) : Checked Nat :=
  match mode with
  | .direct => .ok offset
  | .indirect => derefPointer m offset
  | .relative => do
    let base ← basePointer m
    relativeAddr base offset
  | .indirectRelative => do
    let base ← basePointer m
    let p ← relativeAddr base offset
    derefPointer m p

/-- `A[name]` for the operand of slot i of an instruction with this descriptor (R134): its wire offset widened with
zeros (R106) and resolved. -/
def slotAddr (m : Memory) (descriptor : BitVec n) (i : Nat) (offset : BitVec k) : Checked Nat :=
  resolveOperand m (slotMode descriptor i) offset.toNat

/-- The algorithm of R74 as it stands there, with the base read once, at the first RELATIVE operand, and cached for the
rest of the resolution. The instructions resolve operand by operand instead; that the two agree is a statement. -/
def resolveCached (m : Memory) : Option Nat → List (AddrMode × Nat) → Checked (List Nat)
  | _, [] => .ok []
  | base, (.direct, off) :: rest => do
    let out ← resolveCached m base rest
    .ok (off :: out)
  | base, (.indirect, off) :: rest => do
    let a ← derefPointer m off
    let out ← resolveCached m base rest
    .ok (a :: out)
  | base, (.relative, off) :: rest => do
    let b ← match base with
      | none => basePointer m
      | some b => .ok b
    let a ← relativeAddr b off
    let out ← resolveCached m (some b) rest
    .ok (a :: out)
  | base, (.indirectRelative, off) :: rest => do
    let b ← match base with
      | none => basePointer m
      | some b => .ok b
    let p ← relativeAddr b off
    let a ← derefPointer m p
    let out ← resolveCached m (some b) rest
    .ok (a :: out)

/-- `resolve` (R74), operand by operand in wire order: what the instructions do in phase 3. -/
def resolveEach (m : Memory) : List (AddrMode × Nat) → Checked (List Nat)
  | [] => .ok []
  | (mode, off) :: rest => do
    let a ← resolveOperand m mode off
    let out ← resolveEach m rest
    .ok (a :: out)

end Sys2Proof.Machine
end

