-- ==== Sys2Proof/Machine/Gas.lean ====
section
/-! DEFINITION. The gas accounting pipeline (40_step_and_gas.md R145 to R156). The tables are the configuration of R150
and R152. -/

namespace Sys2Proof.Machine

/-- `BASE_L2` (R150). -/
def baseL2 : Family → Nat
  | .add => 9
  | .sub => 9
  | .mul => 12
  | .div => 15
  | .mod => 15
  | .fdiv => 30
  | .cast => 9
  | .toRadixBE => 20
  | .set => 6
  | .mov => 6
  | .calldataCopy => 10
  | .jump => 3
  | .jumpi => 6
  | .internalCall => 6
  | .internalReturn => 6
  | .getEnvVar => 6
  | .sload => 100
  | .sstore => 200
  | .noteHashExists => 100
  | .nullifierExists => 100
  | .l1ToL2MsgExists => 100
  | .call => 300
  | .ret => 10
  | .revert => 10

/-- `BASE_DA` (R150): only `SSTORE` has one. -/
def baseDA : Family → Nat
  | .add => 0
  | .sub => 0
  | .mul => 0
  | .div => 0
  | .mod => 0
  | .fdiv => 0
  | .cast => 0
  | .toRadixBE => 0
  | .set => 0
  | .mov => 0
  | .calldataCopy => 0
  | .jump => 0
  | .jumpi => 0
  | .internalCall => 0
  | .internalReturn => 0
  | .getEnvVar => 0
  | .sload => 0
  | .sstore => 32
  | .noteHashExists => 0
  | .nullifierExists => 0
  | .l1ToL2MsgExists => 0
  | .call => 0
  | .ret => 0
  | .revert => 0

/-- `DYN_L2` (R152): the price of one unit of the runtime count. -/
def dynL2 : Family → Nat
  | .add => 0
  | .sub => 0
  | .mul => 0
  | .div => 0
  | .mod => 0
  | .fdiv => 0
  | .cast => 0
  | .toRadixBE => 1
  | .set => 0
  | .mov => 0
  | .calldataCopy => 1
  | .jump => 0
  | .jumpi => 0
  | .internalCall => 0
  | .internalReturn => 0
  | .getEnvVar => 0
  | .sload => 0
  | .sstore => 0
  | .noteHashExists => 0
  | .nullifierExists => 0
  | .l1ToL2MsgExists => 0
  | .call => 1
  | .ret => 1
  | .revert => 1

/-- `DYN_DA` (R152): zero for every family. -/
def dynDA (_ : Family) : Nat := 0

/-- `ADDR_PENALTY_L2` (R148). -/
def addrPenaltyL2 : Nat := 3

/-- `ADDR_PENALTY_DA` (R148). -/
def addrPenaltyDA : Nat := 0

/-- `cost_l2` (R147), exact (R154). -/
def costL2 (f : Family) (flags count : Nat) : Nat :=
  baseL2 f + addrPenaltyL2 * flags + dynL2 f * count

/-- `cost_da` (R147), exact (R154). -/
def costDA (f : Family) (flags count : Nat) : Nat :=
  baseDA f + addrPenaltyDA * flags + dynDA f * count

/-- `charge` (R146): both counters are compared, L2 first, before either is reduced. -/
def charge (l2 da : Nat) (s : State) : Checked State :=
  if s.l2Gas.toNat < l2 then .error (kindOnly .outOfGasL2)
  else if s.daGas.toNat < da then .error (kindOnly .outOfGasDA)
  else .ok (s.setGas (s.l2Gas - BitVec.ofNat 64 l2) (s.daGas - BitVec.ofNat 64 da))

/-- Phase 5 (R136) of an instruction of a family, with n address operands and a runtime count (R151). -/
def chargeFor (f : Family) (descriptor : BitVec w) (n count : Nat) (s : State) : Checked State :=
  charge (costL2 f (flagCount descriptor n) count) (costDA f (flagCount descriptor n) count) s

/-- The family of an instruction (R99, R101). -/
def familyOf : Instr → Family
  | .add8 _ _ _ _ => .add
  | .add16 _ _ _ _ => .add
  | .sub8 _ _ _ _ => .sub
  | .sub16 _ _ _ _ => .sub
  | .mul8 _ _ _ _ => .mul
  | .mul16 _ _ _ _ => .mul
  | .div8 _ _ _ _ => .div
  | .div16 _ _ _ _ => .div
  | .mod8 _ _ _ _ => .mod
  | .mod16 _ _ _ _ => .mod
  | .fdiv8 _ _ _ _ => .fdiv
  | .fdiv16 _ _ _ _ => .fdiv
  | .cast8 _ _ _ _ => .cast
  | .cast16 _ _ _ _ => .cast
  | .toRadixBE _ _ _ _ _ => .toRadixBE
  | .set8 _ _ _ _ => .set
  | .set16 _ _ _ _ => .set
  | .set32 _ _ _ _ => .set
  | .set64 _ _ _ _ => .set
  | .set128 _ _ _ _ => .set
  | .mov8 _ _ _ => .mov
  | .mov16 _ _ _ => .mov
  | .calldataCopy _ _ _ _ => .calldataCopy
  | .jump _ => .jump
  | .jumpi _ _ _ => .jumpi
  | .internalCall _ => .internalCall
  | .internalReturn => .internalReturn
  | .getEnvVar _ _ _ => .getEnvVar
  | .sload _ _ _ => .sload
  | .sstore _ _ _ => .sstore
  | .noteHashExists _ _ _ _ => .noteHashExists
  | .nullifierExists _ _ _ _ => .nullifierExists
  | .l1ToL2MsgExists _ _ _ _ => .l1ToL2MsgExists
  | .call _ _ _ _ _ _ _ _ _ => .call
  | .ret _ _ _ => .ret
  | .revert _ _ _ => .revert

end Sys2Proof.Machine
end

