-- ==== Sys2Proof/Machine/Arithmetic.lean ====
section
/-! DEFINITION. The twelve arithmetic instructions (41_arithmetic.md R170 to R185). -/

namespace Sys2Proof.Machine

/-- Addition in a tag's domain: it wraps (R171, R183, R184). -/
def addIn (t : Tag) (x y : Nat) : Nat := (x + y) % domOf t

/-- Subtraction in a tag's domain, the non-negative residue (R173, R183, R184). -/
def subIn (t : Tag) (x y : Nat) : Nat := (((x : Int) - (y : Int)) % (domOf t : Int)).toNat

/-- Multiplication in a tag's domain: the high part is discarded (R175, R183, R184). -/
def mulIn (t : Tag) (x y : Nat) : Nat := (x * y) % domOf t

/-- The floor quotient; a zero divisor faults (R177). -/
def divIn (x y : Nat) : Checked Nat :=
  if y = 0 then .error (kindOnly .divisionByZero) else .ok (x / y)

/-- The remainder; a zero divisor faults (R179). -/
def modIn (x y : Nat) : Checked Nat :=
  if y = 0 then .error (kindOnly .divisionByZero) else .ok (x % y)

/-- Square-and-multiply modulo m, for exponents below 2^fuel. -/
def powModFuel (m : Nat) : Nat → Nat → Nat → Nat
  | 0, _, _ => 1 % m
  | fuel + 1, b, e =>
    if e % 2 = 1 then b * powModFuel m fuel (b * b % m) (e / 2) % m
    else powModFuel m fuel (b * b % m) (e / 2)

/-- `y^(P-2) mod P`, the inverse of a non-zero y (R181). -/
def fieldInverse (y : Nat) : Nat :=
  powModFuel Config.fieldModulus 256 y (Config.fieldModulus - 2)

/-- Field division; a zero denominator faults (R181). -/
def fdivIn (x y : Nat) : Checked Nat :=
  if y = 0 then .error (kindOnly .divisionByZero) else .ok (x * fieldInverse y % Config.fieldModulus)

/-- The template of R170. `classCheck` is the check on the common tag that follows the equality of the tags in phase 4;
`op` is the effect of phase 6. -/
def arithmetic (f : Family) (width : Nat) (classCheck : Tag → Nat → Checked Unit)
    (op : Tag → Nat → Nat → Checked Nat) (indirect : BitVec 8) (a b dst : BitVec k) (s : State) :
    Host.Outcome State Fault Refusal :=
  atFrameBoundary s do
    let pa ← slotAddr s.memory indirect 0 a
    let pb ← slotAddr s.memory indirect 1 b
    let pd ← slotAddr s.memory indirect 2 dst
    let (t, va, vb) ← checkSame s.memory pa pb
    classCheck t pa
    let charged ← chargeFor f indirect 3 0 s
    let r ← op t va vb
    .ok ((charged.setCell pd ⟨t, r⟩).advance width)

/-- Every initialised tag is accepted (R171). -/
def anyTag (_ : Tag) (_ : Nat) : Checked Unit := .ok ()

/-- `ADD_8` (R171) -/
def execAdd8 (indirect a b dst : BitVec 8) (s : State) : Host.Outcome State Fault Refusal :=
  arithmetic .add 5 anyTag (fun t x y => .ok (addIn t x y)) indirect a b dst s

/-- `ADD_16` (R172) -/
def execAdd16 (indirect : BitVec 8) (a b dst : BitVec 16) (s : State) : Host.Outcome State Fault Refusal :=
  arithmetic .add 8 anyTag (fun t x y => .ok (addIn t x y)) indirect a b dst s

/-- `SUB_8` (R173) -/
def execSub8 (indirect a b dst : BitVec 8) (s : State) : Host.Outcome State Fault Refusal :=
  arithmetic .sub 5 anyTag (fun t x y => .ok (subIn t x y)) indirect a b dst s

/-- `SUB_16` (R174) -/
def execSub16 (indirect : BitVec 8) (a b dst : BitVec 16) (s : State) : Host.Outcome State Fault Refusal :=
  arithmetic .sub 8 anyTag (fun t x y => .ok (subIn t x y)) indirect a b dst s

/-- `MUL_8` (R175) -/
def execMul8 (indirect a b dst : BitVec 8) (s : State) : Host.Outcome State Fault Refusal :=
  arithmetic .mul 5 anyTag (fun t x y => .ok (mulIn t x y)) indirect a b dst s

/-- `MUL_16` (R176) -/
def execMul16 (indirect : BitVec 8) (a b dst : BitVec 16) (s : State) : Host.Outcome State Fault Refusal :=
  arithmetic .mul 8 anyTag (fun t x y => .ok (mulIn t x y)) indirect a b dst s

/-- `DIV_8` (R177) -/
def execDiv8 (indirect a b dst : BitVec 8) (s : State) : Host.Outcome State Fault Refusal :=
  arithmetic .div 5 rejectField (fun _ x y => divIn x y) indirect a b dst s

/-- `DIV_16` (R178) -/
def execDiv16 (indirect : BitVec 8) (a b dst : BitVec 16) (s : State) : Host.Outcome State Fault Refusal :=
  arithmetic .div 8 rejectField (fun _ x y => divIn x y) indirect a b dst s

/-- `MOD_8` (R179) -/
def execMod8 (indirect a b dst : BitVec 8) (s : State) : Host.Outcome State Fault Refusal :=
  arithmetic .mod 5 rejectField (fun _ x y => modIn x y) indirect a b dst s

/-- `MOD_16` (R180) -/
def execMod16 (indirect : BitVec 8) (a b dst : BitVec 16) (s : State) : Host.Outcome State Fault Refusal :=
  arithmetic .mod 8 rejectField (fun _ x y => modIn x y) indirect a b dst s

/-- `FDIV_8` (R181) -/
def execFdiv8 (indirect a b dst : BitVec 8) (s : State) : Host.Outcome State Fault Refusal :=
  arithmetic .fdiv 5 requireField (fun _ x y => fdivIn x y) indirect a b dst s

/-- `FDIV_16` (R182) -/
def execFdiv16 (indirect : BitVec 8) (a b dst : BitVec 16) (s : State) : Host.Outcome State Fault Refusal :=
  arithmetic .fdiv 8 requireField (fun _ x y => fdivIn x y) indirect a b dst s

end Sys2Proof.Machine
end

