-- ==== Sys2Proof/Machine/Control.lean ====
section
/-! DEFINITION. The instructions that set `pc` (44_control_flow.md R250 to R257). A target is not validated here: a
`pc` that is no instruction start faults at the next step (R250). -/

namespace Sys2Proof.Machine

/-- Phase 5 of an instruction without address operands (R147). -/
def chargeFlat (f : Family) (s : State) : Checked State :=
  charge (costL2 f 0 0) (costDA f 0 0) s

/-- `JUMP` (R251) -/
def execJump (target : BitVec 32) (s : State) : Host.Outcome State Fault Refusal :=
  atFrameBoundary s do
    let charged ← chargeFlat .jump s
    .ok (charged.setPc target)

/-- `JUMPI` (R252) -/
def execJumpi (indirect : BitVec 8) (cond : BitVec 16) (target : BitVec 32) (s : State) :
    Host.Outcome State Fault Refusal :=
  atFrameBoundary s do
    let pc ← slotAddr s.memory indirect 0 cond
    let c ← checkIntegral s.memory pc
    let charged ← chargeFor .jumpi indirect 1 0 s
    .ok (if c.value ≠ 0 then charged.setPc target else charged.advance 8)

/-- The push of `INTERNALCALL`, which faults on a full stack (R253). -/
def pushEntry (e : CallEntry) (st : List CallEntry) : Checked (List CallEntry) :=
  if Config.callStackCapacity ≤ st.length then .error (kindOnly .stackOverflow) else .ok (e :: st)

/-- `INTERNALCALL` (R253) -/
def execInternalCall (target : BitVec 32) (s : State) : Host.Outcome State Fault Refusal :=
  atFrameBoundary s do
    let charged ← chargeFlat .internalCall s
    let st ← pushEntry ⟨s.pc, s.pc + 5⟩ s.callStack
    .ok ((charged.setStack st).setPc target)

/-- The pop of `INTERNALRETURN`, which faults on an empty stack (R254). -/
def popEntry (st : List CallEntry) : Checked (CallEntry × List CallEntry) :=
  match st with
  | [] => .error (kindOnly .stackEmpty)
  | e :: rest => .ok (e, rest)

/-- `INTERNALRETURN` (R254) -/
def execInternalReturn (s : State) : Host.Outcome State Fault Refusal :=
  atFrameBoundary s do
    let charged ← chargeFlat .internalReturn s
    let (e, rest) ← popEntry s.callStack
    .ok ((charged.setStack rest).setPc e.returnPc)

end Sys2Proof.Machine
end

