-- ==== Sys2Proof/Machine/Conversion.lean ====
section
/-! DEFINITION. The three conversion instructions (42_conversion.md R200 to R204). -/

namespace Sys2Proof.Machine

/-- The template of `CAST` (R201): the immediate is checked before the source is read. -/
def castCell (width : Nat) (indirect : BitVec 8) (src dst : BitVec k) (dstTag : BitVec 8) (s : State) :
    Host.Outcome State Fault Refusal :=
  atFrameBoundary s do
    let ps ← slotAddr s.memory indirect 0 src
    let pd ← slotAddr s.memory indirect 1 dst
    let t ← checkTagImmediate dstTag
    let c ← readInit s.memory ps
    let charged ← chargeFor .cast indirect 2 0 s
    .ok ((charged.setCell pd ⟨t, c.value % domOf t⟩).advance width)

/-- `CAST_8` (R201) -/
def execCast8 (indirect src dst dstTag : BitVec 8) (s : State) : Host.Outcome State Fault Refusal :=
  castCell 5 indirect src dst dstTag s

/-- `CAST_16` (R202) -/
def execCast16 (indirect : BitVec 8) (src dst : BitVec 16) (dstTag : BitVec 8) (s : State) :
    Host.Outcome State Fault Refusal :=
  castCell 7 indirect src dst dstTag s

/-- The k digits of x in radix r, the most significant of them first; digit i is `(x div r^i) mod r` (R203). -/
def digitsBE (x r : Nat) : Nat → List Nat
  | 0 => []
  | k + 1 => x / r ^ k % r :: digitsBE x r k

/-- The check of a zero radix, the first of phase 6 (R203). -/
def checkRadix (r : Nat) : Checked Unit :=
  if r = 0 then .error (kindOnly .divisionByZero) else .ok ()

/-- `TORADIXBE` (R203) -/
def execToRadixBE (indirect : BitVec 8) (src radix numLimbs dst : BitVec 16) (s : State) :
    Host.Outcome State Fault Refusal :=
  atFrameBoundary s do
    let ps ← slotAddr s.memory indirect 0 src
    let pr ← slotAddr s.memory indirect 1 radix
    let pn ← slotAddr s.memory indirect 2 numLimbs
    let pd ← slotAddr s.memory indirect 3 dst
    let x ← checkTag s.memory .field ps
    let r ← checkTag s.memory .uint32 pr
    let k ← checkTag s.memory .uint32 pn
    let charged ← chargeFor .toRadixBE indirect 4 k s
    checkRadix r
    checkSlice pd k
    .ok ((charged.setCells pd ((digitsBE x r k).map fun v => ⟨.uint32, v⟩)).advance 10)

end Sys2Proof.Machine
end

