-- ==== Sys2Proof/Machine/HaltOps.lean ====
section
/-! DEFINITION. The instructions that end a frame (46_halt.md R310 to R312). -/

namespace Sys2Proof.Machine

/-- What `RETURN` and `REVERT` share (R310, R311): the output buffer, and the state after phase 5. -/
def haltOutput (f : Family) (indirect : BitVec 8) (ret size : BitVec 16) (s : State) :
    Checked (State × List FieldElem) := do
  let pr ← slotAddr s.memory indirect 0 ret
  let pz ← slotAddr s.memory indirect 1 size
  let n ← checkTag s.memory .uint32 pz
  let charged ← chargeFor f indirect 2 n s
  checkSlice pr n
  let values ← readSlice s.memory pr n
  .ok (charged, values.map fieldOfNat)

/-- `RETURN` (R310) -/
def execRet (indirect : BitVec 8) (ret size : BitVec 16) (s : State) : Host.Outcome State Fault Refusal :=
  atFrameBoundary s do
    let (charged, out) ← haltOutput .ret indirect ret size s
    .ok ((charged.halt false out).advance 6)

/-- `REVERT` (R311): it also signals `rollback` to the host (R274 d). -/
def execRevert (indirect : BitVec 8) (ret size : BitVec 16) (s : State) : Host.Outcome State Fault Refusal :=
  atFrameBoundary s do
    let (charged, out) ← haltOutput .revert indirect ret size s
    .ok (((charged.halt true out).setHost (rollback s.host)).advance 6)

end Sys2Proof.Machine
end

