-- ==== Sys2Proof/Machine/MemoryOps.lean ====
section
/-! DEFINITION. The instructions that initialise, copy and import cells (43_memory_ops.md R220 to R229). -/

namespace Sys2Proof.Machine

/-- The template of `SET` (R220): the immediate is reduced into the domain of the tag. -/
def setImmediate (width : Nat) (indirect : BitVec 8) (dst : BitVec k) (tag : BitVec 8) (value : Nat) (s : State) :
    Host.Outcome State Fault Refusal :=
  atFrameBoundary s do
    let pd ← slotAddr s.memory indirect 0 dst
    let t ← checkTagImmediate tag
    let charged ← chargeFor .set indirect 1 0 s
    .ok ((charged.setCell pd ⟨t, value % domOf t⟩).advance width)

/-- `SET_8` (R221) -/
def execSet8 (indirect dst tag value : BitVec 8) (s : State) : Host.Outcome State Fault Refusal :=
  setImmediate 5 indirect dst tag value.toNat s

/-- `SET_16` (R222) -/
def execSet16 (indirect : BitVec 8) (dst : BitVec 16) (tag : BitVec 8) (value : BitVec 16) (s : State) :
    Host.Outcome State Fault Refusal :=
  setImmediate 7 indirect dst tag value.toNat s

/-- `SET_32` (R223) -/
def execSet32 (indirect : BitVec 8) (dst : BitVec 16) (tag : BitVec 8) (value : BitVec 32) (s : State) :
    Host.Outcome State Fault Refusal :=
  setImmediate 9 indirect dst tag value.toNat s

/-- `SET_64` (R224) -/
def execSet64 (indirect : BitVec 8) (dst : BitVec 16) (tag : BitVec 8) (value : BitVec 64) (s : State) :
    Host.Outcome State Fault Refusal :=
  setImmediate 13 indirect dst tag value.toNat s

/-- `SET_128` (R225) -/
def execSet128 (indirect : BitVec 8) (dst : BitVec 16) (tag : BitVec 8) (value : BitVec 128) (s : State) :
    Host.Outcome State Fault Refusal :=
  setImmediate 21 indirect dst tag value.toNat s

/-- The template of `MOV` (R226): tag and value are both copied. -/
def moveCell (width : Nat) (indirect : BitVec 8) (src dst : BitVec k) (s : State) :
    Host.Outcome State Fault Refusal :=
  atFrameBoundary s do
    let ps ← slotAddr s.memory indirect 0 src
    let pd ← slotAddr s.memory indirect 1 dst
    let c ← readInit s.memory ps
    let charged ← chargeFor .mov indirect 2 0 s
    .ok ((charged.setCell pd c).advance width)

/-- `MOV_8` (R226) -/
def execMov8 (indirect src dst : BitVec 8) (s : State) : Host.Outcome State Fault Refusal :=
  moveCell 4 indirect src dst s

/-- `MOV_16` (R227) -/
def execMov16 (indirect : BitVec 8) (src dst : BitVec 16) (s : State) : Host.Outcome State Fault Refusal :=
  moveCell 6 indirect src dst s

/-- The calldata element of an index; beyond the end it reads as 0 (R228). -/
def calldataElem (calldata : List FieldElem) (i : Nat) : Nat :=
  match calldata[i]? with
  | some v => v.val
  | none => 0

/-- The k calldata elements from index o on, as cells (R228). -/
def calldataCells (calldata : List FieldElem) : Nat → Nat → List MemCell
  | _, 0 => []
  | o, k + 1 => ⟨.field, calldataElem calldata o⟩ :: calldataCells calldata (o + 1) k

/-- `CALLDATACOPY` (R228) -/
def execCalldataCopy (indirect : BitVec 8) (cdOffset copySize dst : BitVec 16) (s : State) :
    Host.Outcome State Fault Refusal :=
  atFrameBoundary s do
    let po ← slotAddr s.memory indirect 0 cdOffset
    let pk ← slotAddr s.memory indirect 1 copySize
    let pd ← slotAddr s.memory indirect 2 dst
    let o ← checkTag s.memory .uint32 po
    let k ← checkTag s.memory .uint32 pk
    let charged ← chargeFor .calldataCopy indirect 3 k s
    checkSlice pd k
    .ok ((charged.setCells pd (calldataCells s.calldata.val o k)).advance 8)

end Sys2Proof.Machine
end

