-- ==== Sys2Proof/Machine/Environ.lean ====
section
/-! DEFINITION. `GETENVVAR`, the storage instructions and the existence oracles (45_environment_host.md R280 to R292). -/

namespace Sys2Proof.Machine

/-- The cell that `GETENVVAR` writes for an index: the register with its tag (the table of R281); `none` for the
reserved indices 13 to 255. -/
def envCell (e : Environment) (var : BitVec 8) : Option MemCell :=
  match var.toNat with
  | 0 => some ⟨.field, e.address.val⟩
  | 1 => some ⟨.field, e.sender.val⟩
  | 2 => some ⟨.field, e.storageAddress.val⟩
  | 3 => some ⟨.uint32, e.functionSelector.toNat⟩
  | 4 => some ⟨.uint1, e.isStaticCall.toNat⟩
  | 5 => some ⟨.uint1, e.isDelegateCall.toNat⟩
  | 6 => some ⟨.field, e.chainId.val⟩
  | 7 => some ⟨.field, e.version.val⟩
  | 8 => some ⟨.uint32, e.blockNumber.toNat⟩
  | 9 => some ⟨.uint64, e.timestamp.toNat⟩
  | 10 => some ⟨.uint128, e.feePerL2Gas.toNat⟩
  | 11 => some ⟨.uint128, e.feePerDaGas.toNat⟩
  | 12 => some ⟨.field, e.transactionFee.val⟩
  | _ => none

/-- The check of a reserved environment index (R103 b, R343). -/
def checkEnvVar (e : Environment) (var : BitVec 8) : Checked MemCell :=
  match envCell e var with
  | none => .error (kindOnly .invalidImmediate)
  | some c => .ok c

/-- `GETENVVAR` (R280) -/
def execGetEnvVar (indirect : BitVec 8) (dst : BitVec 16) (var : BitVec 8) (s : State) :
    Host.Outcome State Fault Refusal :=
  atFrameBoundary s do
    let pd ← slotAddr s.memory indirect 0 dst
    let c ← checkEnvVar s.env var
    let charged ← chargeFor .getEnvVar indirect 1 0 s
    .ok ((charged.setCell pd c).advance 5)

/-- `SLOAD` (R285) -/
def execSload (indirect : BitVec 8) (slot dst : BitVec 16) (s : State) : Host.Outcome State Fault Refusal :=
  atFrameBoundary s do
    let pk ← slotAddr s.memory indirect 0 slot
    let pd ← slotAddr s.memory indirect 1 dst
    let k ← checkTag s.memory .field pk
    let charged ← chargeFor .sload indirect 2 0 s
    let (v, h) := storageRead s.env.storageAddress (fieldOfNat k) s.host
    .ok (((charged.setHost h).setCell pd ⟨.field, v.val⟩).advance 6)

/-- `SSTORE` (R286) -/
def execSstore (indirect : BitVec 8) (src slot : BitVec 16) (s : State) : Host.Outcome State Fault Refusal :=
  atFrameBoundary s do
    let pv ← slotAddr s.memory indirect 0 src
    let pk ← slotAddr s.memory indirect 1 slot
    let v ← checkTag s.memory .field pv
    let k ← checkTag s.memory .field pk
    let charged ← chargeFor .sstore indirect 2 0 s
    .ok ((charged.setHost (storageWrite s.env.storageAddress (fieldOfNat k) (fieldOfNat v) s.host)).advance 6)

/-- The `UINT1` cell of a truth value (R289, R300). -/
def boolCell (b : Bool) : MemCell := ⟨.uint1, if b then 1 else 0⟩

/-- The template of the three oracles (R289): `value_dst` is written second, so it wins where the two addresses are
equal (R385). -/
def membershipQuery (f : Family) (o : Oracle) (indirect : BitVec 8) (key existsDst valueDst : BitVec 16) (s : State) :
    Host.Outcome State Fault Refusal :=
  atFrameBoundary s do
    let pk ← slotAddr s.memory indirect 0 key
    let pe ← slotAddr s.memory indirect 1 existsDst
    let pv ← slotAddr s.memory indirect 2 valueDst
    let k ← checkTag s.memory .field pk
    let charged ← chargeFor f indirect 3 0 s
    let ((e, v), h) := askOracle o (fieldOfNat k) s.host
    .ok ((((charged.setHost h).setCell pe (boolCell e)).setCell pv ⟨.field, v.val⟩).advance 8)

/-- `NOTEHASHEXISTS` (R290) -/
def execNoteHashExists (indirect : BitVec 8) (key existsDst valueDst : BitVec 16) (s : State) :
    Host.Outcome State Fault Refusal :=
  membershipQuery .noteHashExists .noteHash indirect key existsDst valueDst s

/-- `NULLIFIEREXISTS` (R291) -/
def execNullifierExists (indirect : BitVec 8) (key existsDst valueDst : BitVec 16) (s : State) :
    Host.Outcome State Fault Refusal :=
  membershipQuery .nullifierExists .nullifier indirect key existsDst valueDst s

/-- `L1TOL2MSGEXISTS` (R292) -/
def execL1ToL2MsgExists (indirect : BitVec 8) (key existsDst valueDst : BitVec 16) (s : State) :
    Host.Outcome State Fault Refusal :=
  membershipQuery .l1ToL2MsgExists .l1ToL2Message indirect key existsDst valueDst s

end Sys2Proof.Machine
end

