-- ==== Sys2Proof/Machine/NestedCall.lean ====
section
/-! DEFINITION. `CALL` (45_environment_host.md R300 to R302). -/

namespace Sys2Proof.Machine

/-- What `CALL` has ready when all its checks have passed (R300): the request, the addresses it will write to, and the
state after phase 5. -/
structure CallRequest where
  contract : FieldElem
  args : List FieldElem
  l2Offer : Word64
  daOffer : Word64
  retAddr : Nat
  successAddr : Nat
  charged : State
  deriving DecidableEq, Repr

/-- The gas offered to the child: what was asked for, clamped to what is left (R300). -/
def clampOffer (asked : Nat) (left : Word64) : Word64 := BitVec.ofNat 64 (min asked left.toNat)

/-- Phases 3 to 5 of `CALL` and the checks of its phase 6 (R300). All of them precede the request. -/
def callRequest (indirect l2Gas daGas addr args argsSize ret success retSize : BitVec 16) (s : State) :
    Checked CallRequest := do
  let pl ← slotAddr s.memory indirect 0 l2Gas
  let pd ← slotAddr s.memory indirect 1 daGas
  let pc ← slotAddr s.memory indirect 2 addr
  let pa ← slotAddr s.memory indirect 3 args
  let pn ← slotAddr s.memory indirect 4 argsSize
  let pr ← slotAddr s.memory indirect 5 ret
  let po ← slotAddr s.memory indirect 6 success
  let gl ← checkTag s.memory .uint64 pl
  let gd ← checkTag s.memory .uint64 pd
  let c ← checkTag s.memory .field pc
  let n ← checkTag s.memory .uint32 pn
  let charged ← chargeFor .call indirect 7 n s
  checkSlice pa n
  checkSlice pr retSize.toNat
  let values ← readSlice s.memory pa n
  .ok
    { contract := fieldOfNat c
      args := values.map fieldOfNat
      l2Offer := clampOffer gl charged.l2Gas
      daOffer := clampOffer gd charged.daGas
      retAddr := pr
      successAddr := po
      charged := charged }

/-- The n cells that receive the child's output: cut, or padded with zeros (R300). -/
def outputCells : Nat → List FieldElem → List MemCell
  | 0, _ => []
  | n + 1, [] => ⟨.field, 0⟩ :: outputCells n []
  | n + 1, v :: vs => ⟨.field, v.val⟩ :: outputCells n vs

/-- The effect of `CALL` once the host has answered (R300): the child's gas is deducted, the output is written, then the
success bit, which wins where it overlaps the output. -/
def finishCall (q : CallRequest) (retSize : Nat) (a : CallAnswer) (h : HostSide) : State :=
  ((((q.charged.setGas (q.charged.l2Gas - a.l2Used) (q.charged.daGas - a.daUsed)).setHost h).setCells q.retAddr
    (outputCells retSize a.output)).setCell q.successAddr (boolCell a.success)).advance 19

/-- `CALL` (R300). An answer that breaks the host's precondition (R273 c) is refused, as U32 says. -/
def execCall (indirect l2Gas daGas addr args argsSize ret success retSize : BitVec 16) (s : State) :
    Host.Outcome State Fault Refusal :=
  match callRequest indirect l2Gas daGas addr args argsSize ret success retSize s with
  | .error e => .next (takeFault e s)
  | .ok q =>
    let (a, h) := nestedCall q.contract q.args q.l2Offer q.daOffer s.host
    if callAnswerOk a q.l2Offer q.daOffer then .next (finishCall q retSize.toNat a h)
    else .refused .hostAnswerOutOfContract

end Sys2Proof.Machine
end

