-- ==== Sys2Proof/Machine/Dispatch.lean ====
section
/-! DEFINITION. The dispatcher: a closed, exhaustive selection on the opcode, with no default arm (40_step_and_gas.md
R130). -/

namespace Sys2Proof.Machine

def exec (i : Instr) (s : State) : Host.Outcome State Fault Refusal :=
  match i with
  | .add8 indirect a b dst => Sys2Proof.Machine.execAdd8 indirect a b dst s
  | .add16 indirect a b dst => Sys2Proof.Machine.execAdd16 indirect a b dst s
  | .sub8 indirect a b dst => Sys2Proof.Machine.execSub8 indirect a b dst s
  | .sub16 indirect a b dst => Sys2Proof.Machine.execSub16 indirect a b dst s
  | .mul8 indirect a b dst => Sys2Proof.Machine.execMul8 indirect a b dst s
  | .mul16 indirect a b dst => Sys2Proof.Machine.execMul16 indirect a b dst s
  | .div8 indirect a b dst => Sys2Proof.Machine.execDiv8 indirect a b dst s
  | .div16 indirect a b dst => Sys2Proof.Machine.execDiv16 indirect a b dst s
  | .mod8 indirect a b dst => Sys2Proof.Machine.execMod8 indirect a b dst s
  | .mod16 indirect a b dst => Sys2Proof.Machine.execMod16 indirect a b dst s
  | .fdiv8 indirect a b dst => Sys2Proof.Machine.execFdiv8 indirect a b dst s
  | .fdiv16 indirect a b dst => Sys2Proof.Machine.execFdiv16 indirect a b dst s
  | .cast8 indirect src dst dstTag => Sys2Proof.Machine.execCast8 indirect src dst dstTag s
  | .cast16 indirect src dst dstTag => Sys2Proof.Machine.execCast16 indirect src dst dstTag s
  | .toRadixBE indirect src radix numLimbs dst => Sys2Proof.Machine.execToRadixBE indirect src radix numLimbs dst s
  | .set8 indirect dst tag value => Sys2Proof.Machine.execSet8 indirect dst tag value s
  | .set16 indirect dst tag value => Sys2Proof.Machine.execSet16 indirect dst tag value s
  | .set32 indirect dst tag value => Sys2Proof.Machine.execSet32 indirect dst tag value s
  | .set64 indirect dst tag value => Sys2Proof.Machine.execSet64 indirect dst tag value s
  | .set128 indirect dst tag value => Sys2Proof.Machine.execSet128 indirect dst tag value s
  | .mov8 indirect src dst => Sys2Proof.Machine.execMov8 indirect src dst s
  | .mov16 indirect src dst => Sys2Proof.Machine.execMov16 indirect src dst s
  | .calldataCopy indirect cdOffset copySize dst => Sys2Proof.Machine.execCalldataCopy indirect cdOffset copySize dst s
  | .jump target => Sys2Proof.Machine.execJump target s
  | .jumpi indirect cond target => Sys2Proof.Machine.execJumpi indirect cond target s
  | .internalCall target => Sys2Proof.Machine.execInternalCall target s
  | .internalReturn => Sys2Proof.Machine.execInternalReturn s
  | .getEnvVar indirect dst var => Sys2Proof.Machine.execGetEnvVar indirect dst var s
  | .sload indirect slot dst => Sys2Proof.Machine.execSload indirect slot dst s
  | .sstore indirect src slot => Sys2Proof.Machine.execSstore indirect src slot s
  | .noteHashExists indirect key existsDst valueDst => Sys2Proof.Machine.execNoteHashExists indirect key existsDst valueDst s
  | .nullifierExists indirect key existsDst valueDst => Sys2Proof.Machine.execNullifierExists indirect key existsDst valueDst s
  | .l1ToL2MsgExists indirect key existsDst valueDst => Sys2Proof.Machine.execL1ToL2MsgExists indirect key existsDst valueDst s
  | .call indirect l2Gas daGas addr args argsSize ret success retSize => Sys2Proof.Machine.execCall indirect l2Gas daGas addr args argsSize ret success retSize s
  | .ret indirect ret size => Sys2Proof.Machine.execRet indirect ret size s
  | .revert indirect ret size => Sys2Proof.Machine.execRevert indirect ret size s

end Sys2Proof.Machine
end

