-- ==== Sys2Proof/Machine/Step.lean ====
section
/-! DEFINITION. One step of the fetch-decode-execute loop (40_step_and_gas.md R131), and the placing of one instruction
where the next step fetches it. -/

namespace Sys2Proof.Machine

/-- One step (R131). No step is defined in a halted frame (R142); a `pc` that is no instruction start raises
`InvalidProgramCounter` (R132); otherwise the fetched instruction runs, and phases 3 to 7 are its meaning's. -/
def step (s : State) : Host.Outcome State Fault Refusal :=
  if s.halted then .fault .frameHalted
  else
    match fetch s with
    | none => .next (takeFault (kindOnly .invalidProgramCounter) s)
    | some i => exec i s

/-- The frame with the instruction of a table word as the one that its next step fetches: the store holds it at `pc`, as
the load port would leave it, and the frame is running. A word that the decoder refuses leaves an empty store. -/
def State.withFetchWord (s : State) (nbits w : Nat) : State :=
  { s with
    halted := false
    program :=
      match decodeTableWord nbits w with
      | none => []
      | some i => [(s.pc.toNat, i)] }

end Sys2Proof.Machine
end

