-- ==== Sys2Proof/Safety.lean ====
section
/-! DEFINITION. The terms in which claims about the machine are stated: the invariants of a frame (10_state.md R25, R28,
R29, 40_step_and_gas.md R146), what an instruction stores to, what it costs, and what a safe step is. -/

namespace Sys2Proof.Machine

/-! ## Invariants -/

/-- The payload fields of `err` are 0 for every kind but the two tag errors (10_state.md R26, 60_exceptions.md R331). -/
abbrev ErrReg.Canonical (e : ErrReg) : Prop :=
  e.kind ≠ .tagUninitialized → e.kind ≠ .tagMismatch → e = kindOnly e.kind

/-- The status of a frame is one of the four of R25: a running frame has no error and no output (R27, R38), and a faulted
one has no output and no gas left (R345). The two codec kinds never reach `err` (R331). -/
structure StatusOk (s : State) : Prop where
  running : s.halted = false → s.reverted = false ∧ s.err = noError ∧ s.output = []
  reverted : s.reverted = true → s.halted = true
  faulted : s.err.kind ≠ .none → s.reverted = true ∧ s.output = [] ∧ s.l2Gas = 0 ∧ s.daGas = 0
  payload : s.err.Canonical
  noCodecKind : s.err.kind ≠ .unknownOpcode ∧ s.err.kind ≠ .truncatedBytecode

/-- The internal call stack is within its capacity, and every entry returns to the instruction after its call
(10_state.md R28, 44_control_flow.md R253). -/
structure StackOk (s : State) : Prop where
  depth : s.callStack.length ≤ Config.callStackCapacity
  entries : ∀ e ∈ s.callStack, e.returnPc = e.callPc + 5

/-- Neither counter exceeds its allotment (46_halt.md R313). -/
structure GasOk (s : State) : Prop where
  l2 : s.l2Gas.toNat ≤ s.l2Allotment.toNat
  da : s.daGas.toNat ≤ s.daAllotment.toNat

/-- The memory is in its canonical form, every written cell within its tag's domain (10_state.md R29). -/
abbrev MemoryOk (s : State) : Prop := Memory.wf s.memory = true

/-- All the invariants of a frame. -/
structure FrameOk (s : State) : Prop where
  memory : MemoryOk s
  status : StatusOk s
  stack : StackOk s
  gas : GasOk s

/-! ## Steps -/

/-- The outcome with a function applied to its next state. -/
def mapNext (f : State → State) : Host.Outcome State Fault Refusal → Host.Outcome State Fault Refusal
  | .next t => .next (f t)
  | .fault r => .fault r
  | .refused r => .refused r

/-- A safe step: it answers a next state, and that state has no error (60_exceptions.md R330). -/
def SafeStep (s : State) : Prop := ∃ t, step s = .next t ∧ t.err.kind = .none

/-- The outcome of n steps, stopping at the first fault or refusal: the loop of R139. -/
def runFor (n : Nat) (s : State) : Host.Outcome State Fault Refusal := Host.Core.run Sys2Proof.core n s

/-! ## What an instruction costs -/

/-- The address operands of an instruction in wire order, each with the mode of its slot and its offset. The immediates own
no slot (20_memory.md R70, 40_step_and_gas.md R134). -/
def operands : Instr → List (AddrMode × Nat)
  | .add8 ind a b dst => [(slotMode ind 0, a.toNat), (slotMode ind 1, b.toNat), (slotMode ind 2, dst.toNat)]
  | .add16 ind a b dst => [(slotMode ind 0, a.toNat), (slotMode ind 1, b.toNat), (slotMode ind 2, dst.toNat)]
  | .sub8 ind a b dst => [(slotMode ind 0, a.toNat), (slotMode ind 1, b.toNat), (slotMode ind 2, dst.toNat)]
  | .sub16 ind a b dst => [(slotMode ind 0, a.toNat), (slotMode ind 1, b.toNat), (slotMode ind 2, dst.toNat)]
  | .mul8 ind a b dst => [(slotMode ind 0, a.toNat), (slotMode ind 1, b.toNat), (slotMode ind 2, dst.toNat)]
  | .mul16 ind a b dst => [(slotMode ind 0, a.toNat), (slotMode ind 1, b.toNat), (slotMode ind 2, dst.toNat)]
  | .div8 ind a b dst => [(slotMode ind 0, a.toNat), (slotMode ind 1, b.toNat), (slotMode ind 2, dst.toNat)]
  | .div16 ind a b dst => [(slotMode ind 0, a.toNat), (slotMode ind 1, b.toNat), (slotMode ind 2, dst.toNat)]
  | .mod8 ind a b dst => [(slotMode ind 0, a.toNat), (slotMode ind 1, b.toNat), (slotMode ind 2, dst.toNat)]
  | .mod16 ind a b dst => [(slotMode ind 0, a.toNat), (slotMode ind 1, b.toNat), (slotMode ind 2, dst.toNat)]
  | .fdiv8 ind a b dst => [(slotMode ind 0, a.toNat), (slotMode ind 1, b.toNat), (slotMode ind 2, dst.toNat)]
  | .fdiv16 ind a b dst => [(slotMode ind 0, a.toNat), (slotMode ind 1, b.toNat), (slotMode ind 2, dst.toNat)]
  | .cast8 ind src dst _ => [(slotMode ind 0, src.toNat), (slotMode ind 1, dst.toNat)]
  | .cast16 ind src dst _ => [(slotMode ind 0, src.toNat), (slotMode ind 1, dst.toNat)]
  | .toRadixBE ind src radix numLimbs dst =>
    [(slotMode ind 0, src.toNat), (slotMode ind 1, radix.toNat), (slotMode ind 2, numLimbs.toNat),
      (slotMode ind 3, dst.toNat)]
  | .set8 ind dst _ _ => [(slotMode ind 0, dst.toNat)]
  | .set16 ind dst _ _ => [(slotMode ind 0, dst.toNat)]
  | .set32 ind dst _ _ => [(slotMode ind 0, dst.toNat)]
  | .set64 ind dst _ _ => [(slotMode ind 0, dst.toNat)]
  | .set128 ind dst _ _ => [(slotMode ind 0, dst.toNat)]
  | .mov8 ind src dst => [(slotMode ind 0, src.toNat), (slotMode ind 1, dst.toNat)]
  | .mov16 ind src dst => [(slotMode ind 0, src.toNat), (slotMode ind 1, dst.toNat)]
  | .calldataCopy ind cdOffset copySize dst =>
    [(slotMode ind 0, cdOffset.toNat), (slotMode ind 1, copySize.toNat), (slotMode ind 2, dst.toNat)]
  | .jump _ => []
  | .jumpi ind cond _ => [(slotMode ind 0, cond.toNat)]
  | .internalCall _ => []
  | .internalReturn => []
  | .getEnvVar ind dst _ => [(slotMode ind 0, dst.toNat)]
  | .sload ind slot dst => [(slotMode ind 0, slot.toNat), (slotMode ind 1, dst.toNat)]
  | .sstore ind src slot => [(slotMode ind 0, src.toNat), (slotMode ind 1, slot.toNat)]
  | .noteHashExists ind key existsDst valueDst =>
    [(slotMode ind 0, key.toNat), (slotMode ind 1, existsDst.toNat), (slotMode ind 2, valueDst.toNat)]
  | .nullifierExists ind key existsDst valueDst =>
    [(slotMode ind 0, key.toNat), (slotMode ind 1, existsDst.toNat), (slotMode ind 2, valueDst.toNat)]
  | .l1ToL2MsgExists ind key existsDst valueDst =>
    [(slotMode ind 0, key.toNat), (slotMode ind 1, existsDst.toNat), (slotMode ind 2, valueDst.toNat)]
  | .call ind l2Gas daGas addr args argsSize ret success _ =>
    [(slotMode ind 0, l2Gas.toNat), (slotMode ind 1, daGas.toNat), (slotMode ind 2, addr.toNat),
      (slotMode ind 3, args.toNat), (slotMode ind 4, argsSize.toNat), (slotMode ind 5, ret.toNat),
      (slotMode ind 6, success.toNat)]
  | .ret ind ret size => [(slotMode ind 0, ret.toNat), (slotMode ind 1, size.toNat)]
  | .revert ind ret size => [(slotMode ind 0, ret.toNat), (slotMode ind 1, size.toNat)]

/-- The flags set in the slots an instruction has (40_step_and_gas.md R147, R148). -/
def instrFlags (i : Instr) : Nat := ((operands i).map fun o => modeFlags o.1).sum

/-- The charge of phase 5 is covered (40_step_and_gas.md R146). -/
structure Covered (s : State) (f : Family) (flags count : Nat) : Prop where
  l2 : costL2 f flags count ≤ s.l2Gas.toNat
  da : costDA f flags count ≤ s.daGas.toNat

/-- The state after phase 5 (40_step_and_gas.md R146). -/
def State.paid (s : State) (f : Family) (flags count : Nat) : State :=
  s.setGas (s.l2Gas - BitVec.ofNat 64 (costL2 f flags count)) (s.daGas - BitVec.ofNat 64 (costDA f flags count))

/-- The frame can pay for the instruction with this runtime count (40_step_and_gas.md R146, R147). -/
def Affords (s : State) (i : Instr) (count : Nat) : Prop := Covered s (familyOf i) (instrFlags i) count

/-- The state with the cost of the instruction deducted (40_step_and_gas.md R147). -/
def State.chargedFor (s : State) (i : Instr) (count : Nat) : State := s.paid (familyOf i) (instrFlags i) count

/-- The state that an instruction leaves which pays its cost, leaves this memory and advances `pc`: nothing else changes
(40_step_and_gas.md R136 to R138). -/
def State.completed (s : State) (i : Instr) (count : Nat) (m : Memory) : State :=
  ((s.chargedFor i count).setMemory m).advance (instrWidth i)

/-- The value of the cell that the operand of a slot names. -/
def slotValue (m : Memory) (descriptor : BitVec n) (i : Nat) (offset : BitVec k) : Checked Nat := do
  let p ← slotAddr m descriptor i offset
  .ok (readCell m p).value

/-- The runtime count of the dynamic cost: the value of the size operand of the five families that have one, and 0 for
every other (40_step_and_gas.md R151, R152). -/
def sizeCount (m : Memory) : Instr → Checked Nat
  | .toRadixBE ind _ _ numLimbs _ => slotValue m ind 2 numLimbs
  | .calldataCopy ind _ copySize _ => slotValue m ind 1 copySize
  | .call ind _ _ _ _ argsSize _ _ _ => slotValue m ind 4 argsSize
  | .ret ind _ size => slotValue m ind 1 size
  | .revert ind _ size => slotValue m ind 1 size
  | _ => .ok 0

/-! ## What phase 4 demands of the operand cells -/

/-- What the contract of an operand demands of the cell it resolves to (20_memory.md R58 to R61). -/
inductive CellNeed where
  /-- any initialised tag: `ReadInit` -/
  | initialised
  /-- one tag: `CheckTag` -/
  | tagged (t : Tag)
  /-- one of the six `UINT` tags: `CheckIntegral` -/
  | integral
  /-- the tag of the cell of another operand: the last check of `CheckSame` -/
  | sameTagAs (slot : Nat)
  deriving DecidableEq, Repr

/-- A check of phase 4: the slot of the operand, and the demand. -/
structure TagCheck where
  slot : Nat
  need : CellNeed
  deriving DecidableEq, Repr

/-- The checks of two operands of one tag (20_memory.md R60). -/
def sameTagChecks : List TagCheck := [⟨0, .initialised⟩, ⟨1, .initialised⟩, ⟨1, .sameTagAs 0⟩]

/-- The tag checks of phase 4, in the order in which each instruction's rule makes them (files 41 to 46). -/
def tagChecks : Instr → List TagCheck
  | .add8 _ _ _ _ => sameTagChecks
  | .add16 _ _ _ _ => sameTagChecks
  | .sub8 _ _ _ _ => sameTagChecks
  | .sub16 _ _ _ _ => sameTagChecks
  | .mul8 _ _ _ _ => sameTagChecks
  | .mul16 _ _ _ _ => sameTagChecks
  | .div8 _ _ _ _ => sameTagChecks ++ [⟨0, .integral⟩]
  | .div16 _ _ _ _ => sameTagChecks ++ [⟨0, .integral⟩]
  | .mod8 _ _ _ _ => sameTagChecks ++ [⟨0, .integral⟩]
  | .mod16 _ _ _ _ => sameTagChecks ++ [⟨0, .integral⟩]
  | .fdiv8 _ _ _ _ => sameTagChecks ++ [⟨0, .tagged .field⟩]
  | .fdiv16 _ _ _ _ => sameTagChecks ++ [⟨0, .tagged .field⟩]
  | .cast8 _ _ _ _ => [⟨0, .initialised⟩]
  | .cast16 _ _ _ _ => [⟨0, .initialised⟩]
  | .toRadixBE _ _ _ _ _ => [⟨0, .tagged .field⟩, ⟨1, .tagged .uint32⟩, ⟨2, .tagged .uint32⟩]
  | .set8 _ _ _ _ => []
  | .set16 _ _ _ _ => []
  | .set32 _ _ _ _ => []
  | .set64 _ _ _ _ => []
  | .set128 _ _ _ _ => []
  | .mov8 _ _ _ => [⟨0, .initialised⟩]
  | .mov16 _ _ _ => [⟨0, .initialised⟩]
  | .calldataCopy _ _ _ _ => [⟨0, .tagged .uint32⟩, ⟨1, .tagged .uint32⟩]
  | .jump _ => []
  | .jumpi _ _ _ => [⟨0, .integral⟩]
  | .internalCall _ => []
  | .internalReturn => []
  | .getEnvVar _ _ _ => []
  | .sload _ _ _ => [⟨0, .tagged .field⟩]
  | .sstore _ _ _ => [⟨0, .tagged .field⟩, ⟨1, .tagged .field⟩]
  | .noteHashExists _ _ _ _ => [⟨0, .tagged .field⟩]
  | .nullifierExists _ _ _ _ => [⟨0, .tagged .field⟩]
  | .l1ToL2MsgExists _ _ _ _ => [⟨0, .tagged .field⟩]
  | .call _ _ _ _ _ _ _ _ _ => [⟨0, .tagged .uint64⟩, ⟨1, .tagged .uint64⟩, ⟨2, .tagged .field⟩, ⟨4, .tagged .uint32⟩]
  | .ret _ _ _ => [⟨1, .tagged .uint32⟩]
  | .revert _ _ _ => [⟨1, .tagged .uint32⟩]

/-- The cell of the operand of a slot, whose resolved addresses these are. -/
def operandCell (m : Memory) (addrs : List Nat) (slot : Nat) : MemCell := readCell m (addrs.getD slot 0)

/-- The cell meets the demand (20_memory.md R58 to R61). -/
def TagCheck.Passes (m : Memory) (addrs : List Nat) (c : TagCheck) : Prop :=
  (operandCell m addrs c.slot).tag ≠ .uninitialized ∧
    match c.need with
    | .initialised => True
    | .tagged t => (operandCell m addrs c.slot).tag = t
    | .integral => (operandCell m addrs c.slot).tag ≠ .field
    | .sameTagAs other => (operandCell m addrs c.slot).tag = (operandCell m addrs other).tag

/-- The `expected` code that a demand reports (20_memory.md R58 to R62): the code of the tag it names, and 0 when it names
none. -/
def expectedCode (m : Memory) (addrs : List Nat) : CellNeed → BitVec 3
  | .initialised => 0
  | .tagged t => tagCode t
  | .integral => 0
  | .sameTagAs other => tagCode (operandCell m addrs other).tag

/-- The error of a check that fails (20_memory.md R62, 60_exceptions.md R334, R335): which of the two tag errors, the
address of the operand's cell, the tag found there and the tag expected. -/
def TagCheck.error (m : Memory) (addrs : List Nat) (c : TagCheck) : ErrReg :=
  if (operandCell m addrs c.slot).tag = .uninitialized then
    ⟨.tagUninitialized, BitVec.ofNat 32 (addrs.getD c.slot 0), 0, expectedCode m addrs c.need⟩
  else
    ⟨.tagMismatch, BitVec.ofNat 32 (addrs.getD c.slot 0), tagCode (operandCell m addrs c.slot).tag,
      expectedCode m addrs c.need⟩

/-- Phases 3 and 4 raise nothing (40_step_and_gas.md R134, R135): the operands resolve to these addresses, no immediate is
reserved and every tag check passes. -/
structure PhasesPass (s : State) (i : Instr) (addrs : List Nat) : Prop where
  resolved : resolveEach s.memory (operands i) = .ok addrs
  immediates : wellFormed i = true
  tags : ∀ c ∈ tagChecks i, c.Passes s.memory addrs

/-! ## What an instruction stores to -/

/-- A run of cells: its first address and its length. -/
structure CellRange where
  first : Nat
  count : Nat
  deriving DecidableEq, Repr

/-- The address is one of the cells of the range. -/
abbrev CellRange.Covers (r : CellRange) (a : Nat) : Prop := r.first ≤ a ∧ a < r.first + r.count

/-- The range of the one cell that the operand of a slot names. -/
def oneCell (m : Memory) (descriptor : BitVec n) (i : Nat) (offset : BitVec k) : Checked (List CellRange) := do
  let p ← slotAddr m descriptor i offset
  .ok [⟨p, 1⟩]

/-- The cells that an instruction stores to: the addresses that its destination operands resolve to, by the function its
meaning resolves them with, and the length of its destination slice (the rules of files 41 to 46). -/
def storedCells (m : Memory) : Instr → Checked (List CellRange)
  | .add8 ind _ _ dst => oneCell m ind 2 dst
  | .add16 ind _ _ dst => oneCell m ind 2 dst
  | .sub8 ind _ _ dst => oneCell m ind 2 dst
  | .sub16 ind _ _ dst => oneCell m ind 2 dst
  | .mul8 ind _ _ dst => oneCell m ind 2 dst
  | .mul16 ind _ _ dst => oneCell m ind 2 dst
  | .div8 ind _ _ dst => oneCell m ind 2 dst
  | .div16 ind _ _ dst => oneCell m ind 2 dst
  | .mod8 ind _ _ dst => oneCell m ind 2 dst
  | .mod16 ind _ _ dst => oneCell m ind 2 dst
  | .fdiv8 ind _ _ dst => oneCell m ind 2 dst
  | .fdiv16 ind _ _ dst => oneCell m ind 2 dst
  | .cast8 ind _ dst _ => oneCell m ind 1 dst
  | .cast16 ind _ dst _ => oneCell m ind 1 dst
  | .toRadixBE ind _ _ numLimbs dst => do
    let k ← slotValue m ind 2 numLimbs
    let p ← slotAddr m ind 3 dst
    .ok [⟨p, k⟩]
  | .set8 ind dst _ _ => oneCell m ind 0 dst
  | .set16 ind dst _ _ => oneCell m ind 0 dst
  | .set32 ind dst _ _ => oneCell m ind 0 dst
  | .set64 ind dst _ _ => oneCell m ind 0 dst
  | .set128 ind dst _ _ => oneCell m ind 0 dst
  | .mov8 ind _ dst => oneCell m ind 1 dst
  | .mov16 ind _ dst => oneCell m ind 1 dst
  | .calldataCopy ind _ copySize dst => do
    let k ← slotValue m ind 1 copySize
    let p ← slotAddr m ind 2 dst
    .ok [⟨p, k⟩]
  | .jump _ => .ok []
  | .jumpi _ _ _ => .ok []
  | .internalCall _ => .ok []
  | .internalReturn => .ok []
  | .getEnvVar ind dst _ => oneCell m ind 0 dst
  | .sload ind _ dst => oneCell m ind 1 dst
  | .sstore _ _ _ => .ok []
  | .noteHashExists ind _ existsDst valueDst => do
    let e ← slotAddr m ind 1 existsDst
    let v ← slotAddr m ind 2 valueDst
    .ok [⟨e, 1⟩, ⟨v, 1⟩]
  | .nullifierExists ind _ existsDst valueDst => do
    let e ← slotAddr m ind 1 existsDst
    let v ← slotAddr m ind 2 valueDst
    .ok [⟨e, 1⟩, ⟨v, 1⟩]
  | .l1ToL2MsgExists ind _ existsDst valueDst => do
    let e ← slotAddr m ind 1 existsDst
    let v ← slotAddr m ind 2 valueDst
    .ok [⟨e, 1⟩, ⟨v, 1⟩]
  | .call ind _ _ _ _ _ ret success retSize => do
    let p ← slotAddr m ind 5 ret
    let q ← slotAddr m ind 6 success
    .ok [⟨p, retSize.toNat⟩, ⟨q, 1⟩]
  | .ret _ _ _ => .ok []
  | .revert _ _ _ => .ok []

/-! ## Fields -/

/-- The instruction with the don't-care bits of its descriptor cleared: the bits from 2n on, for n address operands
(20_memory.md R76, 30_encoding.md R104). -/
def clearIgnored : Instr → Instr
  | .add8 ind a b dst => .add8 (ind &&& 0x3F) a b dst
  | .add16 ind a b dst => .add16 (ind &&& 0x3F) a b dst
  | .sub8 ind a b dst => .sub8 (ind &&& 0x3F) a b dst
  | .sub16 ind a b dst => .sub16 (ind &&& 0x3F) a b dst
  | .mul8 ind a b dst => .mul8 (ind &&& 0x3F) a b dst
  | .mul16 ind a b dst => .mul16 (ind &&& 0x3F) a b dst
  | .div8 ind a b dst => .div8 (ind &&& 0x3F) a b dst
  | .div16 ind a b dst => .div16 (ind &&& 0x3F) a b dst
  | .mod8 ind a b dst => .mod8 (ind &&& 0x3F) a b dst
  | .mod16 ind a b dst => .mod16 (ind &&& 0x3F) a b dst
  | .fdiv8 ind a b dst => .fdiv8 (ind &&& 0x3F) a b dst
  | .fdiv16 ind a b dst => .fdiv16 (ind &&& 0x3F) a b dst
  | .cast8 ind src dst dstTag => .cast8 (ind &&& 0x0F) src dst dstTag
  | .cast16 ind src dst dstTag => .cast16 (ind &&& 0x0F) src dst dstTag
  | .toRadixBE ind src radix numLimbs dst => .toRadixBE (ind &&& 0xFF) src radix numLimbs dst
  | .set8 ind dst tag value => .set8 (ind &&& 0x03) dst tag value
  | .set16 ind dst tag value => .set16 (ind &&& 0x03) dst tag value
  | .set32 ind dst tag value => .set32 (ind &&& 0x03) dst tag value
  | .set64 ind dst tag value => .set64 (ind &&& 0x03) dst tag value
  | .set128 ind dst tag value => .set128 (ind &&& 0x03) dst tag value
  | .mov8 ind src dst => .mov8 (ind &&& 0x0F) src dst
  | .mov16 ind src dst => .mov16 (ind &&& 0x0F) src dst
  | .calldataCopy ind cdOffset copySize dst => .calldataCopy (ind &&& 0x3F) cdOffset copySize dst
  | .jump target => .jump target
  | .jumpi ind cond target => .jumpi (ind &&& 0x03) cond target
  | .internalCall target => .internalCall target
  | .internalReturn => .internalReturn
  | .getEnvVar ind dst var => .getEnvVar (ind &&& 0x03) dst var
  | .sload ind slot dst => .sload (ind &&& 0x0F) slot dst
  | .sstore ind src slot => .sstore (ind &&& 0x0F) src slot
  | .noteHashExists ind key existsDst valueDst => .noteHashExists (ind &&& 0x3F) key existsDst valueDst
  | .nullifierExists ind key existsDst valueDst => .nullifierExists (ind &&& 0x3F) key existsDst valueDst
  | .l1ToL2MsgExists ind key existsDst valueDst => .l1ToL2MsgExists (ind &&& 0x3F) key existsDst valueDst
  | .call ind l2Gas daGas addr args argsSize ret success retSize => .call (ind &&& 0x3FFF) l2Gas daGas addr args argsSize ret success retSize
  | .ret ind ret size => .ret (ind &&& 0x0F) ret size
  | .revert ind ret size => .revert (ind &&& 0x0F) ret size

/-- The `tag` immediate of the instructions that have one (30_encoding.md R103 a). -/
def tagField : Instr → Option (BitVec 8)
  | .cast8 _ _ _ dstTag => some dstTag
  | .cast16 _ _ _ dstTag => some dstTag
  | .set8 _ _ tag _ => some tag
  | .set16 _ _ tag _ => some tag
  | .set32 _ _ tag _ => some tag
  | .set64 _ _ tag _ => some tag
  | .set128 _ _ tag _ => some tag
  | _ => none

/-- The `value` immediate of `SET`, as the unsigned integer it is (43_memory_ops.md R220). -/
def valueField : Instr → Nat
  | .set8 _ _ _ value => value.toNat
  | .set16 _ _ _ value => value.toNat
  | .set32 _ _ _ value => value.toNat
  | .set64 _ _ _ value => value.toNat
  | .set128 _ _ _ value => value.toNat
  | _ => 0

/-- The oracle that an existence instruction asks (45_environment_host.md R290 to R292). -/
def oracleOf : Instr → Option Oracle
  | .noteHashExists _ _ _ _ => some .noteHash
  | .nullifierExists _ _ _ _ => some .nullifier
  | .l1ToL2MsgExists _ _ _ _ => some .l1ToL2Message
  | _ => none

/-! ## Which instructions use what -/

/-- The instructions that set `pc` themselves, or may (40_step_and_gas.md R138). -/
def setsPc : Instr → Bool
  | .jump _ => true
  | .jumpi _ _ _ => true
  | .internalCall _ => true
  | .internalReturn => true
  | _ => false

/-- The instructions that use the internal call stack (10_state.md R28). -/
def usesStack : Instr → Bool
  | .internalCall _ => true
  | .internalReturn => true
  | _ => false

/-- The instructions that use a host port when they do not fault (45_environment_host.md R270). -/
def usesHost : Instr → Bool
  | .sload _ _ _ => true
  | .sstore _ _ _ => true
  | .noteHashExists _ _ _ _ => true
  | .nullifierExists _ _ _ _ => true
  | .l1ToL2MsgExists _ _ _ _ => true
  | .call _ _ _ _ _ _ _ _ _ => true
  | .revert _ _ _ => true
  | _ => false

/-- The instructions that end the frame when they do not fault (46_halt.md R312). -/
def endsFrame : Instr → Bool
  | .ret _ _ _ => true
  | .revert _ _ _ => true
  | _ => false

/-- The instruction is `CALL`. -/
def isCall : Instr → Bool
  | .call _ _ _ _ _ _ _ _ _ => true
  | _ => false

/-- The instructions that read an environment register (10_state.md R33). -/
def readsEnv : Instr → Bool
  | .getEnvVar _ _ _ => true
  | .sload _ _ _ => true
  | .sstore _ _ _ => true
  | _ => false

/-- The instruction is `CALLDATACOPY`, the only one that reads calldata (43_memory_ops.md R228). -/
def readsCalldata : Instr → Bool
  | .calldataCopy _ _ _ _ => true
  | _ => false

/-- The instruction may change what the frame's journal holds for a slot of its own storage: it is `CALL`, or an
`SSTORE` to that slot (45_environment_host.md R287 a). -/
def mayWriteSlot (s : State) (k : FieldElem) : Instr → Prop
  | .sstore ind _ slot => ∃ p, slotAddr s.memory ind 1 slot = .ok p ∧ fieldOfNat (readCell s.memory p).value = k
  | .call _ _ _ _ _ _ _ _ _ => True
  | _ => False

/-- `QuietRun k s t`: steps lead from s to t, and none of their instructions may write the slot k. -/
inductive QuietRun (k : FieldElem) : State → State → Prop where
  | done (s : State) : QuietRun k s s
  | more (s u t : State) (i : Instr) (running : s.halted = false) (fetched : fetch s = some i)
      (quiet : ¬ mayWriteSlot s k i) (stepped : step s = .next u) (rest : QuietRun k u t) : QuietRun k s t

end Sys2Proof.Machine
end

