-- ==== Sys2Proof/Certificates/Slice0/Obligations.lean ====
section
/-! DEFINITION. The statements for the provers, from the numbered rules of spec/. -/

open Sys2Proof Sys2Proof.Machine

/-! ## The codec (30_encoding.md) -/

/-- R98: decoding what `encode` wrote gives the instruction back and leaves what follows it, whatever its fields hold; and
encoding what was decoded gives the buffer back. -/
def Obligations.CodecRoundTrip : Prop :=
  (∀ (offset : Nat) (i : Instr) (rest : List Byte), decodeOne offset (encode i ++ rest) = .ok (i, rest)) ∧
  (∀ (bytes : List Byte) (prog : Program), decodeProgram bytes = .ok prog →
    encodeProgram (prog.map Prod.snd) = bytes)

/-- R90, R94, R97: a program that was encoded decodes to its instructions, each at the offset where the one before it
ends. -/
def Obligations.ProgramRoundTrip : Prop :=
  ∀ is : List Instr, decodeProgram (encodeProgram is) = .ok (layoutFrom 0 is)

/-- R95: an opcode byte 0x24 to 0xFF at an instruction start makes the load fail with `UnknownOpcode`, which reports its
offset and the byte and leaves no store; and the error is reported for no other byte. -/
def Obligations.UnknownOpcodeRejected : Prop :=
  (∀ (is : List Instr) (op : Byte) (rest : List Byte) (s : State) (buffer : Buffer), 0x24 ≤ op.toNat →
    buffer.val = encodeProgram is ++ op :: rest →
    s.load buffer = .error (.unknownOpcode (encodeProgram is).length op)) ∧
  (∀ (bytes : List Byte) (offset : Nat) (b : Byte), decodeProgram bytes = .error (.unknownOpcode offset b) →
    0x24 ≤ b.toNat ∧ bytes[offset]? = some b)

/-- R96: an instruction cut short makes the load fail with `TruncatedBytecode`, which reports the offset of the
instruction; a buffer that ends in the byte of `INTERNALRETURN` is not cut short. -/
def Obligations.TruncationRejected : Prop :=
  (∀ (is : List Instr) (i : Instr) (k : Nat) (s : State) (buffer : Buffer), 0 < k → k < instrWidth i →
    buffer.val = encodeProgram is ++ (encode i).take k →
    s.load buffer = .error (.truncatedBytecode (encodeProgram is).length)) ∧
  (∀ is : List Instr, decodeProgram (encodeProgram is ++ [0x1A]) = .ok (layoutFrom 0 (is ++ [.internalReturn])))

/-- R107, R22: offset 0 starts an instruction of every buffer that is not empty and loads; the empty buffer has no start;
at a start the buffer holds exactly the encoding of the instruction, which ends within the buffer, and so, in a buffer that
the host can present (R111), at 2^32 - 1 or before. -/
def Obligations.InstructionStarts : Prop :=
  ∀ (bytes : List Byte) (prog : Program), decodeProgram bytes = .ok prog →
    (bytes ≠ [] → (instrAt prog 0).isSome = true) ∧ (bytes = [] → prog = []) ∧
    (∀ (p : Nat) (i : Instr), instrAt prog p = some i →
      p + instrWidth i ≤ bytes.length ∧ (bytes.drop p).take (instrWidth i) = encode i ∧
      (bufferOk bytes = true → p + instrWidth i ≤ 2 ^ 32 - 1))

/-- The words of some instructions, written out from the encodings of R101, decode to the instructions (sanity). -/
def Obligations.EncodedWordsDecode : Prop :=
  decodeProgram [0x00, 0x1E, 0x05, 0x06, 0x07] = .ok [(0, .add8 0x1E 5 6 7)] ∧
  decodeProgram [0x0D, 0x00, 0x01, 0x00, 0x01, 0x01, 0x04] = .ok [(0, .cast16 0 0x100 0x101 4)] ∧
  decodeProgram [0x11, 0x00, 0x00, 0x05, 0x04, 0xDE, 0xAD, 0xBE, 0xEF] = .ok [(0, .set32 0 5 4 0xDEADBEEF)] ∧
  decodeProgram [0x18, 0x02, 0x00, 0x04, 0x00, 0x00, 0x00, 0x63] = .ok [(0, .jumpi 2 4 99)] ∧
  decodeProgram [0x1B, 0x00, 0x00, 0x07, 0x08] = .ok [(0, .getEnvVar 0 7 8)] ∧
  decodeProgram [0x1A, 0x22, 0x00, 0x00, 0x05, 0x00, 0x01] = .ok [(0, .internalReturn), (1, .ret 0 5 1)]

/-! ## The step (40_step_and_gas.md) -/

/-- R131, R133: in a running frame whose `pc` is at an instruction of the loaded bytes, a step is the execution of that
instruction, which moves `pc` itself; nothing stands around it. -/
def Obligations.StepRunsLoadedInstruction : Prop :=
  (∀ (s : State) (i : Instr), s.halted = false → fetch s = some i → step s = exec i s) ∧
  (∀ (s t : State) (before after : List Instr) (i : Instr) (buffer : Buffer),
    buffer.val = encodeProgram (before ++ i :: after) → s.load buffer = .ok t → t.halted = false →
    t.pc.toNat = (encodeProgram before).length → step t = exec i t)

/-- R132: a `pc` that is no instruction start (beyond the program, or inside an instruction) raises
`InvalidProgramCounter`, and nothing else happens but the conversion. -/
def Obligations.InvalidProgramCounter : Prop :=
  ∀ (s t : State) (is : List Instr) (buffer : Buffer), buffer.val = encodeProgram is → s.load buffer = .ok t →
    t.halted = false →
    (∀ (before after : List Instr) (i : Instr), is = before ++ i :: after →
      t.pc.toNat ≠ (encodeProgram before).length) →
    step t = .next { t with
      err := ⟨.invalidProgramCounter, 0, 0, 0⟩, output := [], l2Gas := 0, daGas := 0, reverted := true,
      halted := true, host := rollback t.host }

/-- R130, R139, R142: in a running frame a step always answers a next state, but for the `CALL` that has passed all its
checks and whose scripted answer breaks the host's precondition (R273 c): it reports more gas used than the request
offered, or too long an output. That answer the model refuses (log entry 4). In a halted frame no step is defined, and the
model answers a fault of its own name (log entry 5). -/
def Obligations.StepOutcomes : Prop :=
  (∀ s : State, s.halted = false → (∃ t, step s = .next t) ∨
    (step s = .refused .hostAnswerOutOfContract ∧
      ∃ (ind l2Gas daGas addr args argsSize ret success retSize : BitVec 16) (q : CallRequest) (r : ChildRun)
        (rest : List ChildRun),
        fetch s = some (.call ind l2Gas daGas addr args argsSize ret success retSize) ∧
        callRequest ind l2Gas daGas addr args argsSize ret success retSize s = .ok q ∧ s.host.childRuns = r :: rest ∧
        (q.l2Offer.toNat < r.answer.l2Used.toNat ∨ q.daOffer.toNat < r.answer.daUsed.toNat ∨
          2 ^ 32 - 1 < r.answer.output.length))) ∧
  (∀ s : State, s.halted = true → step s = .fault .frameHalted)

/-- R312: the three ways a frame ends, and no fourth. -/
def Obligations.ThreeWaysToHalt : Prop :=
  ∀ s t : State, StatusOk s → step s = .next t → t.halted = true →
    (engineState t = .haltedReturn ∧ ∃ ind ret size, fetch s = some (.ret ind ret size)) ∨
    (engineState t = .haltedRevert ∧ ∃ ind ret size, fetch s = some (.revert ind ret size)) ∨
    (engineState t = .faulted t.err.kind ∧ t.err.kind ≠ .none)

/-! ## Faults (60_exceptions.md) -/

/-- R345, R140: a step that raises leaves the state before it, with the error recorded (and zeros in the fields the kind
does not have), no output, no gas, both status bits set, and a rollback signalled to the host. -/
def Obligations.FaultIsConversion : Prop :=
  ∀ s t : State, step s = .next t → s.err = noError → t.err ≠ noError →
    t.err.kind ≠ .none ∧ t.err.Canonical ∧
    t = { s with
      err := t.err, output := [], l2Gas := 0, daGas := 0, reverted := true, halted := true,
      host := { s.host with journal := [], requests := s.host.requests ++ [.rollback] } }

/-- R134, R346: when the resolver's algorithm raises for an instruction's operands, the instruction raises that error,
whatever else is wrong with it. -/
def Obligations.ResolverFaultsFirst : Prop :=
  ∀ (s : State) (i : Instr) (e : ErrReg), resolveCached s.memory none (operands i) = .error e →
    exec i s = .next (takeFault e s)

/-- R343, R103: once the operands resolve, a reserved immediate raises `InvalidImmediate`, before any tag check and
whatever the gas; and no other instruction raises it. -/
def Obligations.ReservedImmediateFaults : Prop :=
  (∀ (s : State) (i : Instr) (addrs : List Nat), resolveEach s.memory (operands i) = .ok addrs →
    wellFormed i = false → exec i s = .next (takeFault ⟨.invalidImmediate, 0, 0, 0⟩ s)) ∧
  (∀ (s t : State) (i : Instr), s.err = noError → exec i s = .next t → t.err.kind = .invalidImmediate →
    wellFormed i = false)

/-- R60, R63, R346: operands of an arithmetic instruction that are not two cells of one tag raise the tag error of the
first check that fails, naming the offending address and the two tags, whatever the gas and the values; memory is as
before. -/
def Obligations.ArithmeticTagFaults : Prop :=
  ∀ (s : State) (i : Instr) (pa pb pd : Nat),
    familyOf i ∈ [Family.add, .sub, .mul, .div, .mod, .fdiv] → resolveEach s.memory (operands i) = .ok [pa, pb, pd] →
    ((readCell s.memory pa).tag = .uninitialized →
      exec i s = .next (takeFault ⟨.tagUninitialized, BitVec.ofNat 32 pa, 0, 0⟩ s)) ∧
    ((readCell s.memory pa).tag ≠ .uninitialized → (readCell s.memory pb).tag = .uninitialized →
      exec i s = .next (takeFault ⟨.tagUninitialized, BitVec.ofNat 32 pb, 0, 0⟩ s)) ∧
    ((readCell s.memory pa).tag ≠ .uninitialized → (readCell s.memory pb).tag ≠ .uninitialized →
      (readCell s.memory pa).tag ≠ (readCell s.memory pb).tag →
      exec i s = .next (takeFault
        ⟨.tagMismatch, BitVec.ofNat 32 pb, tagCode (readCell s.memory pb).tag, tagCode (readCell s.memory pa).tag⟩ s))

/-- R177, R179, R181, R346: `DIV` and `MOD` reject `FIELD` operands and `FDIV` every other tag, in preference to an empty
gas counter and to a zero divisor; with the right tag, missing gas is reported in preference to a zero divisor. -/
def Obligations.DivisionFaultPriority : Prop :=
  ∀ (s : State) (i : Instr) (pa pb pd x y : Nat) (t : Tag),
    familyOf i ∈ [Family.div, .mod, .fdiv] → resolveEach s.memory (operands i) = .ok [pa, pb, pd] →
    readCell s.memory pa = ⟨t, x⟩ → readCell s.memory pb = ⟨t, y⟩ → t ≠ .uninitialized →
    (familyOf i ≠ .fdiv → t = .field →
      exec i s = .next (takeFault ⟨.tagMismatch, BitVec.ofNat 32 pa, 7, 0⟩ s)) ∧
    (familyOf i = .fdiv → t ≠ .field →
      exec i s = .next (takeFault ⟨.tagMismatch, BitVec.ofNat 32 pa, tagCode t, 7⟩ s)) ∧
    ((familyOf i = .fdiv ↔ t = .field) →
      (s.l2Gas.toNat < costL2 (familyOf i) (instrFlags i) 0 →
        exec i s = .next (takeFault ⟨.outOfGasL2, 0, 0, 0⟩ s)) ∧
      (Affords s i 0 → y = 0 → exec i s = .next (takeFault ⟨.divisionByZero, 0, 0, 0⟩ s)))

/-- R135, R59, R62, R346: once the operands resolve and no immediate is reserved, the first tag check of phase 4 that fails,
in the order of the instruction's rule, raises its error, with the address of the operand's cell, the tag found and the tag
expected, whatever the gas and the values are. For all 36 instructions; `tagChecks` lists the checks of each. -/
def Obligations.OperandTagFaults : Prop :=
  ∀ (s : State) (i : Instr) (addrs : List Nat) (before after : List TagCheck) (c : TagCheck),
    resolveEach s.memory (operands i) = .ok addrs → wellFormed i = true → tagChecks i = before ++ c :: after →
    (∀ b ∈ before, b.Passes s.memory addrs) → ¬ c.Passes s.memory addrs →
    exec i s = .next (takeFault (c.error s.memory addrs) s)

/-! ## Gas (40_step_and_gas.md R145 to R156) -/

/-- R146: the L2 counter is compared first; a charge that fails gives only its error; one that is covered, even exactly,
leaves the differences in the two counters and changes nothing else. -/
def Obligations.ChargeRule : Prop :=
  ∀ (l2 da : Nat) (s : State),
    (s.l2Gas.toNat < l2 → charge l2 da s = .error ⟨.outOfGasL2, 0, 0, 0⟩) ∧
    (l2 ≤ s.l2Gas.toNat → s.daGas.toNat < da → charge l2 da s = .error ⟨.outOfGasDA, 0, 0, 0⟩) ∧
    (l2 ≤ s.l2Gas.toNat → da ≤ s.daGas.toNat → ∃ g h : Word64, g.toNat + l2 = s.l2Gas.toNat ∧
      h.toNat + da = s.daGas.toNat ∧ charge l2 da s = .ok { s with l2Gas := g, daGas := h })

/-- R153, R148, R150: base and addressing cost, and every dynamic cost of a `UINT32` count, fit 32 bits; no instruction
sets more than 14 flags; every base L2 cost is at least 3. -/
def Obligations.CostTableInvariant : Prop :=
  (∀ i : Instr, instrFlags i ≤ 14 ∧ costL2 (familyOf i) (instrFlags i) 0 ≤ 2 ^ 32 - 1 ∧
    costDA (familyOf i) (instrFlags i) 0 ≤ 2 ^ 32 - 1 ∧ 3 ≤ costL2 (familyOf i) (instrFlags i) 0) ∧
  (∀ (f : Family) (count : Nat), count ≤ 2 ^ 32 - 1 →
    dynL2 f * count ≤ 2 ^ 32 - 1 ∧ dynDA f * count ≤ 2 ^ 32 - 1)

/-- R147, R151, R156: an instruction that does not fault has paid exactly its cost, which counts the value of its size
operand; `CALL` may have paid more, for its child. -/
def Obligations.CompletedStepPaysCost : Prop :=
  ∀ (s t : State) (i : Instr), s.err = noError → exec i s = .next t → t.err = noError →
    ∃ count, sizeCount s.memory i = .ok count ∧ Affords s i count ∧
      (isCall i = false →
        t.l2Gas.toNat + costL2 (familyOf i) (instrFlags i) count = s.l2Gas.toNat ∧
        t.daGas.toNat + costDA (familyOf i) (instrFlags i) count = s.daGas.toNat) ∧
      (isCall i = true →
        t.l2Gas.toNat + costL2 (familyOf i) (instrFlags i) count ≤ s.l2Gas.toNat ∧
        t.daGas.toNat + costDA (familyOf i) (instrFlags i) count ≤ s.daGas.toNat)

/-- R342, R136: an out-of-gas error means that the cost was not covered, the L2 cost for one kind and, the L2 cost being
covered, the DA cost for the other; only `SSTORE` can report the second. Conversely (R146, R346), once phases 3 and 4 have
passed, an L2 cost that is not covered raises the first error, and else a DA cost that is not covered the second, whatever
the checks of phase 6 would find. -/
def Obligations.OutOfGasOnlyWhenShort : Prop :=
  (∀ (s : State) (i : Instr) (addrs : List Nat) (count : Nat), PhasesPass s i addrs → sizeCount s.memory i = .ok count →
    (s.l2Gas.toNat < costL2 (familyOf i) (instrFlags i) count →
      exec i s = .next (takeFault ⟨.outOfGasL2, 0, 0, 0⟩ s)) ∧
    (costL2 (familyOf i) (instrFlags i) count ≤ s.l2Gas.toNat →
      s.daGas.toNat < costDA (familyOf i) (instrFlags i) count →
      exec i s = .next (takeFault ⟨.outOfGasDA, 0, 0, 0⟩ s))) ∧
  (∀ (s t : State) (i : Instr), s.err = noError → exec i s = .next t →
    (t.err.kind = .outOfGasL2 → ∃ count, sizeCount s.memory i = .ok count ∧
      s.l2Gas.toNat < costL2 (familyOf i) (instrFlags i) count) ∧
    (t.err.kind = .outOfGasDA → familyOf i = .sstore ∧ ∃ count, sizeCount s.memory i = .ok count ∧
      costL2 (familyOf i) (instrFlags i) count ≤ s.l2Gas.toNat ∧
      s.daGas.toNat < costDA (familyOf i) (instrFlags i) count))

/-! ## Invariants -/

/-- R29, R50: every step keeps the memory canonical: addresses below 2^32, every cell within its tag's domain. -/
def Obligations.StepKeepsMemory : Prop :=
  ∀ s t : State, MemoryOk s → step s = .next t → MemoryOk t

/-- R25, R26, R314: every step leaves one of the four states of R25, with the error and output that state has. -/
def Obligations.StepKeepsStatus : Prop :=
  ∀ s t : State, StatusOk s → step s = .next t → StatusOk t

/-- R28, R253: the stack stays within its capacity, and each entry returns to the instruction after its call. -/
def Obligations.StepKeepsStack : Prop :=
  ∀ s t : State, StackOk s → step s = .next t → StackOk t

/-- R156, R24: no step increases a gas counter, so neither ever exceeds its allotment. -/
def Obligations.StepKeepsGas : Prop :=
  ∀ s t : State, step s = .next t →
    t.l2Gas.toNat ≤ s.l2Gas.toNat ∧ t.daGas.toNat ≤ s.daGas.toNat ∧ (GasOk s → GasOk t)

/-- R57: a cell once initialised stays initialised for the rest of the frame. -/
def Obligations.InitializedStaysInitialized : Prop :=
  ∀ (s t : State) (a : Nat), (readCell s.memory a).tag ≠ .uninitialized → step s = .next t →
    (readCell t.memory a).tag ≠ .uninitialized

/-- R20, R31, R33, R24: no step changes the instruction store, calldata, the environment or an allotment. -/
def Obligations.FrameInputsImmutable : Prop :=
  ∀ s t : State, step s = .next t →
    t.program = s.program ∧ t.calldata = s.calldata ∧ t.env = s.env ∧ t.l2Allotment = s.l2Allotment ∧
      t.daAllotment = s.daAllotment

/-- R38, R381: the start of a frame leaves every piece of state at its reset value, the store as loaded and the inputs as
supplied; the invariants hold there. -/
def Obligations.StartResetsFrame : Prop :=
  ∀ (s : State) (calldata : Calldata) (env : Environment) (l2 da : Word64) (answers : HostSide),
    let t := s.start calldata env l2 da answers
    t.pc = 0 ∧ t.halted = false ∧ t.reverted = false ∧ t.callStack = [] ∧ t.l2Gas = l2 ∧ t.daGas = da ∧
      (∀ a, readCell t.memory a = ⟨.uninitialized, 0⟩) ∧ t.err = ⟨.none, 0, 0, 0⟩ ∧ t.output = [] ∧
      t.program = s.program ∧ t.calldata = calldata ∧ t.env = env ∧ t.l2Allotment = l2 ∧ t.daAllotment = da ∧
      t.calldata.val.length ≤ 2 ^ 32 - 1 ∧ t.host.journal = [] ∧ FrameOk t

/-- The machine right after reset meets every invariant (R381). -/
def Obligations.ResetMeetsInvariants : Prop :=
  FrameOk State.reset ∧ State.reset.pc = 0 ∧ engineState State.reset = .running ∧ State.reset.callStack = [] ∧
    ∀ a, readCell State.reset.memory a = ⟨.uninitialized, 0⟩

/-! ## Termination (00_scope.md R19) -/

/-- R19, R139: n steps that leave a frame running have used at least 3n of its L2 gas; so every running frame halts within
one step more than a third of its L2 gas, or comes to a `CALL` whose scripted answer breaks the host's precondition, which
the model refuses (the model's choice, log entry 4). -/
def Obligations.EveryFrameHalts : Prop :=
  (∀ (n : Nat) (s t : State), runFor n s = .next t → t.halted = false →
    t.l2Gas.toNat + 3 * n ≤ s.l2Gas.toNat) ∧
  (∀ s : State, s.halted = false → ∃ n, n ≤ s.l2Gas.toNat / 3 + 1 ∧
    ((∃ t, runFor n s = .next t ∧ t.halted = true) ∨ runFor n s = .refused .hostAnswerOutOfContract))

/-! ## The resolver (20_memory.md R70 to R77) -/

/-- R74, R71, R35: the resolver's algorithm, which reads the base once and caches it, gives for every list of operands
the same addresses or the same error as resolving each operand afresh. -/
def Obligations.CachedBaseIsFresh : Prop :=
  ∀ (m : Memory) (l : List (AddrMode × Nat)), resolveCached m none l = resolveEach m l

/-- R77, R72, R59, R74: with no flag set the resolver is the identity. A RELATIVE step needs a `UINT32` cell at address 0,
and without one reports that address, what it found and the code 4 of `UINT32`; its sum is exact and fails with
`RelativeAddressOutOfRange` from 2^32 on. An INDIRECT step, after it, gives the value of the `UINT32` cell it points at,
which is not dereferenced again, and otherwise reports the pointer's address in the same way. Operands resolve in order: the
first fault is the fault, and each result stands at its operand's place. -/
def Obligations.ResolverProperties : Prop :=
  (∀ (m : Memory) (offsets : List Nat), resolveCached m none (offsets.map fun o => (.direct, o)) = .ok offsets) ∧
  (∀ (m : Memory) (offset : Nat),
    let dereferences (mode : AddrMode) (p : Nat) : Prop :=
      ((readCell m p).tag = .uninitialized →
        resolveCached m none [(mode, offset)] = .error ⟨.tagUninitialized, BitVec.ofNat 32 p, 0, 4⟩) ∧
      ((readCell m p).tag ≠ .uninitialized → (readCell m p).tag ≠ .uint32 →
        resolveCached m none [(mode, offset)] =
          .error ⟨.tagMismatch, BitVec.ofNat 32 p, tagCode (readCell m p).tag, 4⟩) ∧
      (∀ q, readCell m p = ⟨.uint32, q⟩ → resolveCached m none [(mode, offset)] = .ok [q])
    dereferences .indirect offset ∧
    (∀ mode ∈ [AddrMode.relative, .indirectRelative],
      ((readCell m 0).tag = .uninitialized →
        resolveCached m none [(mode, offset)] = .error ⟨.tagUninitialized, 0, 0, 4⟩) ∧
      ((readCell m 0).tag ≠ .uninitialized → (readCell m 0).tag ≠ .uint32 →
        resolveCached m none [(mode, offset)] = .error ⟨.tagMismatch, 0, tagCode (readCell m 0).tag, 4⟩) ∧
      (∀ base, readCell m 0 = ⟨.uint32, base⟩ → 2 ^ 32 ≤ offset + base →
        resolveCached m none [(mode, offset)] = .error ⟨.relativeAddressOutOfRange, 0, 0, 0⟩)) ∧
    (∀ base, readCell m 0 = ⟨.uint32, base⟩ → offset + base < 2 ^ 32 →
      resolveCached m none [(.relative, offset)] = .ok [offset + base] ∧
      dereferences .indirectRelative (offset + base))) ∧
  (∀ (m : Memory) (o : AddrMode × Nat) (l : List (AddrMode × Nat)),
    (∀ e, resolveCached m none [o] = .error e → resolveCached m none (o :: l) = .error e) ∧
    (∀ a, resolveCached m none [o] = .ok [a] →
      (∀ e, resolveCached m none l = .error e → resolveCached m none (o :: l) = .error e) ∧
      (∀ out, resolveCached m none l = .ok out → resolveCached m none (o :: l) = .ok (a :: out))))

/-- R70, R93: the two bits of a slot are its code, low bit INDIRECT, high bit RELATIVE, slot i at the bits from 2i on. -/
def Obligations.DescriptorCodes : Prop :=
  ∀ (w : Nat) (d : BitVec w) (i : Nat),
    (slotMode d i = .direct ↔ d.toNat / 4 ^ i % 4 = 0) ∧ (slotMode d i = .indirect ↔ d.toNat / 4 ^ i % 4 = 1) ∧
    (slotMode d i = .relative ↔ d.toNat / 4 ^ i % 4 = 2) ∧
    (slotMode d i = .indirectRelative ↔ d.toNat / 4 ^ i % 4 = 3)

/-- R104, R76: the don't-care bits of a descriptor change neither what an instruction does nor what it costs. -/
def Obligations.IgnoredBitsHaveNoEffect : Prop :=
  ∀ (i : Instr) (s : State), exec i s = exec (clearIgnored i) s

/-! ## Frames -/

/-- Every cell outside those an instruction stores to reads as before; an instruction that stores to none leaves every
cell as it was, and one whose destination does not resolve leaves all of memory (R137, R140). -/
def Obligations.MemoryFrame : Prop :=
  ∀ (s t : State) (i : Instr), exec i s = .next t →
    (∀ ranges, storedCells s.memory i = .ok ranges →
      ∀ a, (∀ r ∈ ranges, ¬ r.Covers a) → readCell t.memory a = readCell s.memory a) ∧
    (∀ e, storedCells s.memory i = .error e → t.memory = s.memory)

/-- An instruction that is not `INTERNALCALL` or `INTERNALRETURN` leaves the stack (R28); one that uses no port leaves the
host, unless it faults (R270); one that does not end the frame leaves the status and the output, unless it faults (R25,
R27). -/
def Obligations.OtherStateFrame : Prop :=
  ∀ (s t : State) (i : Instr), exec i s = .next t →
    (usesStack i = false → t.callStack = s.callStack) ∧
    (s.err = noError → t.err = noError → usesHost i = false → t.host = s.host) ∧
    (s.err = noError → t.err = noError → endsFrame i = false →
      t.halted = s.halted ∧ t.reverted = s.reverted ∧ t.output = s.output)

/-- R138: every instruction but the four that set `pc` advances it by its width, `RETURN` and `REVERT` among them; a
faulting one leaves it. -/
def Obligations.PcAdvance : Prop :=
  ∀ (s t : State) (i : Instr), s.err = noError → exec i s = .next t →
    (t.err ≠ noError → t.pc = s.pc) ∧
    (t.err = noError → setsPc i = false → t.pc = s.pc + BitVec.ofNat 32 (instrWidth i))

/-- R33, R228: only the instructions that read the environment depend on it, only `CALLDATACOPY` depends on calldata, and
no instruction depends on the allotments. -/
def Obligations.InputsReadOnlyByReaders : Prop :=
  ∀ (i : Instr) (s : State),
    (readsEnv i = false → ∀ e : Environment,
      exec i { s with env := e } = mapNext (fun t => { t with env := e }) (exec i s)) ∧
    (readsCalldata i = false → ∀ c : Calldata,
      exec i { s with calldata := c } = mapNext (fun t => { t with calldata := c }) (exec i s)) ∧
    (∀ l2 da : Word64, exec i { s with l2Allotment := l2, daAllotment := da } =
      mapNext (fun t => { t with l2Allotment := l2, daAllotment := da }) (exec i s))

/-! ## Results of the instructions: each completes, in the state its rule gives -/

/-- `ADD_8`, `ADD_16`, `SUB_8`, `SUB_16`, `MUL_8`, `MUL_16` complete on two cells of one tag, with the result of R183 and
R184 in the destination (R171 to R176). -/
def Obligations.AddSubMulComplete : Prop :=
  ∀ (s : State) (i : Instr) (pa pb pd x y : Nat) (t : Tag), MemoryOk s →
    resolveEach s.memory (operands i) = .ok [pa, pb, pd] → readCell s.memory pa = ⟨t, x⟩ →
    readCell s.memory pb = ⟨t, y⟩ → t ≠ .uninitialized → Affords s i 0 →
    (familyOf i = .add →
      exec i s = .next (s.completed i 0 (writeCell s.memory pd ⟨t, (x + y) % domOf t⟩))) ∧
    (familyOf i = .sub →
      exec i s = .next (s.completed i 0
        (writeCell s.memory pd ⟨t, if y ≤ x then x - y else x + domOf t - y⟩))) ∧
    (familyOf i = .mul →
      exec i s = .next (s.completed i 0 (writeCell s.memory pd ⟨t, x * y % domOf t⟩)))

/-- `DIV_8`, `DIV_16`, `MOD_8`, `MOD_16` complete on two cells of one integral tag and a divisor that is not 0, with the
floor quotient and the remainder (R177 to R180). -/
def Obligations.DivModComplete : Prop :=
  ∀ (s : State) (i : Instr) (pa pb pd x y : Nat) (t : Tag),
    resolveEach s.memory (operands i) = .ok [pa, pb, pd] → readCell s.memory pa = ⟨t, x⟩ →
    readCell s.memory pb = ⟨t, y⟩ → t ≠ .uninitialized → t ≠ .field → y ≠ 0 → Affords s i 0 →
    (familyOf i = .div → ∃ q r, x = q * y + r ∧ r < y ∧
      exec i s = .next (s.completed i 0 (writeCell s.memory pd ⟨t, q⟩))) ∧
    (familyOf i = .mod → ∃ q r, x = q * y + r ∧ r < y ∧
      exec i s = .next (s.completed i 0 (writeCell s.memory pd ⟨t, r⟩)))

/-- `FDIV_8`, `FDIV_16` complete on two `FIELD` cells and a denominator that is not 0; the result is the one element of
the field whose product with the denominator is the numerator (R181, R182). -/
def Obligations.FdivComplete : Prop :=
  ∀ (s : State) (i : Instr) (pa pb pd x y : Nat), MemoryOk s → familyOf i = .fdiv →
    resolveEach s.memory (operands i) = .ok [pa, pb, pd] → readCell s.memory pa = ⟨.field, x⟩ →
    readCell s.memory pb = ⟨.field, y⟩ → y ≠ 0 → Affords s i 0 →
    ∃ r, r < Config.fieldModulus ∧ r * y % Config.fieldModulus = x ∧
      (∀ q, q < Config.fieldModulus → q * y % Config.fieldModulus = x → q = r) ∧
      exec i s = .next (s.completed i 0 (writeCell s.memory pd ⟨.field, r⟩))

/-- `CAST_8`, `CAST_16` complete on an initialised source and a tag that is not reserved; the value is reduced into the
destination's domain, and kept when it fits (R201, R202). -/
def Obligations.CastComplete : Prop :=
  ∀ (s : State) (i : Instr) (ps pd : Nat) (code : BitVec 8) (t : Tag), familyOf i = .cast →
    resolveEach s.memory (operands i) = .ok [ps, pd] → tagField i = some code → tagOfImmediate code = some t →
    (readCell s.memory ps).tag ≠ .uninitialized → Affords s i 0 →
    exec i s = .next (s.completed i 0 (writeCell s.memory pd ⟨t, (readCell s.memory ps).value % domOf t⟩)) ∧
    ((readCell s.memory ps).value < domOf t →
      exec i s = .next (s.completed i 0 (writeCell s.memory pd ⟨t, (readCell s.memory ps).value⟩)))

/-- R204 b: a value cast to a tag whose domain is no smaller, and cast back to its own tag, is the value. -/
def Obligations.CastBackIsIdentity : Prop :=
  ∀ (s t u : State) (src mid dst : BitVec 16) (code back : BitVec 8) (wide narrow : Tag), MemoryOk s →
    s.err = noError → tagOfImmediate code = some wide → tagOfImmediate back = some narrow →
    (readCell s.memory src.toNat).tag = narrow → domOf narrow ≤ domOf wide →
    exec (.cast16 0 src mid code) s = .next t → exec (.cast16 0 mid dst back) t = .next u → u.err = noError →
    readCell u.memory dst.toNat = readCell s.memory src.toNat

/-- `TORADIXBE` completes with the k digits of the value, the most significant at the lowest address, when the radix is
not 0 and the slice fits; a zero radix faults before a slice that does not fit (R203). -/
def Obligations.ToRadixCompletes : Prop :=
  ∀ (s : State) (ind : BitVec 8) (src radix numLimbs dst : BitVec 16) (ps pr pn pd x r k : Nat),
    resolveEach s.memory (operands (.toRadixBE ind src radix numLimbs dst)) = .ok [ps, pr, pn, pd] →
    readCell s.memory ps = ⟨.field, x⟩ → readCell s.memory pr = ⟨.uint32, r⟩ → readCell s.memory pn = ⟨.uint32, k⟩ →
    Affords s (.toRadixBE ind src radix numLimbs dst) k →
    (r = 0 → exec (.toRadixBE ind src radix numLimbs dst) s = .next (takeFault ⟨.divisionByZero, 0, 0, 0⟩ s)) ∧
    (r ≠ 0 → 2 ^ 32 < pd + k →
      exec (.toRadixBE ind src radix numLimbs dst) s = .next (takeFault ⟨.sliceOutOfRange, 0, 0, 0⟩ s)) ∧
    (r ≠ 0 → pd + k ≤ 2 ^ 32 →
      exec (.toRadixBE ind src radix numLimbs dst) s = .next (s.completed (.toRadixBE ind src radix numLimbs dst) k
        (writeCells s.memory pd ((List.range k).map fun j => ⟨.uint32, x / r ^ (k - 1 - j) % r⟩))))

/-- R204 c: the digits that `TORADIXBE` leaves in memory, weighed by the powers of the radix, add up to the value modulo
the k-th power of the radix. -/
def Obligations.ToRadixDigitsAddUp : Prop :=
  ∀ (s t : State) (ind : BitVec 8) (src radix numLimbs dst : BitVec 16) (ps pr pn pd x r k : Nat),
    resolveEach s.memory (operands (.toRadixBE ind src radix numLimbs dst)) = .ok [ps, pr, pn, pd] →
    readCell s.memory ps = ⟨.field, x⟩ → readCell s.memory pr = ⟨.uint32, r⟩ → readCell s.memory pn = ⟨.uint32, k⟩ →
    s.err = noError → exec (.toRadixBE ind src radix numLimbs dst) s = .next t → t.err = noError →
    (∑ j ∈ Finset.range k, (readCell t.memory (pd + j)).value * r ^ (k - 1 - j)) = x % r ^ k

/-- `SET_8`, `SET_16`, `SET_32`, `SET_64`, `SET_128` complete with a tag that is not reserved: the immediate, reduced into
the tag's domain, is in the destination (R220 to R225). -/
def Obligations.SetCompletes : Prop :=
  ∀ (s : State) (i : Instr) (pd : Nat) (code : BitVec 8) (t : Tag), familyOf i = .set →
    resolveEach s.memory (operands i) = .ok [pd] → tagField i = some code → tagOfImmediate code = some t →
    Affords s i 0 → exec i s = .next (s.completed i 0 (writeCell s.memory pd ⟨t, valueField i % domOf t⟩))

/-- `MOV_8`, `MOV_16` complete on an initialised source: tag and value are both copied (R226, R227); an uninitialised
source faults. -/
def Obligations.MovCompletes : Prop :=
  ∀ (s : State) (i : Instr) (ps pd : Nat), familyOf i = .mov → resolveEach s.memory (operands i) = .ok [ps, pd] →
    ((readCell s.memory ps).tag ≠ .uninitialized → Affords s i 0 →
      exec i s = .next (s.completed i 0 (writeCell s.memory pd (readCell s.memory ps)))) ∧
    ((readCell s.memory ps).tag = .uninitialized →
      exec i s = .next (takeFault ⟨.tagUninitialized, BitVec.ofNat 32 ps, 0, 0⟩ s))

/-- `CALLDATACOPY` completes when the slice fits: the elements from the index on, and 0 beyond the end of calldata, are in
the slice (R228); a slice that does not fit faults. -/
def Obligations.CalldataCopyCompletes : Prop :=
  ∀ (s : State) (ind : BitVec 8) (cdOffset copySize dst : BitVec 16) (po pk pd o k : Nat),
    resolveEach s.memory (operands (.calldataCopy ind cdOffset copySize dst)) = .ok [po, pk, pd] →
    readCell s.memory po = ⟨.uint32, o⟩ → readCell s.memory pk = ⟨.uint32, k⟩ →
    Affords s (.calldataCopy ind cdOffset copySize dst) k →
    (pd + k ≤ 2 ^ 32 →
      exec (.calldataCopy ind cdOffset copySize dst) s = .next (s.completed (.calldataCopy ind cdOffset copySize dst) k
        (writeCells s.memory pd ((List.range k).map fun j =>
          ⟨.field, if h : o + j < s.calldata.val.length then s.calldata.val[o + j].val else 0⟩)))) ∧
    (2 ^ 32 < pd + k →
      exec (.calldataCopy ind cdOffset copySize dst) s = .next (takeFault ⟨.sliceOutOfRange, 0, 0, 0⟩ s))

/-- `JUMP` completes with `pc` at its target (R251). `JUMPI` completes on an integral condition: `pc` is at the target
when the value is not 0 and after the instruction when it is 0 (R252); a `FIELD` condition faults. -/
def Obligations.JumpsComplete : Prop :=
  (∀ (s : State) (target : BitVec 32), Affords s (.jump target) 0 →
    exec (.jump target) s = .next { s.chargedFor (.jump target) 0 with pc := target }) ∧
  (∀ (s : State) (ind : BitVec 8) (cond : BitVec 16) (target : BitVec 32) (p v : Nat) (t : Tag),
    resolveEach s.memory (operands (.jumpi ind cond target)) = .ok [p] → readCell s.memory p = ⟨t, v⟩ →
    t ≠ .uninitialized →
    (t ≠ .field → Affords s (.jumpi ind cond target) 0 → v ≠ 0 →
      exec (.jumpi ind cond target) s = .next { s.chargedFor (.jumpi ind cond target) 0 with pc := target }) ∧
    (t ≠ .field → Affords s (.jumpi ind cond target) 0 → v = 0 →
      exec (.jumpi ind cond target) s = .next { s.chargedFor (.jumpi ind cond target) 0 with pc := s.pc + 8 }) ∧
    (t = .field → exec (.jumpi ind cond target) s = .next (takeFault ⟨.tagMismatch, BitVec.ofNat 32 p, 7, 0⟩ s)))

/-- `INTERNALCALL` completes below the capacity of 1024: it pushes its own offset and the one after it, and goes to its
target (R253); at the capacity it faults with nothing pushed. `INTERNALRETURN` completes when the stack is not empty: it
pops the top entry and goes to its return offset (R254); on an empty stack it faults. -/
def Obligations.SubroutinesComplete : Prop :=
  ∀ s : State,
    (∀ target : BitVec 32, Affords s (.internalCall target) 0 → s.callStack.length < 1024 →
      exec (.internalCall target) s = .next { s.chargedFor (.internalCall target) 0 with
        callStack := ⟨s.pc, s.pc + 5⟩ :: s.callStack, pc := target }) ∧
    (∀ target : BitVec 32, Affords s (.internalCall target) 0 → 1024 ≤ s.callStack.length →
      exec (.internalCall target) s = .next (takeFault ⟨.stackOverflow, 0, 0, 0⟩ s)) ∧
    (∀ (e : CallEntry) (rest : List CallEntry), Affords s .internalReturn 0 → s.callStack = e :: rest →
      exec .internalReturn s = .next { s.chargedFor .internalReturn 0 with callStack := rest, pc := e.returnPc }) ∧
    (Affords s .internalReturn 0 → s.callStack = [] →
      exec .internalReturn s = .next (takeFault ⟨.stackEmpty, 0, 0, 0⟩ s))

/-- R255: `INTERNALCALL` to an `INTERNALRETURN` comes back after the call with the stack and all else as before, for 12 L2
gas. -/
def Obligations.CallReturnPairing : Prop :=
  ∀ (s : State) (target : BitVec 32), s.halted = false → fetch s = some (.internalCall target) →
    instrAt s.program target.toNat = some .internalReturn → s.callStack.length < 1024 → 12 ≤ s.l2Gas.toNat →
    runFor 2 s = .next { s with pc := s.pc + 5, l2Gas := s.l2Gas - 12 }

/-- `GETENVVAR` completes for every index 0 to 12: the destination holds the register of that index with its tag (R280,
and the table of R281); an index from 13 on faults. -/
def Obligations.GetEnvVarCompletes : Prop :=
  ∀ (s : State) (ind : BitVec 8) (dst : BitVec 16) (pd : Nat),
    (∀ var, resolveEach s.memory (operands (.getEnvVar ind dst var)) = .ok [pd]) →
    (∀ var, Affords s (.getEnvVar ind dst var) 0) →
    let puts (var : BitVec 8) (c : MemCell) : Prop := exec (.getEnvVar ind dst var) s =
      .next (s.completed (.getEnvVar ind dst var) 0 (writeCell s.memory pd c))
    puts 0 ⟨.field, s.env.address.val⟩ ∧ puts 1 ⟨.field, s.env.sender.val⟩ ∧
    puts 2 ⟨.field, s.env.storageAddress.val⟩ ∧ puts 3 ⟨.uint32, s.env.functionSelector.toNat⟩ ∧
    puts 4 ⟨.uint1, s.env.isStaticCall.toNat⟩ ∧ puts 5 ⟨.uint1, s.env.isDelegateCall.toNat⟩ ∧
    puts 6 ⟨.field, s.env.chainId.val⟩ ∧ puts 7 ⟨.field, s.env.version.val⟩ ∧
    puts 8 ⟨.uint32, s.env.blockNumber.toNat⟩ ∧ puts 9 ⟨.uint64, s.env.timestamp.toNat⟩ ∧
    puts 10 ⟨.uint128, s.env.feePerL2Gas.toNat⟩ ∧ puts 11 ⟨.uint128, s.env.feePerDaGas.toNat⟩ ∧
    puts 12 ⟨.field, s.env.transactionFee.val⟩ ∧
    ∀ var : BitVec 8, 13 ≤ var.toNat →
      exec (.getEnvVar ind dst var) s = .next (takeFault ⟨.invalidImmediate, 0, 0, 0⟩ s)

/-- `SLOAD` completes on a `FIELD` slot: one request under the frame's storage address; the destination holds the latest
write to the slot in the frame's journal, of the frame itself or of a successful child, if there is one, and otherwise the
host's answer (R285, R272, R273 a). The journal with its merged writes is the model's (log entry 6), and so is the source of
the answer: the next scripted one, or a free one when none is scripted (log entry 3). The host's side is given exactly. -/
def Obligations.SloadCompletes : Prop :=
  ∀ (s : State) (ind : BitVec 8) (slot dst : BitVec 16) (pk pd : Nat) (k : FieldElem),
    resolveEach s.memory (operands (.sload ind slot dst)) = .ok [pk, pd] →
    readCell s.memory pk = ⟨.field, k.val⟩ → Affords s (.sload ind slot dst) 0 →
    let asked := s.host.requests ++ [HostRequest.storageRead s.env.storageAddress k]
    let loads (v : FieldElem) (h : HostSide) : Prop :=
      exec (.sload ind slot dst) s = .next { s.completed (.sload ind slot dst) 0
        (writeCell s.memory pd ⟨.field, v.val⟩) with host := h }
    (∀ v, journalValue s.env.storageAddress k s.host.journal = some v → loads v { s.host with requests := asked }) ∧
    (journalValue s.env.storageAddress k s.host.journal = none →
      (∀ (v : FieldElem) (rest : List FieldElem), s.host.storageAnswers = v :: rest →
        loads v { s.host with requests := asked, storageAnswers := rest }) ∧
      (s.host.storageAnswers = [] →
        ∃ v, loads v { s.host with requests := asked, draws := s.host.draws + 1 }))

/-- R272, 20_memory.md R85: the journal gives a slot the value of the latest write to it, that of the frame itself or of a
child merged since; writes to other slots do not matter, and a slot that was never written has none. `SSTORE` completes on
two `FIELD` cells: one request, the value recorded in the frame's journal, memory as before; it alone pays DA gas (R286). -/
def Obligations.SstoreCompletes : Prop :=
  (∀ (contract slot : FieldElem) (w : StorageWrite) (j : List StorageWrite),
    journalValue contract slot [] = none ∧
    (w.contract = contract → w.slot = slot → journalValue contract slot (w :: j) = some w.value) ∧
    (w.contract ≠ contract ∨ w.slot ≠ slot → journalValue contract slot (w :: j) = journalValue contract slot j)) ∧
  ∀ (s : State) (ind : BitVec 8) (src slot : BitVec 16) (pv pk : Nat) (v k : FieldElem),
    resolveEach s.memory (operands (.sstore ind src slot)) = .ok [pv, pk] →
    readCell s.memory pv = ⟨.field, v.val⟩ → readCell s.memory pk = ⟨.field, k.val⟩ →
    Affords s (.sstore ind src slot) 0 →
    exec (.sstore ind src slot) s = .next { s.completed (.sstore ind src slot) 0 s.memory with
      host := { s.host with
        journal := ⟨s.env.storageAddress, k, v⟩ :: s.host.journal
        requests := s.host.requests ++ [.storageWrite s.env.storageAddress k v] } } ∧
    (s.completed (.sstore ind src slot) 0 s.memory).daGas.toNat + 32 = s.daGas.toNat

/-- R287 a: what `SSTORE` wrote to a slot, `SLOAD` of that slot yields, when no step between them is a `CALL` or an
`SSTORE` to that slot. -/
def Obligations.StoredValueIsLoaded : Prop :=
  ∀ (s t u w : State) (ind ind' : BitVec 8) (src slot slot' dst : BitVec 16) (pv pk pk' pd : Nat) (v k : FieldElem),
    s.err = noError → fetch s = some (.sstore ind src slot) → step s = .next t → t.err = noError →
    resolveEach s.memory (operands (.sstore ind src slot)) = .ok [pv, pk] →
    readCell s.memory pv = ⟨.field, v.val⟩ → readCell s.memory pk = ⟨.field, k.val⟩ →
    QuietRun k t u → fetch u = some (.sload ind' slot' dst) → step u = .next w → w.err = noError →
    resolveEach u.memory (operands (.sload ind' slot' dst)) = .ok [pk', pd] →
    readCell u.memory pk' = ⟨.field, k.val⟩ → readCell w.memory pd = ⟨.field, v.val⟩

/-- `NOTEHASHEXISTS`, `NULLIFIEREXISTS`, `L1TOL2MSGEXISTS` complete on a `FIELD` key: one request to the oracle of their
own; the answer's two parts are in the two destinations, the value written second (R289 to R292). The answer is the next one
scripted for that oracle, or a free one when none is (log entry 3). The host's side is given exactly. -/
def Obligations.OraclesComplete : Prop :=
  ∀ (s : State) (i : Instr) (o : Oracle) (pk pe pv : Nat) (k : FieldElem), oracleOf i = some o →
    resolveEach s.memory (operands i) = .ok [pk, pe, pv] → readCell s.memory pk = ⟨.field, k.val⟩ → Affords s i 0 →
    let asked := s.host.requests ++ [HostRequest.membership o k]
    let answers (a : Bool × FieldElem) (h : HostSide) : Prop :=
      exec i s = .next { s.completed i 0
        (writeCell (writeCell s.memory pe ⟨.uint1, if a.1 then 1 else 0⟩) pv ⟨.field, a.2.val⟩) with host := h }
    (∀ (a : Bool × FieldElem) (rest : List (Bool × FieldElem)),
      (o = .noteHash → s.host.noteHashAnswers = a :: rest →
        answers a { s.host with requests := asked, noteHashAnswers := rest }) ∧
      (o = .nullifier → s.host.nullifierAnswers = a :: rest →
        answers a { s.host with requests := asked, nullifierAnswers := rest }) ∧
      (o = .l1ToL2Message → s.host.l1ToL2Answers = a :: rest →
        answers a { s.host with requests := asked, l1ToL2Answers := rest })) ∧
    (oracleAnswers o s.host = [] → ∃ a, answers a { s.host with requests := asked, draws := s.host.draws + 1 })

/-- `CALL` completes when its four cells have their tags, its slices fit and its arguments are initialised: the request
offers what is asked for or what is left; the child's gas is deducted; its output, cut or padded with zeros, is in the
slice, and its success bit is written last (R300), for every answer that meets R273 c. The writes of a child that succeeded
are merged in front of the frame's journal, those of one that failed are not (R272, R274 d); that they are scripted with the
answer is the model's (log entry 6), and so is the reduction of an argument's raw value into the field, which changes
nothing in canonical memory (log entry 14). With no answer scripted `CALL` completes too, on an answer that is free
(log entry 3). -/
def Obligations.CallCompletes : Prop :=
  ∀ (s : State) (ind l2Gas daGas addr args argsSize ret success retSize : BitVec 16)
    (pl pd pc pa pn pr po gl gd n : Nat) (c : FieldElem) (r : ChildRun) (rest : List ChildRun),
    let a := r.answer
    let i := Instr.call ind l2Gas daGas addr args argsSize ret success retSize
    let l2Offer := min gl (s.l2Gas.toNat - costL2 .call (instrFlags i) n)
    let daOffer := min gd (s.daGas.toNat - costDA .call (instrFlags i) n)
    let values := (List.range n).map fun j => fieldOfNat (readCell s.memory (pa + j)).value
    let out := (List.range retSize.toNat).map fun j =>
      (⟨.field, if h : j < a.output.length then a.output[j].val else 0⟩ : MemCell)
    resolveEach s.memory (operands i) = .ok [pl, pd, pc, pa, pn, pr, po] →
    readCell s.memory pl = ⟨.uint64, gl⟩ → readCell s.memory pd = ⟨.uint64, gd⟩ →
    readCell s.memory pc = ⟨.field, c.val⟩ → readCell s.memory pn = ⟨.uint32, n⟩ → Affords s i n →
    pa + n ≤ 2 ^ 32 → pr + retSize.toNat ≤ 2 ^ 32 →
    (∀ j < n, (readCell s.memory (pa + j)).tag ≠ .uninitialized) →
    (s.host.childRuns = r :: rest → a.l2Used.toNat ≤ l2Offer → a.daUsed.toNat ≤ daOffer →
      a.output.length ≤ 2 ^ 32 - 1 →
      exec i s = .next { s.completed i n
          (writeCell (writeCells s.memory pr out) po ⟨.uint1, if a.success then 1 else 0⟩) with
        l2Gas := s.l2Gas - BitVec.ofNat 64 (costL2 .call (instrFlags i) n) - a.l2Used
        daGas := s.daGas - BitVec.ofNat 64 (costDA .call (instrFlags i) n) - a.daUsed
        host := { s.host with
          journal := if a.success then r.writes ++ s.host.journal else s.host.journal
          requests := s.host.requests ++ [.nestedCall c values (BitVec.ofNat 64 l2Offer) (BitVec.ofNat 64 daOffer)]
          childRuns := rest } }) ∧
    (s.host.childRuns = [] → ∃ t, exec i s = .next t ∧ t.err = s.err ∧ t.pc = s.pc + 19 ∧
      t.host.requests =
        s.host.requests ++ [.nestedCall c values (BitVec.ofNat 64 l2Offer) (BitVec.ofNat 64 daOffer)])

/-- R300, R346: the checks of `CALL` that follow its charge come in order: the argument slice, then the output slice, then
the lowest argument cell that is not initialised; none of them reaches the host. -/
def Obligations.CallChecksPrecedeRequest : Prop :=
  ∀ (s : State) (ind l2Gas daGas addr args argsSize ret success retSize : BitVec 16)
    (pl pd pc pa pn pr po gl gd c n : Nat),
    let i := Instr.call ind l2Gas daGas addr args argsSize ret success retSize
    resolveEach s.memory (operands i) = .ok [pl, pd, pc, pa, pn, pr, po] →
    readCell s.memory pl = ⟨.uint64, gl⟩ → readCell s.memory pd = ⟨.uint64, gd⟩ →
    readCell s.memory pc = ⟨.field, c⟩ → readCell s.memory pn = ⟨.uint32, n⟩ → Affords s i n →
    (2 ^ 32 < pa + n → exec i s = .next (takeFault ⟨.sliceOutOfRange, 0, 0, 0⟩ s)) ∧
    (pa + n ≤ 2 ^ 32 → 2 ^ 32 < pr + retSize.toNat → exec i s = .next (takeFault ⟨.sliceOutOfRange, 0, 0, 0⟩ s)) ∧
    (∀ j, pa + n ≤ 2 ^ 32 → pr + retSize.toNat ≤ 2 ^ 32 → j < n →
      (readCell s.memory (pa + j)).tag = .uninitialized →
      (∀ k < j, (readCell s.memory (pa + k)).tag ≠ .uninitialized) →
      exec i s = .next (takeFault ⟨.tagUninitialized, BitVec.ofNat 32 (pa + j), 0, 0⟩ s))

/-- `RETURN` and `REVERT` complete when their slice fits and is initialised: the output is the slice's values, the frame
is halted, reverted by `REVERT` alone, which also signals a rollback; memory is as before and the gas left is kept
(R310, R311). A slice that does not fit faults, and else the lowest cell of it that is not initialised does (R346). -/
def Obligations.ReturnRevertComplete : Prop :=
  ∀ (s : State) (ind : BitVec 8) (ret size : BitVec 16) (pr pz n : Nat),
    resolveEach s.memory (operands (.ret ind ret size)) = .ok [pr, pz] → readCell s.memory pz = ⟨.uint32, n⟩ →
    (∀ out : List FieldElem, pr + n ≤ 2 ^ 32 → (∀ j < n, (readCell s.memory (pr + j)).tag ≠ .uninitialized) →
      out.length = n → (∀ (j : Nat) (h : j < out.length), out[j].val = (readCell s.memory (pr + j)).value) →
      (Affords s (.ret ind ret size) n →
        exec (.ret ind ret size) s = .next { s.completed (.ret ind ret size) n s.memory with
          halted := true, reverted := false, output := out }) ∧
      (Affords s (.revert ind ret size) n →
        exec (.revert ind ret size) s = .next { s.completed (.revert ind ret size) n s.memory with
          halted := true, reverted := true, output := out,
          host := { s.host with journal := [], requests := s.host.requests ++ [.rollback] } })) ∧
    (∀ i ∈ [Instr.ret ind ret size, .revert ind ret size], Affords s i n →
      (2 ^ 32 < pr + n → exec i s = .next (takeFault ⟨.sliceOutOfRange, 0, 0, 0⟩ s)) ∧
      (∀ j, pr + n ≤ 2 ^ 32 → j < n → (readCell s.memory (pr + j)).tag = .uninitialized →
        (∀ k < j, (readCell s.memory (pr + k)).tag ≠ .uninitialized) →
        exec i s = .next (takeFault ⟨.tagUninitialized, BitVec.ofNat 32 (pr + j), 0, 0⟩ s)))

/-! ## The host (45_environment_host.md) and the result (46_halt.md) -/

/-- R271, R274 d: a step issues at most one request or signal, after all those before it; and it signals a rollback, with
the frame's journal emptied, exactly when it leaves the frame reverted. -/
def Obligations.OneRequestPerStep : Prop :=
  ∀ s t : State, StatusOk s → step s = .next t →
    (∃ l : List HostRequest, l.length ≤ 1 ∧ t.host.requests = s.host.requests ++ l) ∧
    (t.reverted = true → t.host.requests = s.host.requests ++ [.rollback] ∧ t.host.journal = []) ∧
    (t.reverted = false → t.host.requests ≠ s.host.requests ++ [.rollback])

/-- R313, R314: a frame without error succeeds exactly when it did not revert; one with an error has no output and has
used both allotments; the gas used and the gas left are the allotment. R39: the result is read of a halted frame only, and
`pc`, the stack and the memory are no part of it. -/
def Obligations.FrameResultLaws : Prop :=
  (∀ s : State, (frameResult s).isSome = s.halted) ∧
  (∀ (s : State) (pc : Word32) (stack : List CallEntry) (m : Memory),
    frameResult { s with pc := pc, callStack := stack, memory := m } = frameResult s) ∧
  ∀ (s : State) (r : FrameResult), StatusOk s → GasOk s → frameResult s = some r →
    r.success = !s.reverted ∧ r.output = s.output ∧ r.err = s.err ∧
    (r.success = true → r.err.kind = .none) ∧
    (r.err.kind ≠ .none → r.output = [] ∧ r.l2Used = s.l2Allotment ∧ r.daUsed = s.daAllotment) ∧
    r.l2Used.toNat + s.l2Gas.toNat = s.l2Allotment.toNat ∧ r.daUsed.toNat + s.daGas.toNat = s.daAllotment.toNat
end

