-- ==== Sys2Proof/Laws/State.lean ====
section
/-! SUPPORT. The field lemmas of the state: one for each field after each update, so that no proof unfolds an update. -/

namespace Sys2Proof.Machine

variable (s : State)

/-! ### `State.setPc` -/

@[simp] theorem State.setPc_pc (v : Word32) : (s.setPc v).pc = v := rfl
@[simp] theorem State.setPc_callStack (v : Word32) : (s.setPc v).callStack = s.callStack := rfl
@[simp] theorem State.setPc_l2Gas (v : Word32) : (s.setPc v).l2Gas = s.l2Gas := rfl
@[simp] theorem State.setPc_daGas (v : Word32) : (s.setPc v).daGas = s.daGas := rfl
@[simp] theorem State.setPc_memory (v : Word32) : (s.setPc v).memory = s.memory := rfl
@[simp] theorem State.setPc_halted (v : Word32) : (s.setPc v).halted = s.halted := rfl
@[simp] theorem State.setPc_reverted (v : Word32) : (s.setPc v).reverted = s.reverted := rfl
@[simp] theorem State.setPc_err (v : Word32) : (s.setPc v).err = s.err := rfl
@[simp] theorem State.setPc_output (v : Word32) : (s.setPc v).output = s.output := rfl
@[simp] theorem State.setPc_program (v : Word32) : (s.setPc v).program = s.program := rfl
@[simp] theorem State.setPc_calldata (v : Word32) : (s.setPc v).calldata = s.calldata := rfl
@[simp] theorem State.setPc_env (v : Word32) : (s.setPc v).env = s.env := rfl
@[simp] theorem State.setPc_l2Allotment (v : Word32) : (s.setPc v).l2Allotment = s.l2Allotment := rfl
@[simp] theorem State.setPc_daAllotment (v : Word32) : (s.setPc v).daAllotment = s.daAllotment := rfl
@[simp] theorem State.setPc_host (v : Word32) : (s.setPc v).host = s.host := rfl

/-! ### `State.advance` -/

@[simp] theorem State.advance_pc (w : Nat) : (s.advance w).pc = s.pc + BitVec.ofNat 32 w := rfl
@[simp] theorem State.advance_callStack (w : Nat) : (s.advance w).callStack = s.callStack := rfl
@[simp] theorem State.advance_l2Gas (w : Nat) : (s.advance w).l2Gas = s.l2Gas := rfl
@[simp] theorem State.advance_daGas (w : Nat) : (s.advance w).daGas = s.daGas := rfl
@[simp] theorem State.advance_memory (w : Nat) : (s.advance w).memory = s.memory := rfl
@[simp] theorem State.advance_halted (w : Nat) : (s.advance w).halted = s.halted := rfl
@[simp] theorem State.advance_reverted (w : Nat) : (s.advance w).reverted = s.reverted := rfl
@[simp] theorem State.advance_err (w : Nat) : (s.advance w).err = s.err := rfl
@[simp] theorem State.advance_output (w : Nat) : (s.advance w).output = s.output := rfl
@[simp] theorem State.advance_program (w : Nat) : (s.advance w).program = s.program := rfl
@[simp] theorem State.advance_calldata (w : Nat) : (s.advance w).calldata = s.calldata := rfl
@[simp] theorem State.advance_env (w : Nat) : (s.advance w).env = s.env := rfl
@[simp] theorem State.advance_l2Allotment (w : Nat) : (s.advance w).l2Allotment = s.l2Allotment := rfl
@[simp] theorem State.advance_daAllotment (w : Nat) : (s.advance w).daAllotment = s.daAllotment := rfl
@[simp] theorem State.advance_host (w : Nat) : (s.advance w).host = s.host := rfl

/-! ### `State.setMemory` -/

@[simp] theorem State.setMemory_pc (m : Memory) : (s.setMemory m).pc = s.pc := rfl
@[simp] theorem State.setMemory_callStack (m : Memory) : (s.setMemory m).callStack = s.callStack := rfl
@[simp] theorem State.setMemory_l2Gas (m : Memory) : (s.setMemory m).l2Gas = s.l2Gas := rfl
@[simp] theorem State.setMemory_daGas (m : Memory) : (s.setMemory m).daGas = s.daGas := rfl
@[simp] theorem State.setMemory_memory (m : Memory) : (s.setMemory m).memory = m := rfl
@[simp] theorem State.setMemory_halted (m : Memory) : (s.setMemory m).halted = s.halted := rfl
@[simp] theorem State.setMemory_reverted (m : Memory) : (s.setMemory m).reverted = s.reverted := rfl
@[simp] theorem State.setMemory_err (m : Memory) : (s.setMemory m).err = s.err := rfl
@[simp] theorem State.setMemory_output (m : Memory) : (s.setMemory m).output = s.output := rfl
@[simp] theorem State.setMemory_program (m : Memory) : (s.setMemory m).program = s.program := rfl
@[simp] theorem State.setMemory_calldata (m : Memory) : (s.setMemory m).calldata = s.calldata := rfl
@[simp] theorem State.setMemory_env (m : Memory) : (s.setMemory m).env = s.env := rfl
@[simp] theorem State.setMemory_l2Allotment (m : Memory) : (s.setMemory m).l2Allotment = s.l2Allotment := rfl
@[simp] theorem State.setMemory_daAllotment (m : Memory) : (s.setMemory m).daAllotment = s.daAllotment := rfl
@[simp] theorem State.setMemory_host (m : Memory) : (s.setMemory m).host = s.host := rfl

/-! ### `State.setCell` -/

@[simp] theorem State.setCell_pc (a : Nat) (c : MemCell) : (s.setCell a c).pc = s.pc := rfl
@[simp] theorem State.setCell_callStack (a : Nat) (c : MemCell) : (s.setCell a c).callStack = s.callStack := rfl
@[simp] theorem State.setCell_l2Gas (a : Nat) (c : MemCell) : (s.setCell a c).l2Gas = s.l2Gas := rfl
@[simp] theorem State.setCell_daGas (a : Nat) (c : MemCell) : (s.setCell a c).daGas = s.daGas := rfl
@[simp] theorem State.setCell_memory (a : Nat) (c : MemCell) : (s.setCell a c).memory = writeCell s.memory a c := rfl
@[simp] theorem State.setCell_halted (a : Nat) (c : MemCell) : (s.setCell a c).halted = s.halted := rfl
@[simp] theorem State.setCell_reverted (a : Nat) (c : MemCell) : (s.setCell a c).reverted = s.reverted := rfl
@[simp] theorem State.setCell_err (a : Nat) (c : MemCell) : (s.setCell a c).err = s.err := rfl
@[simp] theorem State.setCell_output (a : Nat) (c : MemCell) : (s.setCell a c).output = s.output := rfl
@[simp] theorem State.setCell_program (a : Nat) (c : MemCell) : (s.setCell a c).program = s.program := rfl
@[simp] theorem State.setCell_calldata (a : Nat) (c : MemCell) : (s.setCell a c).calldata = s.calldata := rfl
@[simp] theorem State.setCell_env (a : Nat) (c : MemCell) : (s.setCell a c).env = s.env := rfl
@[simp] theorem State.setCell_l2Allotment (a : Nat) (c : MemCell) : (s.setCell a c).l2Allotment = s.l2Allotment := rfl
@[simp] theorem State.setCell_daAllotment (a : Nat) (c : MemCell) : (s.setCell a c).daAllotment = s.daAllotment := rfl
@[simp] theorem State.setCell_host (a : Nat) (c : MemCell) : (s.setCell a c).host = s.host := rfl

/-! ### `State.setCells` -/

@[simp] theorem State.setCells_pc (a : Nat) (cs : List MemCell) : (s.setCells a cs).pc = s.pc := rfl
@[simp] theorem State.setCells_callStack (a : Nat) (cs : List MemCell) :
    (s.setCells a cs).callStack = s.callStack := rfl
@[simp] theorem State.setCells_l2Gas (a : Nat) (cs : List MemCell) : (s.setCells a cs).l2Gas = s.l2Gas := rfl
@[simp] theorem State.setCells_daGas (a : Nat) (cs : List MemCell) : (s.setCells a cs).daGas = s.daGas := rfl
@[simp] theorem State.setCells_memory (a : Nat) (cs : List MemCell) :
    (s.setCells a cs).memory = writeCells s.memory a cs := rfl
@[simp] theorem State.setCells_halted (a : Nat) (cs : List MemCell) : (s.setCells a cs).halted = s.halted := rfl
@[simp] theorem State.setCells_reverted (a : Nat) (cs : List MemCell) : (s.setCells a cs).reverted = s.reverted := rfl
@[simp] theorem State.setCells_err (a : Nat) (cs : List MemCell) : (s.setCells a cs).err = s.err := rfl
@[simp] theorem State.setCells_output (a : Nat) (cs : List MemCell) : (s.setCells a cs).output = s.output := rfl
@[simp] theorem State.setCells_program (a : Nat) (cs : List MemCell) : (s.setCells a cs).program = s.program := rfl
@[simp] theorem State.setCells_calldata (a : Nat) (cs : List MemCell) : (s.setCells a cs).calldata = s.calldata := rfl
@[simp] theorem State.setCells_env (a : Nat) (cs : List MemCell) : (s.setCells a cs).env = s.env := rfl
@[simp] theorem State.setCells_l2Allotment (a : Nat) (cs : List MemCell) :
    (s.setCells a cs).l2Allotment = s.l2Allotment := rfl
@[simp] theorem State.setCells_daAllotment (a : Nat) (cs : List MemCell) :
    (s.setCells a cs).daAllotment = s.daAllotment := rfl
@[simp] theorem State.setCells_host (a : Nat) (cs : List MemCell) : (s.setCells a cs).host = s.host := rfl

/-! ### `State.setGas` -/

@[simp] theorem State.setGas_pc (l2 da : Word64) : (s.setGas l2 da).pc = s.pc := rfl
@[simp] theorem State.setGas_callStack (l2 da : Word64) : (s.setGas l2 da).callStack = s.callStack := rfl
@[simp] theorem State.setGas_l2Gas (l2 da : Word64) : (s.setGas l2 da).l2Gas = l2 := rfl
@[simp] theorem State.setGas_daGas (l2 da : Word64) : (s.setGas l2 da).daGas = da := rfl
@[simp] theorem State.setGas_memory (l2 da : Word64) : (s.setGas l2 da).memory = s.memory := rfl
@[simp] theorem State.setGas_halted (l2 da : Word64) : (s.setGas l2 da).halted = s.halted := rfl
@[simp] theorem State.setGas_reverted (l2 da : Word64) : (s.setGas l2 da).reverted = s.reverted := rfl
@[simp] theorem State.setGas_err (l2 da : Word64) : (s.setGas l2 da).err = s.err := rfl
@[simp] theorem State.setGas_output (l2 da : Word64) : (s.setGas l2 da).output = s.output := rfl
@[simp] theorem State.setGas_program (l2 da : Word64) : (s.setGas l2 da).program = s.program := rfl
@[simp] theorem State.setGas_calldata (l2 da : Word64) : (s.setGas l2 da).calldata = s.calldata := rfl
@[simp] theorem State.setGas_env (l2 da : Word64) : (s.setGas l2 da).env = s.env := rfl
@[simp] theorem State.setGas_l2Allotment (l2 da : Word64) : (s.setGas l2 da).l2Allotment = s.l2Allotment := rfl
@[simp] theorem State.setGas_daAllotment (l2 da : Word64) : (s.setGas l2 da).daAllotment = s.daAllotment := rfl
@[simp] theorem State.setGas_host (l2 da : Word64) : (s.setGas l2 da).host = s.host := rfl

/-! ### `State.setStack` -/

@[simp] theorem State.setStack_pc (st : List CallEntry) : (s.setStack st).pc = s.pc := rfl
@[simp] theorem State.setStack_callStack (st : List CallEntry) : (s.setStack st).callStack = st := rfl
@[simp] theorem State.setStack_l2Gas (st : List CallEntry) : (s.setStack st).l2Gas = s.l2Gas := rfl
@[simp] theorem State.setStack_daGas (st : List CallEntry) : (s.setStack st).daGas = s.daGas := rfl
@[simp] theorem State.setStack_memory (st : List CallEntry) : (s.setStack st).memory = s.memory := rfl
@[simp] theorem State.setStack_halted (st : List CallEntry) : (s.setStack st).halted = s.halted := rfl
@[simp] theorem State.setStack_reverted (st : List CallEntry) : (s.setStack st).reverted = s.reverted := rfl
@[simp] theorem State.setStack_err (st : List CallEntry) : (s.setStack st).err = s.err := rfl
@[simp] theorem State.setStack_output (st : List CallEntry) : (s.setStack st).output = s.output := rfl
@[simp] theorem State.setStack_program (st : List CallEntry) : (s.setStack st).program = s.program := rfl
@[simp] theorem State.setStack_calldata (st : List CallEntry) : (s.setStack st).calldata = s.calldata := rfl
@[simp] theorem State.setStack_env (st : List CallEntry) : (s.setStack st).env = s.env := rfl
@[simp] theorem State.setStack_l2Allotment (st : List CallEntry) : (s.setStack st).l2Allotment = s.l2Allotment := rfl
@[simp] theorem State.setStack_daAllotment (st : List CallEntry) : (s.setStack st).daAllotment = s.daAllotment := rfl
@[simp] theorem State.setStack_host (st : List CallEntry) : (s.setStack st).host = s.host := rfl

/-! ### `State.setHost` -/

@[simp] theorem State.setHost_pc (h : HostSide) : (s.setHost h).pc = s.pc := rfl
@[simp] theorem State.setHost_callStack (h : HostSide) : (s.setHost h).callStack = s.callStack := rfl
@[simp] theorem State.setHost_l2Gas (h : HostSide) : (s.setHost h).l2Gas = s.l2Gas := rfl
@[simp] theorem State.setHost_daGas (h : HostSide) : (s.setHost h).daGas = s.daGas := rfl
@[simp] theorem State.setHost_memory (h : HostSide) : (s.setHost h).memory = s.memory := rfl
@[simp] theorem State.setHost_halted (h : HostSide) : (s.setHost h).halted = s.halted := rfl
@[simp] theorem State.setHost_reverted (h : HostSide) : (s.setHost h).reverted = s.reverted := rfl
@[simp] theorem State.setHost_err (h : HostSide) : (s.setHost h).err = s.err := rfl
@[simp] theorem State.setHost_output (h : HostSide) : (s.setHost h).output = s.output := rfl
@[simp] theorem State.setHost_program (h : HostSide) : (s.setHost h).program = s.program := rfl
@[simp] theorem State.setHost_calldata (h : HostSide) : (s.setHost h).calldata = s.calldata := rfl
@[simp] theorem State.setHost_env (h : HostSide) : (s.setHost h).env = s.env := rfl
@[simp] theorem State.setHost_l2Allotment (h : HostSide) : (s.setHost h).l2Allotment = s.l2Allotment := rfl
@[simp] theorem State.setHost_daAllotment (h : HostSide) : (s.setHost h).daAllotment = s.daAllotment := rfl
@[simp] theorem State.setHost_host (h : HostSide) : (s.setHost h).host = h := rfl

/-! ### `State.paid` -/

@[simp] theorem State.paid_pc (f : Family) (flags count : Nat) : (s.paid f flags count).pc = s.pc := rfl
@[simp] theorem State.paid_callStack (f : Family) (flags count : Nat) :
    (s.paid f flags count).callStack = s.callStack := rfl
@[simp] theorem State.paid_l2Gas (f : Family) (flags count : Nat) :
    (s.paid f flags count).l2Gas = s.l2Gas - BitVec.ofNat 64 (costL2 f flags count) := rfl
@[simp] theorem State.paid_daGas (f : Family) (flags count : Nat) :
    (s.paid f flags count).daGas = s.daGas - BitVec.ofNat 64 (costDA f flags count) := rfl
@[simp] theorem State.paid_memory (f : Family) (flags count : Nat) : (s.paid f flags count).memory = s.memory := rfl
@[simp] theorem State.paid_halted (f : Family) (flags count : Nat) : (s.paid f flags count).halted = s.halted := rfl
@[simp] theorem State.paid_reverted (f : Family) (flags count : Nat) :
    (s.paid f flags count).reverted = s.reverted := rfl
@[simp] theorem State.paid_err (f : Family) (flags count : Nat) : (s.paid f flags count).err = s.err := rfl
@[simp] theorem State.paid_output (f : Family) (flags count : Nat) : (s.paid f flags count).output = s.output := rfl
@[simp] theorem State.paid_program (f : Family) (flags count : Nat) : (s.paid f flags count).program = s.program := rfl
@[simp] theorem State.paid_calldata (f : Family) (flags count : Nat) :
    (s.paid f flags count).calldata = s.calldata := rfl
@[simp] theorem State.paid_env (f : Family) (flags count : Nat) : (s.paid f flags count).env = s.env := rfl
@[simp] theorem State.paid_l2Allotment (f : Family) (flags count : Nat) :
    (s.paid f flags count).l2Allotment = s.l2Allotment := rfl
@[simp] theorem State.paid_daAllotment (f : Family) (flags count : Nat) :
    (s.paid f flags count).daAllotment = s.daAllotment := rfl
@[simp] theorem State.paid_host (f : Family) (flags count : Nat) : (s.paid f flags count).host = s.host := rfl

/-! ### `State.chargedFor` -/

@[simp] theorem State.chargedFor_pc (i : Instr) (count : Nat) : (s.chargedFor i count).pc = s.pc := rfl
@[simp] theorem State.chargedFor_callStack (i : Instr) (count : Nat) :
    (s.chargedFor i count).callStack = s.callStack := rfl
@[simp] theorem State.chargedFor_l2Gas (i : Instr) (count : Nat) :
    (s.chargedFor i count).l2Gas = s.l2Gas - BitVec.ofNat 64 (costL2 (familyOf i) (instrFlags i) count) := rfl
@[simp] theorem State.chargedFor_daGas (i : Instr) (count : Nat) :
    (s.chargedFor i count).daGas = s.daGas - BitVec.ofNat 64 (costDA (familyOf i) (instrFlags i) count) := rfl
@[simp] theorem State.chargedFor_memory (i : Instr) (count : Nat) : (s.chargedFor i count).memory = s.memory := rfl
@[simp] theorem State.chargedFor_halted (i : Instr) (count : Nat) : (s.chargedFor i count).halted = s.halted := rfl
@[simp] theorem State.chargedFor_reverted (i : Instr) (count : Nat) :
    (s.chargedFor i count).reverted = s.reverted := rfl
@[simp] theorem State.chargedFor_err (i : Instr) (count : Nat) : (s.chargedFor i count).err = s.err := rfl
@[simp] theorem State.chargedFor_output (i : Instr) (count : Nat) : (s.chargedFor i count).output = s.output := rfl
@[simp] theorem State.chargedFor_program (i : Instr) (count : Nat) : (s.chargedFor i count).program = s.program := rfl
@[simp] theorem State.chargedFor_calldata (i : Instr) (count : Nat) :
    (s.chargedFor i count).calldata = s.calldata := rfl
@[simp] theorem State.chargedFor_env (i : Instr) (count : Nat) : (s.chargedFor i count).env = s.env := rfl
@[simp] theorem State.chargedFor_l2Allotment (i : Instr) (count : Nat) :
    (s.chargedFor i count).l2Allotment = s.l2Allotment := rfl
@[simp] theorem State.chargedFor_daAllotment (i : Instr) (count : Nat) :
    (s.chargedFor i count).daAllotment = s.daAllotment := rfl
@[simp] theorem State.chargedFor_host (i : Instr) (count : Nat) : (s.chargedFor i count).host = s.host := rfl

/-! ### `State.completed` -/

@[simp] theorem State.completed_pc (i : Instr) (count : Nat) (m : Memory) :
    (s.completed i count m).pc = s.pc + BitVec.ofNat 32 (instrWidth i) := rfl
@[simp] theorem State.completed_callStack (i : Instr) (count : Nat) (m : Memory) :
    (s.completed i count m).callStack = s.callStack := rfl
@[simp] theorem State.completed_l2Gas (i : Instr) (count : Nat) (m : Memory) :
    (s.completed i count m).l2Gas = s.l2Gas - BitVec.ofNat 64 (costL2 (familyOf i) (instrFlags i) count) := rfl
@[simp] theorem State.completed_daGas (i : Instr) (count : Nat) (m : Memory) :
    (s.completed i count m).daGas = s.daGas - BitVec.ofNat 64 (costDA (familyOf i) (instrFlags i) count) := rfl
@[simp] theorem State.completed_memory (i : Instr) (count : Nat) (m : Memory) :
    (s.completed i count m).memory = m := rfl
@[simp] theorem State.completed_halted (i : Instr) (count : Nat) (m : Memory) :
    (s.completed i count m).halted = s.halted := rfl
@[simp] theorem State.completed_reverted (i : Instr) (count : Nat) (m : Memory) :
    (s.completed i count m).reverted = s.reverted := rfl
@[simp] theorem State.completed_err (i : Instr) (count : Nat) (m : Memory) : (s.completed i count m).err = s.err := rfl
@[simp] theorem State.completed_output (i : Instr) (count : Nat) (m : Memory) :
    (s.completed i count m).output = s.output := rfl
@[simp] theorem State.completed_program (i : Instr) (count : Nat) (m : Memory) :
    (s.completed i count m).program = s.program := rfl
@[simp] theorem State.completed_calldata (i : Instr) (count : Nat) (m : Memory) :
    (s.completed i count m).calldata = s.calldata := rfl
@[simp] theorem State.completed_env (i : Instr) (count : Nat) (m : Memory) : (s.completed i count m).env = s.env := rfl
@[simp] theorem State.completed_l2Allotment (i : Instr) (count : Nat) (m : Memory) :
    (s.completed i count m).l2Allotment = s.l2Allotment := rfl
@[simp] theorem State.completed_daAllotment (i : Instr) (count : Nat) (m : Memory) :
    (s.completed i count m).daAllotment = s.daAllotment := rfl
@[simp] theorem State.completed_host (i : Instr) (count : Nat) (m : Memory) :
    (s.completed i count m).host = s.host := rfl

/-! ### `State.halt` -/

@[simp] theorem State.halt_pc (r : Bool) (o : List FieldElem) : (s.halt r o).pc = s.pc := rfl
@[simp] theorem State.halt_callStack (r : Bool) (o : List FieldElem) : (s.halt r o).callStack = s.callStack := rfl
@[simp] theorem State.halt_l2Gas (r : Bool) (o : List FieldElem) : (s.halt r o).l2Gas = s.l2Gas := rfl
@[simp] theorem State.halt_daGas (r : Bool) (o : List FieldElem) : (s.halt r o).daGas = s.daGas := rfl
@[simp] theorem State.halt_memory (r : Bool) (o : List FieldElem) : (s.halt r o).memory = s.memory := rfl
@[simp] theorem State.halt_halted (r : Bool) (o : List FieldElem) : (s.halt r o).halted = true := rfl
@[simp] theorem State.halt_reverted (r : Bool) (o : List FieldElem) : (s.halt r o).reverted = r := rfl
@[simp] theorem State.halt_err (r : Bool) (o : List FieldElem) : (s.halt r o).err = s.err := rfl
@[simp] theorem State.halt_output (r : Bool) (o : List FieldElem) : (s.halt r o).output = o := rfl
@[simp] theorem State.halt_program (r : Bool) (o : List FieldElem) : (s.halt r o).program = s.program := rfl
@[simp] theorem State.halt_calldata (r : Bool) (o : List FieldElem) : (s.halt r o).calldata = s.calldata := rfl
@[simp] theorem State.halt_env (r : Bool) (o : List FieldElem) : (s.halt r o).env = s.env := rfl
@[simp] theorem State.halt_l2Allotment (r : Bool) (o : List FieldElem) : (s.halt r o).l2Allotment = s.l2Allotment := rfl
@[simp] theorem State.halt_daAllotment (r : Bool) (o : List FieldElem) : (s.halt r o).daAllotment = s.daAllotment := rfl
@[simp] theorem State.halt_host (r : Bool) (o : List FieldElem) : (s.halt r o).host = s.host := rfl

/-! ### `takeFault` -/

@[simp] theorem takeFault_pc (e : ErrReg) : (takeFault e s).pc = s.pc := rfl
@[simp] theorem takeFault_callStack (e : ErrReg) : (takeFault e s).callStack = s.callStack := rfl
@[simp] theorem takeFault_l2Gas (e : ErrReg) : (takeFault e s).l2Gas = 0 := rfl
@[simp] theorem takeFault_daGas (e : ErrReg) : (takeFault e s).daGas = 0 := rfl
@[simp] theorem takeFault_memory (e : ErrReg) : (takeFault e s).memory = s.memory := rfl
@[simp] theorem takeFault_halted (e : ErrReg) : (takeFault e s).halted = true := rfl
@[simp] theorem takeFault_reverted (e : ErrReg) : (takeFault e s).reverted = true := rfl
@[simp] theorem takeFault_err (e : ErrReg) : (takeFault e s).err = e := rfl
@[simp] theorem takeFault_output (e : ErrReg) : (takeFault e s).output = [] := rfl
@[simp] theorem takeFault_program (e : ErrReg) : (takeFault e s).program = s.program := rfl
@[simp] theorem takeFault_calldata (e : ErrReg) : (takeFault e s).calldata = s.calldata := rfl
@[simp] theorem takeFault_env (e : ErrReg) : (takeFault e s).env = s.env := rfl
@[simp] theorem takeFault_l2Allotment (e : ErrReg) : (takeFault e s).l2Allotment = s.l2Allotment := rfl
@[simp] theorem takeFault_daAllotment (e : ErrReg) : (takeFault e s).daAllotment = s.daAllotment := rfl
@[simp] theorem takeFault_host (e : ErrReg) : (takeFault e s).host = rollback s.host := rfl

/-! ### The host's side -/

variable (h : HostSide)

@[simp] theorem issue_journal (r : HostRequest) : (issue r h).journal = h.journal := rfl
@[simp] theorem issue_requests (r : HostRequest) : (issue r h).requests = h.requests ++ [r] := rfl
@[simp] theorem issue_storageAnswers (r : HostRequest) : (issue r h).storageAnswers = h.storageAnswers := rfl
@[simp] theorem issue_noteHashAnswers (r : HostRequest) : (issue r h).noteHashAnswers = h.noteHashAnswers := rfl
@[simp] theorem issue_nullifierAnswers (r : HostRequest) : (issue r h).nullifierAnswers = h.nullifierAnswers := rfl
@[simp] theorem issue_l1ToL2Answers (r : HostRequest) : (issue r h).l1ToL2Answers = h.l1ToL2Answers := rfl
@[simp] theorem issue_childRuns (r : HostRequest) : (issue r h).childRuns = h.childRuns := rfl
@[simp] theorem issue_draws (r : HostRequest) : (issue r h).draws = h.draws := rfl

@[simp] theorem storageWrite_journal (c k v : FieldElem) : (storageWrite c k v h).journal = ⟨c, k, v⟩ :: h.journal := rfl
@[simp] theorem storageWrite_requests (c k v : FieldElem) : (storageWrite c k v h).requests = h.requests ++ [.storageWrite c k v] := rfl
@[simp] theorem storageWrite_storageAnswers (c k v : FieldElem) : (storageWrite c k v h).storageAnswers = h.storageAnswers := rfl
@[simp] theorem storageWrite_noteHashAnswers (c k v : FieldElem) : (storageWrite c k v h).noteHashAnswers = h.noteHashAnswers := rfl
@[simp] theorem storageWrite_nullifierAnswers (c k v : FieldElem) : (storageWrite c k v h).nullifierAnswers = h.nullifierAnswers := rfl
@[simp] theorem storageWrite_l1ToL2Answers (c k v : FieldElem) : (storageWrite c k v h).l1ToL2Answers = h.l1ToL2Answers := rfl
@[simp] theorem storageWrite_childRuns (c k v : FieldElem) : (storageWrite c k v h).childRuns = h.childRuns := rfl
@[simp] theorem storageWrite_draws (c k v : FieldElem) : (storageWrite c k v h).draws = h.draws := rfl

@[simp] theorem rollback_journal : (rollback h).journal = [] := rfl
@[simp] theorem rollback_requests : (rollback h).requests = h.requests ++ [.rollback] := rfl
@[simp] theorem rollback_storageAnswers : (rollback h).storageAnswers = h.storageAnswers := rfl
@[simp] theorem rollback_noteHashAnswers : (rollback h).noteHashAnswers = h.noteHashAnswers := rfl
@[simp] theorem rollback_nullifierAnswers : (rollback h).nullifierAnswers = h.nullifierAnswers := rfl
@[simp] theorem rollback_l1ToL2Answers : (rollback h).l1ToL2Answers = h.l1ToL2Answers := rfl
@[simp] theorem rollback_childRuns : (rollback h).childRuns = h.childRuns := rfl
@[simp] theorem rollback_draws : (rollback h).draws = h.draws := rfl

end Sys2Proof.Machine
end

