-- ==== Sys2Proof/Laws/Checked.lean ====
section
/-! SUPPORT. What each checked operation can answer, said once: the value it gives and what that shows (`_ok`), or the
error it raises and what that shows (`_error`). -/

namespace Sys2Proof.Machine

variable {α β : Type} {m : Memory} {e : ErrReg} {a b n : Nat}

/-! ### Sequencing -/

theorem bind_ok {x : Checked α} {f : α → Checked β} {y : β} :
    (x >>= f) = .ok y ↔ ∃ v, x = .ok v ∧ f v = .ok y := by
  cases x <;> simp [bind, Except.bind]

theorem bind_error {x : Checked α} {f : α → Checked β} :
    (x >>= f) = .error e ↔ x = .error e ∨ ∃ v, x = .ok v ∧ f v = .error e := by
  cases x <;> simp [bind, Except.bind]

@[simp] theorem ok_bind (v : α) (f : α → Checked β) : ((Except.ok v : Checked α) >>= f) = f v := rfl

@[simp] theorem error_bind (f : α → Checked β) : ((Except.error e : Checked α) >>= f) = .error e := rfl

/-! ### The frame boundary (60_exceptions.md R345) -/

theorem atFrameBoundary_next {s t : State} {r : Checked State} :
    atFrameBoundary s r = .next t ↔ r = .ok t ∨ ∃ e, r = .error e ∧ t = takeFault e s := by
  cases r <;> simp [atFrameBoundary, eq_comm]

@[simp] theorem atFrameBoundary_ok (s t : State) : atFrameBoundary s (.ok t) = .next t := rfl

@[simp] theorem atFrameBoundary_error (s : State) (e : ErrReg) :
    atFrameBoundary s (.error e) = .next (takeFault e s) := rfl

/-! ### The payload of a raise -/

theorem canonical_kindOnly (k : ErrKind) : (kindOnly k).Canonical := fun _ _ => rfl

theorem canonical_tagError_uninitialized (a : Nat) (f : Tag) (x : BitVec 3) :
    (tagError .tagUninitialized a f x).Canonical := fun h => absurd rfl h

theorem canonical_tagError_mismatch (a : Nat) (f : Tag) (x : BitVec 3) :
    (tagError .tagMismatch a f x).Canonical := fun _ h => absurd rfl h

/-! ### Checked reads (20_memory.md R58 to R65) -/

theorem readInit_ok {c : MemCell} : readInit m a = .ok c ↔ readCell m a = c ∧ c.tag ≠ .uninitialized := by
  unfold readInit
  by_cases h : (readCell m a).tag = .uninitialized
  · simp only [h, if_true]
    exact ⟨fun h2 => (by cases h2), fun ⟨h2, h3⟩ => absurd (h2 ▸ h) h3⟩
  · simp only [h, if_false, Except.ok.injEq]
    exact ⟨fun h2 => ⟨h2, h2 ▸ h⟩, fun h2 => h2.1⟩

theorem readInit_error : readInit m a = .error e ↔
    (readCell m a).tag = .uninitialized ∧ e = tagError .tagUninitialized a .uninitialized 0 := by
  unfold readInit
  by_cases h : (readCell m a).tag = .uninitialized <;> simp [h, eq_comm]

theorem checkTag_ok {t : Tag} {v : Nat} (ht : t ≠ .uninitialized) :
    checkTag m t a = .ok v ↔ readCell m a = ⟨t, v⟩ := by
  unfold checkTag
  obtain ⟨tag, val⟩ := readCell m a
  by_cases h : tag = .uninitialized
  · subst h; simp [Ne.symm ht]
  · by_cases h2 : tag = t <;> simp_all

theorem checkTag_error {t : Tag} : checkTag m t a = .error e ↔
    ((readCell m a).tag = .uninitialized ∧ e = tagError .tagUninitialized a .uninitialized (tagCode t)) ∨
    ((readCell m a).tag ≠ .uninitialized ∧ (readCell m a).tag ≠ t ∧
      e = tagError .tagMismatch a (readCell m a).tag (tagCode t)) := by
  unfold checkTag
  by_cases h : (readCell m a).tag = .uninitialized
  · simp [h, eq_comm]
  · by_cases h2 : (readCell m a).tag = t <;> simp_all [eq_comm]

theorem checkSame_ok {t : Tag} {x y : Nat} : checkSame m a b = .ok (t, x, y) ↔
    readCell m a = ⟨t, x⟩ ∧ readCell m b = ⟨t, y⟩ ∧ t ≠ .uninitialized := by
  unfold checkSame
  simp only [bind_ok, readInit_ok]
  constructor
  · rintro ⟨ca, ⟨rfl, ha⟩, cb, ⟨rfl, hb⟩, h⟩
    split at h
    · cases h
    · rename_i hn
      simp only [ne_eq, Decidable.not_not] at hn
      cases h
      refine ⟨rfl, ?_, ha⟩
      rw [hn]
  · rintro ⟨ha, hb, ht⟩
    exact ⟨⟨t, x⟩, ⟨ha, ht⟩, ⟨t, y⟩, ⟨hb, ht⟩, by simp⟩

theorem checkSame_error : checkSame m a b = .error e ↔
    ((readCell m a).tag = .uninitialized ∧ e = tagError .tagUninitialized a .uninitialized 0) ∨
    ((readCell m a).tag ≠ .uninitialized ∧ (readCell m b).tag = .uninitialized ∧
      e = tagError .tagUninitialized b .uninitialized 0) ∨
    ((readCell m a).tag ≠ .uninitialized ∧ (readCell m b).tag ≠ .uninitialized ∧
      (readCell m a).tag ≠ (readCell m b).tag ∧
      e = tagError .tagMismatch b (readCell m b).tag (tagCode (readCell m a).tag)) := by
  unfold checkSame
  simp only [bind_error, readInit_ok, readInit_error]
  by_cases ha : (readCell m a).tag = .uninitialized
  · simp [ha]
  · by_cases hb : (readCell m b).tag = .uninitialized
    · simp [ha, hb]
    · by_cases hab : (readCell m a).tag = (readCell m b).tag
      · simp [hb, hab]
      · simp [ha, hb, hab, eq_comm]

theorem rejectField_ok {t : Tag} {u : Unit} : rejectField t a = .ok u ↔ t ≠ .field := by
  unfold rejectField
  split <;> simp_all

theorem rejectField_error {t : Tag} :
    rejectField t a = .error e ↔ t = .field ∧ e = tagError .tagMismatch a .field 0 := by
  unfold rejectField
  split <;> simp_all [eq_comm]

theorem requireField_ok {t : Tag} {u : Unit} : requireField t a = .ok u ↔ t = .field := by
  unfold requireField
  split <;> simp_all

theorem requireField_error {t : Tag} :
    requireField t a = .error e ↔ t ≠ .field ∧ e = tagError .tagMismatch a t (tagCode .field) := by
  unfold requireField
  split <;> simp_all [eq_comm]

theorem checkIntegral_ok {c : MemCell} :
    checkIntegral m a = .ok c ↔ readCell m a = c ∧ c.tag ≠ .uninitialized ∧ c.tag ≠ .field := by
  unfold checkIntegral
  simp only [bind_ok, readInit_ok, rejectField_ok]
  constructor
  · rintro ⟨c, ⟨h1, h2⟩, _, h3, h4⟩
    cases h4
    exact ⟨h1, h2, h3⟩
  · rintro ⟨h1, h2, h3⟩
    exact ⟨c, ⟨h1, h2⟩, (), h3, rfl⟩

theorem checkIntegral_error : checkIntegral m a = .error e ↔
    ((readCell m a).tag = .uninitialized ∧ e = tagError .tagUninitialized a .uninitialized 0) ∨
    ((readCell m a).tag = .field ∧ e = tagError .tagMismatch a .field 0) := by
  unfold checkIntegral
  simp only [bind_error, readInit_ok, readInit_error, rejectField_ok, rejectField_error]
  by_cases h : (readCell m a).tag = .uninitialized
  · simp [h]
  · by_cases h2 : (readCell m a).tag = .field <;> simp [h, h2]

theorem checkSlice_ok {u : Unit} : checkSlice a n = .ok u ↔ a + n ≤ Config.maxMemorySize := by
  unfold checkSlice
  split
  · rename_i h
    exact ⟨fun h2 => (by cases h2), fun h2 => absurd h (Nat.not_lt.mpr h2)⟩
  · rename_i h
    exact ⟨fun _ => Nat.not_lt.mp h, fun _ => rfl⟩

theorem checkSlice_error :
    checkSlice a n = .error e ↔ Config.maxMemorySize < a + n ∧ e = kindOnly .sliceOutOfRange := by
  unfold checkSlice
  split
  · rename_i h
    exact ⟨fun h2 => (by cases h2; exact ⟨h, rfl⟩), fun ⟨_, h2⟩ => by rw [h2]⟩
  · rename_i h
    exact ⟨fun h2 => (by cases h2), fun h2 => absurd h2.1 h⟩

/-- A slice that reads is n initialised cells, and its values are theirs, lowest address first. -/
theorem readSlice_ok {vs : List Nat} : readSlice m a n = .ok vs ↔
    vs = (List.range n).map (fun i => (readCell m (a + i)).value) ∧
      ∀ i < n, (readCell m (a + i)).tag ≠ .uninitialized := by
  induction n generalizing a vs with
  | zero => simp [readSlice, eq_comm]
  | succ n ih =>
    have shift : ∀ i, a + (i + 1) = a + 1 + i := fun i => by omega
    simp only [readSlice, bind_ok, readInit_ok, ih, List.range_succ_eq_map, List.map_cons, List.map_map]
    constructor
    · rintro ⟨c, ⟨rfl, hc⟩, rest, ⟨rfl, hrest⟩, h⟩
      cases h
      refine ⟨by simp [Function.comp_def, Nat.add_assoc, Nat.add_comm 1], fun i hi => ?_⟩
      cases i with
      | zero => exact hc
      | succ i => rw [shift]; exact hrest i (by omega)
    · rintro ⟨rfl, h⟩
      refine ⟨_, ⟨rfl, h 0 (by omega)⟩, _, ⟨rfl, fun i hi => ?_⟩, by simp [Function.comp_def, Nat.add_assoc, Nat.add_comm 1]⟩
      rw [← shift]
      exact h (i + 1) (by omega)

/-- A slice that does not read raises for its lowest uninitialised cell. -/
theorem readSlice_error : readSlice m a n = .error e ↔
    ∃ i < n, (readCell m (a + i)).tag = .uninitialized ∧
      (∀ j < i, (readCell m (a + j)).tag ≠ .uninitialized) ∧
      e = tagError .tagUninitialized (a + i) .uninitialized 0 := by
  induction n generalizing a with
  | zero => simp [readSlice]
  | succ n ih =>
    have shift : ∀ i, a + (i + 1) = a + 1 + i := fun i => by omega
    simp only [readSlice, bind_error, readInit_ok, readInit_error, ih]
    constructor
    · rintro (⟨h, rfl⟩ | ⟨c, ⟨rfl, hc⟩, (⟨i, hi, h1, h2, rfl⟩ | ⟨_, _, h⟩)⟩)
      · exact ⟨0, by omega, h, by simp, rfl⟩
      · refine ⟨i + 1, by omega, by rwa [shift], fun j hj => ?_, by rw [shift i]⟩
        cases j with
        | zero => exact hc
        | succ j => rw [shift]; exact h2 j (by omega)
      · cases h
    · rintro ⟨i, hi, h1, h2, rfl⟩
      cases i with
      | zero => exact .inl ⟨h1, rfl⟩
      | succ i =>
        refine .inr ⟨_, ⟨rfl, h2 0 (by omega)⟩, .inl ⟨i, by omega, by rwa [← shift], fun j hj => ?_, by rw [shift i]⟩⟩
        rw [← shift]
        exact h2 (j + 1) (by omega)

/-! ### Immediates (30_encoding.md R103) -/

theorem tagOfImmediate_initialized {x : BitVec 8} {t : Tag} (h : tagOfImmediate x = some t) : t ≠ .uninitialized := by
  unfold tagOfImmediate at h
  split at h <;> simp at h <;> subst h <;> decide

theorem tagOfImmediate_none {x : BitVec 8} : tagOfImmediate x = none ↔ x.toNat = 0 ∨ 7 < x.toNat := by
  unfold tagOfImmediate
  split
  all_goals first | (simp_all; done) | (simp_all; omega)

theorem checkTagImmediate_ok {x : BitVec 8} {t : Tag} :
    checkTagImmediate x = .ok t ↔ tagOfImmediate x = some t := by
  unfold checkTagImmediate
  split <;> simp_all

theorem checkTagImmediate_error {x : BitVec 8} :
    checkTagImmediate x = .error e ↔ tagOfImmediate x = none ∧ e = kindOnly .invalidImmediate := by
  unfold checkTagImmediate
  cases tagOfImmediate x <;> simp [eq_comm]

theorem checkEnvVar_ok {env : Environment} {x : BitVec 8} {c : MemCell} :
    checkEnvVar env x = .ok c ↔ envCell env x = some c := by
  unfold checkEnvVar
  split <;> simp_all

theorem checkEnvVar_error {env : Environment} {x : BitVec 8} :
    checkEnvVar env x = .error e ↔ envCell env x = none ∧ e = kindOnly .invalidImmediate := by
  unfold checkEnvVar
  cases envCell env x <;> simp [eq_comm]

theorem envCell_none {env : Environment} {x : BitVec 8} : envCell env x = none ↔ 12 < x.toNat := by
  unfold envCell
  split
  all_goals first | (simp_all; done) | (simp_all; omega)

/-! ### Phase-6 checks -/

theorem divIn_ok {x y r : Nat} : divIn x y = .ok r ↔ y ≠ 0 ∧ r = x / y := by
  unfold divIn
  split <;> simp_all [eq_comm]

theorem divIn_error {x y : Nat} : divIn x y = .error e ↔ y = 0 ∧ e = kindOnly .divisionByZero := by
  unfold divIn
  split <;> simp_all [eq_comm]

theorem modIn_ok {x y r : Nat} : modIn x y = .ok r ↔ y ≠ 0 ∧ r = x % y := by
  unfold modIn
  split <;> simp_all [eq_comm]

theorem modIn_error {x y : Nat} : modIn x y = .error e ↔ y = 0 ∧ e = kindOnly .divisionByZero := by
  unfold modIn
  split <;> simp_all [eq_comm]

theorem fdivIn_ok {x y r : Nat} : fdivIn x y = .ok r ↔ y ≠ 0 ∧ r = x * fieldInverse y % Config.fieldModulus := by
  unfold fdivIn
  split <;> simp_all [eq_comm]

theorem fdivIn_error {x y : Nat} : fdivIn x y = .error e ↔ y = 0 ∧ e = kindOnly .divisionByZero := by
  unfold fdivIn
  split <;> simp_all [eq_comm]

theorem checkRadix_ok {r : Nat} {u : Unit} : checkRadix r = .ok u ↔ r ≠ 0 := by
  unfold checkRadix
  split <;> simp_all

theorem checkRadix_error {r : Nat} : checkRadix r = .error e ↔ r = 0 ∧ e = kindOnly .divisionByZero := by
  unfold checkRadix
  split <;> simp_all [eq_comm]

theorem pushEntry_ok {x : CallEntry} {st st' : List CallEntry} :
    pushEntry x st = .ok st' ↔ st.length < Config.callStackCapacity ∧ st' = x :: st := by
  unfold pushEntry
  split <;> simp_all [eq_comm]

theorem pushEntry_error {x : CallEntry} {st : List CallEntry} :
    pushEntry x st = .error e ↔ Config.callStackCapacity ≤ st.length ∧ e = kindOnly .stackOverflow := by
  unfold pushEntry
  split <;> simp_all [eq_comm]

theorem popEntry_ok {x : CallEntry} {st rest : List CallEntry} :
    popEntry st = .ok (x, rest) ↔ st = x :: rest := by
  unfold popEntry
  split <;> simp_all

theorem popEntry_error {st : List CallEntry} :
    popEntry st = .error e ↔ st = [] ∧ e = kindOnly .stackEmpty := by
  unfold popEntry
  split <;> simp_all [eq_comm]

/-! ### Gas (40_step_and_gas.md R146) -/

theorem charge_ok {l2 da : Nat} {s t : State} : charge l2 da s = .ok t ↔
    l2 ≤ s.l2Gas.toNat ∧ da ≤ s.daGas.toNat ∧
      t = s.setGas (s.l2Gas - BitVec.ofNat 64 l2) (s.daGas - BitVec.ofNat 64 da) := by
  unfold charge
  split
  · simp_all
  · split <;> simp_all [eq_comm]

theorem charge_error {l2 da : Nat} {s : State} : charge l2 da s = .error e ↔
    (s.l2Gas.toNat < l2 ∧ e = kindOnly .outOfGasL2) ∨
      (l2 ≤ s.l2Gas.toNat ∧ s.daGas.toNat < da ∧ e = kindOnly .outOfGasDA) := by
  unfold charge
  split
  · simp_all [eq_comm]
  · split <;> simp_all [eq_comm]

/-- What is left after a charge that was covered. -/
theorem sub_charge_toNat {g : Word64} {cost : Nat} (h : cost ≤ g.toNat) :
    (g - BitVec.ofNat 64 cost).toNat = g.toNat - cost := by
  have := g.isLt
  simp only [BitVec.toNat_sub, BitVec.toNat_ofNat]
  omega

@[simp] theorem sub_zero_charge (g : Word64) : g - BitVec.ofNat 64 0 = g := by simp

theorem chargeFor_ok {w : Nat} {f : Family} {d : BitVec w} {n c : Nat} {s t : State} :
    chargeFor f d n c s = .ok t ↔
      costL2 f (flagCount d n) c ≤ s.l2Gas.toNat ∧ costDA f (flagCount d n) c ≤ s.daGas.toNat ∧
        t = s.setGas (s.l2Gas - BitVec.ofNat 64 (costL2 f (flagCount d n) c))
          (s.daGas - BitVec.ofNat 64 (costDA f (flagCount d n) c)) :=
  charge_ok

theorem chargeFor_error {w : Nat} {f : Family} {d : BitVec w} {n c : Nat} {s : State} :
    chargeFor f d n c s = .error e ↔
      (s.l2Gas.toNat < costL2 f (flagCount d n) c ∧ e = kindOnly .outOfGasL2) ∨
        (costL2 f (flagCount d n) c ≤ s.l2Gas.toNat ∧ s.daGas.toNat < costDA f (flagCount d n) c ∧
          e = kindOnly .outOfGasDA) :=
  charge_error

theorem chargeFlat_ok {f : Family} {s t : State} :
    chargeFlat f s = .ok t ↔ costL2 f 0 0 ≤ s.l2Gas.toNat ∧ costDA f 0 0 ≤ s.daGas.toNat ∧
      t = s.setGas (s.l2Gas - BitVec.ofNat 64 (costL2 f 0 0)) (s.daGas - BitVec.ofNat 64 (costDA f 0 0)) :=
  charge_ok

theorem chargeFlat_error {f : Family} {s : State} :
    chargeFlat f s = .error e ↔ (s.l2Gas.toNat < costL2 f 0 0 ∧ e = kindOnly .outOfGasL2) ∨
      (costL2 f 0 0 ≤ s.l2Gas.toNat ∧ s.daGas.toNat < costDA f 0 0 ∧ e = kindOnly .outOfGasDA) :=
  charge_error

end Sys2Proof.Machine
end

