-- ==== Sys2Proof/Laws/Codec.lean ====
section
/-! SUPPORT. The laws of the codec's fields: a field written is read back, and a field read is the bytes it was read from
(30_encoding.md R94, R97). -/

namespace Sys2Proof

@[simp] theorem bytesOfNat_length (v n : Nat) : (bytesOfNat v n).length = n := by
  induction n with
  | zero => rfl
  | succ n ih => simp [bytesOfNat, ih]

theorem natOfBytes_lt (bs : List Byte) : natOfBytes bs < 256 ^ bs.length := by
  induction bs with
  | nil => simp [natOfBytes]
  | cons b bs ih =>
    have hb : b.toNat + 1 ≤ 256 := b.isLt
    calc natOfBytes (b :: bs) = b.toNat * 256 ^ bs.length + natOfBytes bs := rfl
      _ < (b.toNat + 1) * 256 ^ bs.length := by rw [Nat.add_mul, Nat.one_mul]; omega
      _ ≤ 256 * 256 ^ bs.length := Nat.mul_le_mul_right _ hb
      _ = 256 ^ (b :: bs).length := by rw [List.length_cons, Nat.pow_succ, Nat.mul_comm]

theorem bytesOfNat_mod (v n : Nat) : bytesOfNat (v % 256 ^ n) n = bytesOfNat v n := by
  suffices h : ∀ k ≤ n, bytesOfNat (v % 256 ^ n) k = bytesOfNat v k from h n (Nat.le_refl n)
  intro k hk
  induction k with
  | zero => rfl
  | succ k ih =>
    simp only [bytesOfNat, ih (by omega), List.cons.injEq, and_true]
    apply BitVec.eq_of_toNat_eq
    simp only [BitVec.toNat_ofNat]
    have : 256 ^ n = 256 ^ k * (2 ^ 8 * 256 ^ (n - (k + 1))) := by
      rw [show (2 ^ 8 : Nat) = 256 ^ 1 by rfl, ← Nat.pow_add, ← Nat.pow_add]
      congr 1
      omega
    rw [this, Nat.mod_mul_right_div_self, Nat.mod_mul_right_mod]

/-- The number read from the bytes of v is v, when v fits (R10). -/
theorem natOfBytes_bytesOfNat {v n : Nat} (h : v < 256 ^ n) : natOfBytes (bytesOfNat v n) = v := by
  induction n generalizing v with
  | zero => simp at h; simp [bytesOfNat, natOfBytes, h]
  | succ n ih =>
    have hq : v / 256 ^ n < 2 ^ 8 := Nat.div_lt_of_lt_mul (by rw [Nat.pow_succ] at h; exact h)
    have hr := ih (Nat.mod_lt v (Nat.pow_pos (n := n) (show 0 < 256 by decide)))
    rw [bytesOfNat_mod] at hr
    simp only [bytesOfNat, natOfBytes, bytesOfNat_length, BitVec.toNat_ofNat, Nat.mod_eq_of_lt hq, hr]
    exact Nat.div_add_mod' v (256 ^ n)

/-- The bytes of the number read from n bytes are those bytes (R10). -/
theorem bytesOfNat_natOfBytes (bs : List Byte) : bytesOfNat (natOfBytes bs) bs.length = bs := by
  induction bs with
  | nil => rfl
  | cons b bs ih =>
    have hlt := natOfBytes_lt bs
    have hpos : 0 < 256 ^ bs.length := Nat.pow_pos (by decide)
    simp only [List.length_cons, bytesOfNat, natOfBytes]
    have htail : bytesOfNat (b.toNat * 256 ^ bs.length + natOfBytes bs) bs.length = bs := by
      rw [← bytesOfNat_mod, Nat.mul_comm, Nat.mul_add_mod, bytesOfNat_mod, ih]
    rw [htail, Nat.add_comm, Nat.add_mul_div_right _ _ hpos, Nat.div_eq_of_lt hlt, Nat.zero_add]
    simp

@[simp] theorem putField_length (w : Nat) (v : BitVec w) : (putField w v).length = w / 8 := by
  simp [putField]

@[simp] theorem write3B_length (op : Byte) (ind f1 f2 f3 : BitVec 8) : (write3B op ind f1 f2 f3).length = 5 := by
  simp [write3B]

@[simp] theorem write2A16_length (op : Byte) (ind : BitVec 8) (s0 s1 : BitVec 16) :
    (write2A16 op ind s0 s1).length = 6 := by
  simp [write2A16]

@[simp] theorem write3A16_length (op : Byte) (ind : BitVec 8) (s0 s1 s2 : BitVec 16) :
    (write3A16 op ind s0 s1 s2).length = 8 := by
  simp [write3A16]

@[simp] theorem writeA16TI_length (w : Nat) (op : Byte) (ind : BitVec 8) (s0 : BitVec 16) (tag : BitVec 8)
    (imm : BitVec w) : (writeA16TI w op ind s0 tag imm).length = w / 8 + 5 := by
  simp [writeA16TI]
  omega

/-- A field of whole bytes that was written is read back, and what follows it is left. -/
theorem takeField_putField {w : Nat} (hw : 8 ∣ w) (v : BitVec w) (rest : List Byte) :
    takeField w (putField w v ++ rest) = some (v, rest) := by
  obtain ⟨n, rfl⟩ := hw
  have hn : 8 * n / 8 = n := by omega
  have hv : v.toNat < 256 ^ n := by
    have := v.isLt
    rwa [Nat.pow_mul] at this
  unfold takeField
  rw [if_pos (by simp [hn])]
  simp only [putField, hn]
  rw [List.take_left' (bytesOfNat_length _ _), List.drop_left' (bytesOfNat_length _ _), natOfBytes_bytesOfNat hv]
  simp

/-- A field that was read is written as the bytes it was read from. -/
theorem putField_of_takeField {w : Nat} (hw : 8 ∣ w) {bs rest : List Byte} {v : BitVec w}
    (h : takeField w bs = some (v, rest)) : bs = putField w v ++ rest := by
  obtain ⟨n, rfl⟩ := hw
  have hn : 8 * n / 8 = n := by omega
  unfold takeField at h
  split at h
  · rename_i hlen
    rw [hn] at hlen h
    have htake : (bs.take n).length = n := by simp [hlen]
    simp only [Option.some.injEq, Prod.mk.injEq] at h
    obtain ⟨rfl, rfl⟩ := h
    have hlt : natOfBytes (bs.take n) < 2 ^ (8 * n) := by
      have := natOfBytes_lt (bs.take n)
      rw [htake] at this
      rwa [Nat.pow_mul]
    have hback := bytesOfNat_natOfBytes (bs.take n)
    rw [htake] at hback
    simp only [putField, hn, BitVec.toNat_ofNat, Nat.mod_eq_of_lt hlt, hback, List.take_append_drop]
  · cases h

/-- A field cannot be read exactly when too few bytes are left. -/
theorem takeField_none {w : Nat} {bs : List Byte} : takeField w bs = none ↔ bs.length < w / 8 := by
  unfold takeField
  split <;> simp <;> omega

end Sys2Proof
end

