-- ==== Sys2Proof/Laws/Memory.lean ====
section
/-! SUPPORT. The laws of the memory controller: reading after writing (which holds of every list), and the canonical form,
which every memory operation keeps. -/

namespace Sys2Proof.Machine

variable {m : Memory} {a b lo : Nat} {c : MemCell}

/-! ### Reading after writing (20_memory.md R56, R57, R80) -/

@[simp] theorem readCell_nil (a : Nat) : readCell [] a = blankCell := rfl

theorem readCell_cons (x : Nat) (d : MemCell) (m : Memory) (a : Nat) :
    readCell ((x, d) :: m) a = if x = a then d else readCell m a := rfl

theorem readCell_insertCell (m : Memory) (a b : Nat) (c : MemCell) :
    readCell (insertCell m a c) b = if a = b then c else readCell m b := by
  induction m with
  | nil => simp [insertCell, readCell_cons]
  | cons head m ih =>
    obtain ⟨x, d⟩ := head
    unfold insertCell
    split
    · simp [readCell_cons]
    · split
      · rename_i h
        subst h
        simp only [readCell_cons]
        split <;> rfl
      · simp only [readCell_cons, ih]
        split
        · split
          · omega
          · rfl
        · rfl

theorem readCell_erase (m : Memory) (a b : Nat) :
    readCell (m.filter (fun e => e.1 ≠ a)) b = if a = b then blankCell else readCell m b := by
  induction m with
  | nil => simp
  | cons head m ih =>
    obtain ⟨x, d⟩ := head
    simp only [List.filter_cons, readCell_cons]
    by_cases hx : x = a
    · subst hx
      simp only [ne_eq, not_true_eq_false, decide_false, Bool.false_eq_true, if_false]
      simp only [ne_eq] at ih
      rw [ih]
      split <;> rfl
    · simp only [ne_eq, hx, not_false_eq_true, decide_true, if_true, readCell_cons]
      simp only [ne_eq] at ih
      rw [ih]
      split
      · split
        · omega
        · rfl
      · rfl

/-- A read gives the cell written last at the address, and every other address reads as before. -/
theorem readCell_writeCell (m : Memory) (a b : Nat) (c : MemCell) :
    readCell (writeCell m a c) b = if a = b then c else readCell m b := by
  unfold writeCell
  split
  · rename_i h
    rw [readCell_erase, h]
  · exact readCell_insertCell m a b c

@[simp] theorem readCell_writeCell_same (m : Memory) (a : Nat) (c : MemCell) :
    readCell (writeCell m a c) a = c := by
  simp [readCell_writeCell]

theorem readCell_writeCell_other {m : Memory} {a b : Nat} {c : MemCell} (h : a ≠ b) :
    readCell (writeCell m a c) b = readCell m b := by
  simp [readCell_writeCell, h]

theorem readCell_writeCells_outside {cs : List MemCell} (h : b < a ∨ a + cs.length ≤ b) :
    readCell (writeCells m a cs) b = readCell m b := by
  induction cs generalizing m a with
  | nil => rfl
  | cons c cs ih =>
    simp only [List.length_cons] at h
    simp only [writeCells]
    rw [ih (by omega), readCell_writeCell_other (by omega)]

theorem readCell_writeCells_inside {cs : List MemCell} {i : Nat} (h : i < cs.length) :
    readCell (writeCells m a cs) (a + i) = cs[i] := by
  induction cs generalizing m a i with
  | nil => simp at h
  | cons c cs ih =>
    simp only [writeCells]
    cases i with
    | zero => rw [readCell_writeCells_outside (by omega)]; simp
    | succ i =>
      have := ih (m := writeCell m a c) (a := a + 1) (i := i) (by simpa using h)
      rw [show a + (i + 1) = a + 1 + i by omega, this]
      simp

/-! ### The canonical form -/

theorem memoryOkFrom_cons {d : MemCell} : memoryOkFrom lo ((a, d) :: m) = true ↔
    lo ≤ a ∧ a < Config.maxMemorySize ∧ cellOk d = true ∧ memoryOkFrom (a + 1) m = true := by
  simp [memoryOkFrom, and_assoc]

theorem memoryOkFrom_weaken {lo' : Nat} (h : memoryOkFrom lo m = true) (hl : lo' ≤ lo) :
    memoryOkFrom lo' m = true := by
  cases m with
  | nil => rfl
  | cons head m =>
    obtain ⟨x, d⟩ := head
    rw [memoryOkFrom_cons] at h ⊢
    exact ⟨by omega, h.2⟩

theorem cellOk_iff : cellOk c = true ↔ c.tag ≠ .uninitialized ∧ c.value < domOf c.tag := by
  simp [cellOk]

theorem memoryOkFrom_readCell (h : memoryOkFrom lo m = true) (a : Nat) :
    readCell m a = blankCell ∨ cellOk (readCell m a) = true := by
  induction m generalizing lo with
  | nil => exact .inl rfl
  | cons head m ih =>
    obtain ⟨x, d⟩ := head
    rw [memoryOkFrom_cons] at h
    rw [readCell_cons]
    split
    · exact .inr h.2.2.1
    · exact ih h.2.2.2

/-- In a canonical memory a cell is blank or holds a value of its tag's domain (10_state.md R29). -/
theorem wf_readCell (h : Memory.wf m = true) (a : Nat) :
    readCell m a = blankCell ∨ cellOk (readCell m a) = true :=
  memoryOkFrom_readCell h a

theorem wf_value_lt (h : Memory.wf m = true) (a : Nat) : (readCell m a).value < domOf (readCell m a).tag := by
  rcases wf_readCell h a with h | h
  · rw [h]; decide
  · exact (cellOk_iff.mp h).2

theorem wf_cell_lt {t : Tag} {v : Nat} (h : Memory.wf m = true) (hr : readCell m a = ⟨t, v⟩) : v < domOf t := by
  have := wf_value_lt h a
  rw [hr] at this
  exact this

theorem memoryOkFrom_insertCell (h : memoryOkFrom lo m = true) (hlo : lo ≤ a) (ha : a < Config.maxMemorySize)
    (hc : cellOk c = true) : memoryOkFrom lo (insertCell m a c) = true := by
  induction m generalizing lo with
  | nil => simp only [insertCell]; rw [memoryOkFrom_cons]; exact ⟨hlo, ha, hc, rfl⟩
  | cons head m ih =>
    obtain ⟨x, d⟩ := head
    rw [memoryOkFrom_cons] at h
    unfold insertCell
    split
    · rw [memoryOkFrom_cons, memoryOkFrom_cons]
      exact ⟨hlo, ha, hc, by omega, h.2⟩
    · split
      · rename_i _ hx
        subst hx
        rw [memoryOkFrom_cons]
        exact ⟨hlo, ha, hc, h.2.2.2⟩
      · rw [memoryOkFrom_cons]
        exact ⟨h.1, h.2.1, h.2.2.1, ih h.2.2.2 (by omega)⟩

theorem memoryOkFrom_erase (h : memoryOkFrom lo m = true) :
    memoryOkFrom lo (m.filter (fun e => e.1 ≠ a)) = true := by
  induction m generalizing lo with
  | nil => rfl
  | cons head m ih =>
    obtain ⟨x, d⟩ := head
    rw [memoryOkFrom_cons] at h
    rw [List.filter_cons]
    split
    · rw [memoryOkFrom_cons]
      exact ⟨h.1, h.2.1, h.2.2.1, ih h.2.2.2⟩
    · exact memoryOkFrom_weaken (ih h.2.2.2) (by omega)

/-- A write of a cell within its tag's domain keeps the canonical form. -/
theorem wf_writeCell (h : Memory.wf m = true) (ha : a < Config.maxMemorySize) (hc : cellOk c = true) :
    Memory.wf (writeCell m a c) = true := by
  unfold writeCell
  split
  · exact memoryOkFrom_erase h
  · exact memoryOkFrom_insertCell h (Nat.zero_le a) ha hc

/-- A write of the blank cell keeps the canonical form too: it removes the entry. -/
theorem wf_writeCell_blank (h : Memory.wf m = true) : Memory.wf (writeCell m a blankCell) = true := by
  unfold writeCell
  rw [if_pos rfl]
  exact memoryOkFrom_erase h

theorem wf_writeCells {cs : List MemCell} (h : Memory.wf m = true) (ha : a + cs.length ≤ Config.maxMemorySize)
    (hc : ∀ c ∈ cs, cellOk c = true) : Memory.wf (writeCells m a cs) = true := by
  induction cs generalizing m a with
  | nil => exact h
  | cons c cs ih =>
    simp only [List.length_cons] at ha
    simp only [writeCells]
    exact ih (wf_writeCell h (by omega) (hc c (by simp))) (by omega) (fun d hd => hc d (by simp [hd]))

theorem wf_reset : Memory.wf State.reset.memory = true := rfl

/-! ### No operation makes a written cell blank (R57) -/

theorem readCell_writeCell_initialized (h : (readCell m b).tag ≠ .uninitialized) (hc : c.tag ≠ .uninitialized) :
    (readCell (writeCell m a c) b).tag ≠ .uninitialized := by
  rw [readCell_writeCell]
  split
  · exact hc
  · exact h

theorem readCell_writeCells_initialized {cs : List MemCell} (h : (readCell m b).tag ≠ .uninitialized)
    (hc : ∀ c ∈ cs, c.tag ≠ .uninitialized) : (readCell (writeCells m a cs) b).tag ≠ .uninitialized := by
  induction cs generalizing m a with
  | nil => exact h
  | cons c cs ih =>
    simp only [writeCells]
    exact ih (readCell_writeCell_initialized h (hc c (by simp))) (fun d hd => hc d (by simp [hd]))

end Sys2Proof.Machine
end

