-- ==== Sys2Proof/Laws/Operands.lean ====
section
/-! SUPPORT. What the resolver can answer: the address of each mode, its bound, and the errors it raises; and that every
checked operation raises only errors of the runtime kinds with a canonical payload. -/

namespace Sys2Proof.Machine

variable {α β : Type} {m : Memory} {e : ErrReg} {a p off : Nat}

/-! ### Resolution (20_memory.md R71 to R74) -/

theorem relativeAddr_ok {base : Nat} :
    relativeAddr base off = .ok a ↔ a = base + off ∧ base + off < Config.maxMemorySize := by
  unfold relativeAddr
  split
  · rename_i h
    exact ⟨fun h2 => (by cases h2), fun h2 => absurd h2.2 (Nat.not_lt.mpr h)⟩
  · rename_i h
    exact ⟨fun h2 => (by cases h2; exact ⟨rfl, Nat.not_le.mp h⟩), fun h2 => by rw [h2.1]⟩

theorem relativeAddr_error {base : Nat} : relativeAddr base off = .error e ↔
    Config.maxMemorySize ≤ base + off ∧ e = kindOnly .relativeAddressOutOfRange := by
  unfold relativeAddr
  split
  · rename_i h
    exact ⟨fun h2 => (by cases h2; exact ⟨h, rfl⟩), fun h2 => by rw [h2.2]⟩
  · rename_i h
    exact ⟨fun h2 => (by cases h2), fun h2 => absurd h2.1 h⟩

theorem basePointer_ok : basePointer m = .ok p ↔ readCell m 0 = ⟨.uint32, p⟩ := checkTag_ok (by decide)

theorem derefPointer_ok : derefPointer m a = .ok p ↔ readCell m a = ⟨.uint32, p⟩ := checkTag_ok (by decide)

@[simp] theorem resolveOperand_direct (m : Memory) (off : Nat) : resolveOperand m .direct off = .ok off := rfl

theorem resolveOperand_indirect : resolveOperand m .indirect off = .ok a ↔ readCell m off = ⟨.uint32, a⟩ :=
  derefPointer_ok

theorem resolveOperand_relative : resolveOperand m .relative off = .ok a ↔
    ∃ base, readCell m 0 = ⟨.uint32, base⟩ ∧ a = base + off ∧ base + off < Config.maxMemorySize := by
  simp only [resolveOperand, bind_ok, basePointer_ok, relativeAddr_ok]

theorem resolveOperand_indirectRelative : resolveOperand m .indirectRelative off = .ok a ↔
    ∃ base, readCell m 0 = ⟨.uint32, base⟩ ∧ base + off < Config.maxMemorySize ∧
      readCell m (base + off) = ⟨.uint32, a⟩ := by
  simp only [resolveOperand, bind_ok, basePointer_ok, relativeAddr_ok, derefPointer_ok]
  constructor
  · rintro ⟨base, h1, p, ⟨rfl, h2⟩, h3⟩
    exact ⟨base, h1, h2, h3⟩
  · rintro ⟨base, h1, h2, h3⟩
    exact ⟨base, h1, _, ⟨rfl, h2⟩, h3⟩

/-- In a canonical memory every operand resolves to an address of the memory (R8). -/
theorem resolveOperand_lt {mode : AddrMode} (h : Memory.wf m = true) (hoff : off < Config.maxMemorySize)
    (hr : resolveOperand m mode off = .ok a) : a < Config.maxMemorySize := by
  have pointer : ∀ {x : Nat}, readCell m x = ⟨.uint32, a⟩ → a < Config.maxMemorySize :=
    fun hx => wf_cell_lt h hx
  cases mode with
  | direct => cases hr; exact hoff
  | indirect => exact pointer (resolveOperand_indirect.mp hr)
  | relative => obtain ⟨base, _, rfl, hlt⟩ := resolveOperand_relative.mp hr; exact hlt
  | indirectRelative => obtain ⟨base, _, _, hp⟩ := resolveOperand_indirectRelative.mp hr; exact pointer hp

theorem slotAddr_lt {n k : Nat} {d : BitVec n} {i : Nat} {offset : BitVec k} (h : Memory.wf m = true) (hk : k ≤ 32)
    (hr : slotAddr m d i offset = .ok a) : a < Config.maxMemorySize :=
  resolveOperand_lt h (Nat.lt_of_lt_of_le offset.isLt (Nat.pow_le_pow_right (by decide) hk)) hr

@[simp] theorem slotMode_zero (n i : Nat) : slotMode (0#n) i = .direct := by
  simp [slotMode]

@[simp] theorem slotAddr_zero {n k : Nat} (m : Memory) (i : Nat) (offset : BitVec k) :
    slotAddr m (0#n) i offset = .ok offset.toNat := by
  simp [slotAddr]

@[simp] theorem flagCount_zero (w n : Nat) : flagCount (0#w) n = 0 := by
  induction n with
  | zero => rfl
  | succ n ih => simp only [flagCount, ih, slotMode_zero, modeFlags]

theorem resolveEach_nil {l : List Nat} : resolveEach m [] = .ok l ↔ l = [] := by
  simp [resolveEach, eq_comm]

/-- The operands resolve one by one, in wire order (R74). -/
theorem resolveEach_cons {mode : AddrMode} {rest : List (AddrMode × Nat)} {l : List Nat} :
    resolveEach m ((mode, off) :: rest) = .ok l ↔
      ∃ p out, resolveOperand m mode off = .ok p ∧ resolveEach m rest = .ok out ∧ l = p :: out := by
  simp only [resolveEach, bind_ok, Except.ok.injEq]
  constructor
  · rintro ⟨p, h1, out, h2, rfl⟩
    exact ⟨p, out, h1, h2, rfl⟩
  · rintro ⟨p, out, h1, h2, rfl⟩
    exact ⟨p, h1, out, h2, rfl⟩

theorem slotAddr_eq {n k : Nat} (m : Memory) (d : BitVec n) (i : Nat) (offset : BitVec k) :
    slotAddr m d i offset = resolveOperand m (slotMode d i) offset.toNat := rfl

/-- Each slot sets at most two flags (R148). -/
theorem flagCount_le {w : Nat} (d : BitVec w) (n : Nat) : flagCount d n ≤ 2 * n := by
  induction n with
  | zero => simp [flagCount]
  | succ n ih =>
    have : modeFlags (slotMode d n) ≤ 2 := by cases slotMode d n <;> decide
    simp only [flagCount]
    omega

/-! ### The errors that a step can raise (60_exceptions.md R331, R344) -/

/-- An error of a step: a runtime kind, with a canonical payload. -/
structure RuntimeError (e : ErrReg) : Prop where
  payload : e.Canonical
  isError : e.kind ≠ .none
  notUnknownOpcode : e.kind ≠ .unknownOpcode
  notTruncated : e.kind ≠ .truncatedBytecode

/-- Every error of the computation is an error of a step. -/
def RaisesRuntime (x : Checked α) : Prop := ∀ e, x = .error e → RuntimeError e

theorem runtimeError_uninitialized (a : Nat) (f : Tag) (x : BitVec 3) :
    RuntimeError (tagError .tagUninitialized a f x) :=
  ⟨canonical_tagError_uninitialized a f x, by simp [tagError], by simp [tagError], by simp [tagError]⟩

theorem runtimeError_mismatch (a : Nat) (f : Tag) (x : BitVec 3) : RuntimeError (tagError .tagMismatch a f x) :=
  ⟨canonical_tagError_mismatch a f x, by simp [tagError], by simp [tagError], by simp [tagError]⟩

theorem runtimeError_kindOnly {k : ErrKind} (h1 : k ≠ .none) (h2 : k ≠ .unknownOpcode) (h3 : k ≠ .truncatedBytecode) :
    RuntimeError (kindOnly k) :=
  ⟨canonical_kindOnly k, h1, h2, h3⟩

theorem raises_ok (v : α) : RaisesRuntime (.ok v : Checked α) := fun _ h => by cases h

theorem raises_bind {x : Checked α} {f : α → Checked β} (hx : RaisesRuntime x) (hf : ∀ v, RaisesRuntime (f v)) :
    RaisesRuntime (x >>= f) := fun e h => by
  rcases bind_error.mp h with h | ⟨v, _, h⟩
  · exact hx e h
  · exact hf v e h

theorem raises_readInit (m : Memory) (a : Nat) : RaisesRuntime (readInit m a) := fun e h => by
  obtain ⟨_, rfl⟩ := readInit_error.mp h
  exact runtimeError_uninitialized ..

theorem raises_checkTag (m : Memory) (t : Tag) (a : Nat) : RaisesRuntime (checkTag m t a) := fun e h => by
  rcases checkTag_error.mp h with ⟨_, rfl⟩ | ⟨_, _, rfl⟩
  · exact runtimeError_uninitialized ..
  · exact runtimeError_mismatch ..

theorem raises_checkSame (m : Memory) (a b : Nat) : RaisesRuntime (checkSame m a b) := fun e h => by
  rcases checkSame_error.mp h with ⟨_, rfl⟩ | ⟨_, _, rfl⟩ | ⟨_, _, _, rfl⟩
  · exact runtimeError_uninitialized ..
  · exact runtimeError_uninitialized ..
  · exact runtimeError_mismatch ..

theorem raises_rejectField (t : Tag) (a : Nat) : RaisesRuntime (rejectField t a) := fun e h => by
  obtain ⟨_, rfl⟩ := rejectField_error.mp h
  exact runtimeError_mismatch ..

theorem raises_requireField (t : Tag) (a : Nat) : RaisesRuntime (requireField t a) := fun e h => by
  obtain ⟨_, rfl⟩ := requireField_error.mp h
  exact runtimeError_mismatch ..

theorem raises_anyTag (t : Tag) (a : Nat) : RaisesRuntime (anyTag t a) := raises_ok ()

theorem raises_checkIntegral (m : Memory) (a : Nat) : RaisesRuntime (checkIntegral m a) := fun e h => by
  rcases checkIntegral_error.mp h with ⟨_, rfl⟩ | ⟨_, rfl⟩
  · exact runtimeError_uninitialized ..
  · exact runtimeError_mismatch ..

theorem raises_checkSlice (a n : Nat) : RaisesRuntime (checkSlice a n) := fun e h => by
  obtain ⟨_, rfl⟩ := checkSlice_error.mp h
  exact runtimeError_kindOnly (by decide) (by decide) (by decide)

theorem raises_readSlice (m : Memory) (a n : Nat) : RaisesRuntime (readSlice m a n) := fun e h => by
  obtain ⟨_, _, _, _, rfl⟩ := readSlice_error.mp h
  exact runtimeError_uninitialized ..

theorem raises_checkTagImmediate (x : BitVec 8) : RaisesRuntime (checkTagImmediate x) := fun e h => by
  obtain ⟨_, rfl⟩ := checkTagImmediate_error.mp h
  exact runtimeError_kindOnly (by decide) (by decide) (by decide)

theorem raises_checkEnvVar (env : Environment) (x : BitVec 8) : RaisesRuntime (checkEnvVar env x) := fun e h => by
  obtain ⟨_, rfl⟩ := checkEnvVar_error.mp h
  exact runtimeError_kindOnly (by decide) (by decide) (by decide)

theorem raises_divIn (x y : Nat) : RaisesRuntime (divIn x y) := fun e h => by
  obtain ⟨_, rfl⟩ := divIn_error.mp h
  exact runtimeError_kindOnly (by decide) (by decide) (by decide)

theorem raises_modIn (x y : Nat) : RaisesRuntime (modIn x y) := fun e h => by
  obtain ⟨_, rfl⟩ := modIn_error.mp h
  exact runtimeError_kindOnly (by decide) (by decide) (by decide)

theorem raises_fdivIn (x y : Nat) : RaisesRuntime (fdivIn x y) := fun e h => by
  obtain ⟨_, rfl⟩ := fdivIn_error.mp h
  exact runtimeError_kindOnly (by decide) (by decide) (by decide)

theorem raises_checkRadix (r : Nat) : RaisesRuntime (checkRadix r) := fun e h => by
  obtain ⟨_, rfl⟩ := checkRadix_error.mp h
  exact runtimeError_kindOnly (by decide) (by decide) (by decide)

theorem raises_pushEntry (x : CallEntry) (st : List CallEntry) : RaisesRuntime (pushEntry x st) := fun e h => by
  obtain ⟨_, rfl⟩ := pushEntry_error.mp h
  exact runtimeError_kindOnly (by decide) (by decide) (by decide)

theorem raises_popEntry (st : List CallEntry) : RaisesRuntime (popEntry st) := fun e h => by
  obtain ⟨_, rfl⟩ := popEntry_error.mp h
  exact runtimeError_kindOnly (by decide) (by decide) (by decide)

theorem raises_charge (l2 da : Nat) (s : State) : RaisesRuntime (charge l2 da s) := fun e h => by
  rcases charge_error.mp h with ⟨_, rfl⟩ | ⟨_, _, rfl⟩
  · exact runtimeError_kindOnly (by decide) (by decide) (by decide)
  · exact runtimeError_kindOnly (by decide) (by decide) (by decide)

theorem raises_chargeFor {w : Nat} (f : Family) (d : BitVec w) (n c : Nat) (s : State) :
    RaisesRuntime (chargeFor f d n c s) :=
  raises_charge _ _ _

theorem raises_relativeAddr (base off : Nat) : RaisesRuntime (relativeAddr base off) := fun e h => by
  obtain ⟨_, rfl⟩ := relativeAddr_error.mp h
  exact runtimeError_kindOnly (by decide) (by decide) (by decide)

theorem raises_resolveOperand (m : Memory) (mode : AddrMode) (off : Nat) :
    RaisesRuntime (resolveOperand m mode off) := by
  cases mode with
  | direct => exact raises_ok _
  | indirect => exact raises_checkTag _ _ _
  | relative => exact raises_bind (raises_checkTag _ _ _) fun _ => raises_relativeAddr _ _
  | indirectRelative =>
    exact raises_bind (raises_checkTag _ _ _) fun _ => raises_bind (raises_relativeAddr _ _) fun _ => raises_checkTag _ _ _

theorem raises_slotAddr {n k : Nat} (m : Memory) (d : BitVec n) (i : Nat) (offset : BitVec k) :
    RaisesRuntime (slotAddr m d i offset) :=
  raises_resolveOperand _ _ _

/-- The end of a step whose computation raises only errors of a step: its effect, or the conversion (R131, R345). -/
theorem atFrameBoundary_cases {s t : State} {r : Checked State} (hr : RaisesRuntime r)
    (h : atFrameBoundary s r = .next t) : r = .ok t ∨ ∃ e, RuntimeError e ∧ t = takeFault e s := by
  rcases atFrameBoundary_next.mp h with h | ⟨e, he, rfl⟩
  · exact .inl h
  · exact .inr ⟨e, hr e he, rfl⟩

end Sys2Proof.Machine
end

