-- ==== Sys2Proof/Laws/Exec.lean ====
section
/-! SUPPORT. What each meaning can do, said once for each template: if it answers a next state, the step raised and the
state is the conversion's, or every check passed and the state is the effect's (40_step_and_gas.md R131, R140). -/

namespace Sys2Proof.Machine

variable {s t : State}

theorem chargeFor_covered {w : Nat} {f : Family} {d : BitVec w} {n c : Nat} :
    chargeFor f d n c s = .ok t ↔ Covered s f (flagCount d n) c ∧ t = s.paid f (flagCount d n) c := by
  rw [chargeFor_ok]
  exact ⟨fun ⟨a, b, c⟩ => ⟨⟨a, b⟩, c⟩, fun ⟨⟨a, b⟩, c⟩ => ⟨a, b, c⟩⟩

theorem chargeFlat_covered {f : Family} : chargeFlat f s = .ok t ↔ Covered s f 0 0 ∧ t = s.paid f 0 0 := by
  rw [chargeFlat_ok]
  exact ⟨fun ⟨a, b, c⟩ => ⟨⟨a, b⟩, c⟩, fun ⟨⟨a, b⟩, c⟩ => ⟨a, b, c⟩⟩

/-- The step raised: the state is the one that the conversion makes of the state before. -/
def Raised (s t : State) : Prop := ∃ e, RuntimeError e ∧ t = takeFault e s

/-! ### Arithmetic (41_arithmetic.md R170) -/

/-- Every phase of an arithmetic instruction passed: the operands are two cells of one initialised tag. -/
structure ArithmeticEffect (f : Family) (width : Nat) (classCheck : Tag → Nat → Checked Unit)
    (op : Tag → Nat → Nat → Checked Nat) (ind : BitVec 8) {k : Nat} (a b dst : BitVec k) (s t : State)
    (pa pb pd : Nat) (tag : Tag) (x y r : Nat) : Prop where
  addrA : slotAddr s.memory ind 0 a = .ok pa
  addrB : slotAddr s.memory ind 1 b = .ok pb
  addrDst : slotAddr s.memory ind 2 dst = .ok pd
  cellA : readCell s.memory pa = ⟨tag, x⟩
  cellB : readCell s.memory pb = ⟨tag, y⟩
  initialized : tag ≠ .uninitialized
  class_ok : classCheck tag pa = .ok ()
  covered : Covered s f (flagCount ind 3) 0
  result : op tag x y = .ok r
  after : t = ((s.paid f (flagCount ind 3) 0).setCell pd ⟨tag, r⟩).advance width

theorem arithmetic_next {f : Family} {width : Nat} {classCheck : Tag → Nat → Checked Unit}
    {op : Tag → Nat → Nat → Checked Nat} {ind : BitVec 8} {k : Nat} {a b dst : BitVec k}
    (hc : ∀ tag p, RaisesRuntime (classCheck tag p)) (ho : ∀ tag x y, RaisesRuntime (op tag x y))
    (h : arithmetic f width classCheck op ind a b dst s = .next t) :
    (∃ pa pb pd tag x y r, ArithmeticEffect f width classCheck op ind a b dst s t pa pb pd tag x y r) ∨
      Raised s t := by
  unfold arithmetic at h
  refine (atFrameBoundary_cases ?_ h).imp (fun h => ?_) id
  · refine raises_bind (raises_slotAddr _ _ _ _) fun pa => raises_bind (raises_slotAddr _ _ _ _) fun pb =>
      raises_bind (raises_slotAddr _ _ _ _) fun pd => raises_bind (raises_checkSame _ _ _) fun v =>
      raises_bind (hc _ _) fun _ => raises_bind (raises_chargeFor _ _ _ _ _) fun c =>
      raises_bind (ho _ _ _) fun r => raises_ok _
  · simp only [bind_ok, Prod.exists, checkSame_ok, chargeFor_covered] at h
    obtain ⟨pa, h1, pb, h2, pd, h3, tag, x, y, ⟨h4, h5, h6⟩, _, h7, _, ⟨h8, rfl⟩, r, h9, h10⟩ := h
    cases h10
    exact ⟨pa, pb, pd, tag, x, y, r, h1, h2, h3, h4, h5, h6, h7, h8, h9, rfl⟩

/-! ### Conversions (42_conversion.md R201, R203) -/

theorem castCell_next {width : Nat} {ind : BitVec 8} {k : Nat} {src dst : BitVec k} {dstTag : BitVec 8}
    (h : castCell width ind src dst dstTag s = .next t) :
    (∃ ps pd tag, slotAddr s.memory ind 0 src = .ok ps ∧ slotAddr s.memory ind 1 dst = .ok pd ∧
      tagOfImmediate dstTag = some tag ∧ (readCell s.memory ps).tag ≠ .uninitialized ∧
      Covered s .cast (flagCount ind 2) 0 ∧
      t = ((s.paid .cast (flagCount ind 2) 0).setCell pd ⟨tag, (readCell s.memory ps).value % domOf tag⟩).advance
        width) ∨ Raised s t := by
  unfold castCell at h
  refine (atFrameBoundary_cases ?_ h).imp (fun h => ?_) id
  · refine raises_bind (raises_slotAddr _ _ _ _) fun _ => raises_bind (raises_slotAddr _ _ _ _) fun _ =>
      raises_bind (raises_checkTagImmediate _) fun _ => raises_bind (raises_readInit _ _) fun _ =>
      raises_bind (raises_chargeFor _ _ _ _ _) fun _ => raises_ok _
  · simp only [bind_ok, checkTagImmediate_ok, readInit_ok, chargeFor_covered] at h
    obtain ⟨ps, h1, pd, h2, tag, h3, c, ⟨rfl, h4⟩, _, ⟨h5, rfl⟩, h6⟩ := h
    cases h6
    exact ⟨ps, pd, tag, h1, h2, h3, h4, h5, rfl⟩

theorem execToRadixBE_next {ind : BitVec 8} {src radix numLimbs dst : BitVec 16}
    (h : execToRadixBE ind src radix numLimbs dst s = .next t) :
    (∃ ps pr pn pd x r k, slotAddr s.memory ind 0 src = .ok ps ∧ slotAddr s.memory ind 1 radix = .ok pr ∧
      slotAddr s.memory ind 2 numLimbs = .ok pn ∧ slotAddr s.memory ind 3 dst = .ok pd ∧
      readCell s.memory ps = ⟨.field, x⟩ ∧ readCell s.memory pr = ⟨.uint32, r⟩ ∧
      readCell s.memory pn = ⟨.uint32, k⟩ ∧ Covered s .toRadixBE (flagCount ind 4) k ∧ r ≠ 0 ∧
      pd + k ≤ Config.maxMemorySize ∧
      t = ((s.paid .toRadixBE (flagCount ind 4) k).setCells pd
        ((digitsBE x r k).map fun v => ⟨.uint32, v⟩)).advance 10) ∨ Raised s t := by
  unfold execToRadixBE at h
  refine (atFrameBoundary_cases ?_ h).imp (fun h => ?_) id
  · refine raises_bind (raises_slotAddr _ _ _ _) fun _ => raises_bind (raises_slotAddr _ _ _ _) fun _ =>
      raises_bind (raises_slotAddr _ _ _ _) fun _ => raises_bind (raises_slotAddr _ _ _ _) fun _ =>
      raises_bind (raises_checkTag _ _ _) fun _ => raises_bind (raises_checkTag _ _ _) fun _ =>
      raises_bind (raises_checkTag _ _ _) fun _ => raises_bind (raises_chargeFor _ _ _ _ _) fun _ =>
      raises_bind (raises_checkRadix _) fun _ => raises_bind (raises_checkSlice _ _) fun _ => raises_ok _
  · simp only [bind_ok, checkTag_ok (show Tag.field ≠ .uninitialized by decide),
      checkTag_ok (show Tag.uint32 ≠ .uninitialized by decide), chargeFor_covered, checkRadix_ok, checkSlice_ok] at h
    obtain ⟨ps, h1, pr, h2, pn, h3, pd, h4, x, h5, r, h6, k, h7, _, ⟨h8, rfl⟩, _, h9, _, h10, h11⟩ := h
    cases h11
    exact ⟨ps, pr, pn, pd, x, r, k, h1, h2, h3, h4, h5, h6, h7, h8, h9, h10, rfl⟩

/-! ### Memory instructions (43_memory_ops.md R220, R226, R228) -/

theorem setImmediate_next {width : Nat} {ind : BitVec 8} {k : Nat} {dst : BitVec k} {tag : BitVec 8} {value : Nat}
    (h : setImmediate width ind dst tag value s = .next t) :
    (∃ pd tg, slotAddr s.memory ind 0 dst = .ok pd ∧ tagOfImmediate tag = some tg ∧
      Covered s .set (flagCount ind 1) 0 ∧
      t = ((s.paid .set (flagCount ind 1) 0).setCell pd ⟨tg, value % domOf tg⟩).advance width) ∨ Raised s t := by
  unfold setImmediate at h
  refine (atFrameBoundary_cases ?_ h).imp (fun h => ?_) id
  · refine raises_bind (raises_slotAddr _ _ _ _) fun _ => raises_bind (raises_checkTagImmediate _) fun _ =>
      raises_bind (raises_chargeFor _ _ _ _ _) fun _ => raises_ok _
  · simp only [bind_ok, checkTagImmediate_ok, chargeFor_covered] at h
    obtain ⟨pd, h1, tg, h2, _, ⟨h3, rfl⟩, h4⟩ := h
    cases h4
    exact ⟨pd, tg, h1, h2, h3, rfl⟩

theorem moveCell_next {width : Nat} {ind : BitVec 8} {k : Nat} {src dst : BitVec k}
    (h : moveCell width ind src dst s = .next t) :
    (∃ ps pd, slotAddr s.memory ind 0 src = .ok ps ∧ slotAddr s.memory ind 1 dst = .ok pd ∧
      (readCell s.memory ps).tag ≠ .uninitialized ∧ Covered s .mov (flagCount ind 2) 0 ∧
      t = ((s.paid .mov (flagCount ind 2) 0).setCell pd (readCell s.memory ps)).advance width) ∨ Raised s t := by
  unfold moveCell at h
  refine (atFrameBoundary_cases ?_ h).imp (fun h => ?_) id
  · refine raises_bind (raises_slotAddr _ _ _ _) fun _ => raises_bind (raises_slotAddr _ _ _ _) fun _ =>
      raises_bind (raises_readInit _ _) fun _ => raises_bind (raises_chargeFor _ _ _ _ _) fun _ => raises_ok _
  · simp only [bind_ok, readInit_ok, chargeFor_covered] at h
    obtain ⟨ps, h1, pd, h2, c, ⟨rfl, h3⟩, _, ⟨h4, rfl⟩, h5⟩ := h
    cases h5
    exact ⟨ps, pd, h1, h2, h3, h4, rfl⟩

theorem execCalldataCopy_next {ind : BitVec 8} {cdOffset copySize dst : BitVec 16}
    (h : execCalldataCopy ind cdOffset copySize dst s = .next t) :
    (∃ po pk pd o k, slotAddr s.memory ind 0 cdOffset = .ok po ∧ slotAddr s.memory ind 1 copySize = .ok pk ∧
      slotAddr s.memory ind 2 dst = .ok pd ∧ readCell s.memory po = ⟨.uint32, o⟩ ∧
      readCell s.memory pk = ⟨.uint32, k⟩ ∧ Covered s .calldataCopy (flagCount ind 3) k ∧
      pd + k ≤ Config.maxMemorySize ∧
      t = ((s.paid .calldataCopy (flagCount ind 3) k).setCells pd (calldataCells s.calldata.val o k)).advance 8) ∨
    Raised s t := by
  unfold execCalldataCopy at h
  refine (atFrameBoundary_cases ?_ h).imp (fun h => ?_) id
  · refine raises_bind (raises_slotAddr _ _ _ _) fun _ => raises_bind (raises_slotAddr _ _ _ _) fun _ =>
      raises_bind (raises_slotAddr _ _ _ _) fun _ => raises_bind (raises_checkTag _ _ _) fun _ =>
      raises_bind (raises_checkTag _ _ _) fun _ => raises_bind (raises_chargeFor _ _ _ _ _) fun _ =>
      raises_bind (raises_checkSlice _ _) fun _ => raises_ok _
  · simp only [bind_ok, checkTag_ok (show Tag.uint32 ≠ .uninitialized by decide), chargeFor_covered,
      checkSlice_ok] at h
    obtain ⟨po, h1, pk, h2, pd, h3, o, h4, k, h5, _, ⟨h6, rfl⟩, _, h7, h8⟩ := h
    cases h8
    exact ⟨po, pk, pd, o, k, h1, h2, h3, h4, h5, h6, h7, rfl⟩

@[simp] theorem calldataCells_length (cd : List FieldElem) (o k : Nat) : (calldataCells cd o k).length = k := by
  induction k generalizing o with
  | zero => rfl
  | succ k ih => simp [calldataCells, ih]

theorem calldataElem_lt (cd : List FieldElem) (i : Nat) : calldataElem cd i < Config.fieldModulus := by
  unfold calldataElem
  split
  · rename_i v _; exact v.isLt
  · decide

theorem cellOk_of_mem_calldataCells {cd : List FieldElem} {o k : Nat} {c : MemCell} (h : c ∈ calldataCells cd o k) :
    cellOk c = true := by
  induction k generalizing o with
  | zero => simp [calldataCells] at h
  | succ k ih =>
    simp only [calldataCells, List.mem_cons] at h
    rcases h with rfl | h
    · exact cellOk_iff.mpr ⟨nofun, calldataElem_lt cd o⟩
    · exact ih h

@[simp] theorem digitsBE_length (x r k : Nat) : (digitsBE x r k).length = k := by
  induction k with
  | zero => rfl
  | succ k ih => simp [digitsBE, ih]

theorem lt_of_mem_digitsBE {x r k d : Nat} (hr : r ≠ 0) (h : d ∈ digitsBE x r k) : d < r := by
  induction k with
  | zero => simp [digitsBE] at h
  | succ k ih =>
    simp only [digitsBE, List.mem_cons] at h
    rcases h with rfl | h
    · exact Nat.mod_lt _ (Nat.pos_of_ne_zero hr)
    · exact ih h

/-! ### Control flow (44_control_flow.md R251 to R254) -/

theorem execJump_next {target : BitVec 32} (h : execJump target s = .next t) :
    (Covered s .jump 0 0 ∧ t = (s.paid .jump 0 0).setPc target) ∨ Raised s t := by
  unfold execJump at h
  refine (atFrameBoundary_cases ?_ h).imp (fun h => ?_) id
  · exact raises_bind (raises_charge _ _ _) fun _ => raises_ok _
  · simp only [bind_ok, chargeFlat_covered] at h
    obtain ⟨_, ⟨h1, rfl⟩, h2⟩ := h
    cases h2
    exact ⟨h1, rfl⟩

theorem execJumpi_next {ind : BitVec 8} {cond : BitVec 16} {target : BitVec 32}
    (h : execJumpi ind cond target s = .next t) :
    (∃ pc, slotAddr s.memory ind 0 cond = .ok pc ∧ (readCell s.memory pc).tag ≠ .uninitialized ∧
      (readCell s.memory pc).tag ≠ .field ∧ Covered s .jumpi (flagCount ind 1) 0 ∧
      t = (if (readCell s.memory pc).value ≠ 0 then (s.paid .jumpi (flagCount ind 1) 0).setPc target
        else (s.paid .jumpi (flagCount ind 1) 0).advance 8)) ∨ Raised s t := by
  unfold execJumpi at h
  refine (atFrameBoundary_cases ?_ h).imp (fun h => ?_) id
  · exact raises_bind (raises_slotAddr _ _ _ _) fun _ => raises_bind (raises_checkIntegral _ _) fun _ =>
      raises_bind (raises_chargeFor _ _ _ _ _) fun _ => raises_ok _
  · simp only [bind_ok, checkIntegral_ok, chargeFor_covered] at h
    obtain ⟨pc, h1, c, ⟨rfl, h2, h3⟩, _, ⟨h4, rfl⟩, h5⟩ := h
    cases h5
    exact ⟨pc, h1, h2, h3, h4, rfl⟩

theorem execInternalCall_next {target : BitVec 32} (h : execInternalCall target s = .next t) :
    (Covered s .internalCall 0 0 ∧ s.callStack.length < Config.callStackCapacity ∧
      t = ((s.paid .internalCall 0 0).setStack (⟨s.pc, s.pc + 5⟩ :: s.callStack)).setPc target) ∨ Raised s t := by
  unfold execInternalCall at h
  refine (atFrameBoundary_cases ?_ h).imp (fun h => ?_) id
  · exact raises_bind (raises_charge _ _ _) fun _ => raises_bind (raises_pushEntry _ _) fun _ => raises_ok _
  · simp only [bind_ok, chargeFlat_covered, pushEntry_ok] at h
    obtain ⟨_, ⟨h1, rfl⟩, _, ⟨h2, rfl⟩, h3⟩ := h
    cases h3
    exact ⟨h1, h2, rfl⟩

theorem execInternalReturn_next (h : execInternalReturn s = .next t) :
    (∃ e rest, s.callStack = e :: rest ∧ Covered s .internalReturn 0 0 ∧
      t = ((s.paid .internalReturn 0 0).setStack rest).setPc e.returnPc) ∨ Raised s t := by
  unfold execInternalReturn at h
  refine (atFrameBoundary_cases ?_ h).imp (fun h => ?_) id
  · exact raises_bind (raises_charge _ _ _) fun _ => raises_bind (raises_popEntry _) fun _ => raises_ok _
  · simp only [bind_ok, chargeFlat_covered, Prod.exists, popEntry_ok] at h
    obtain ⟨_, ⟨h1, rfl⟩, e, rest, h2, h3⟩ := h
    cases h3
    exact ⟨e, rest, h2, h1, rfl⟩

/-! ### Environment and host (45_environment_host.md R280 to R300) -/

theorem execGetEnvVar_next {ind : BitVec 8} {dst : BitVec 16} {var : BitVec 8}
    (h : execGetEnvVar ind dst var s = .next t) :
    (∃ pd c, slotAddr s.memory ind 0 dst = .ok pd ∧ envCell s.env var = some c ∧
      Covered s .getEnvVar (flagCount ind 1) 0 ∧
      t = ((s.paid .getEnvVar (flagCount ind 1) 0).setCell pd c).advance 5) ∨ Raised s t := by
  unfold execGetEnvVar at h
  refine (atFrameBoundary_cases ?_ h).imp (fun h => ?_) id
  · exact raises_bind (raises_slotAddr _ _ _ _) fun _ => raises_bind (raises_checkEnvVar _ _) fun _ =>
      raises_bind (raises_chargeFor _ _ _ _ _) fun _ => raises_ok _
  · simp only [bind_ok, checkEnvVar_ok, chargeFor_covered] at h
    obtain ⟨pd, h1, c, h2, _, ⟨h3, rfl⟩, h4⟩ := h
    cases h4
    exact ⟨pd, c, h1, h2, h3, rfl⟩

/-- An environment register fits the tag it is read with (R280). -/
theorem cellOk_envCell {env : Environment} {var : BitVec 8} {c : MemCell} (h : envCell env var = some c) :
    cellOk c = true := by
  unfold envCell at h
  split at h <;> simp only [Option.some.injEq, reduceCtorEq] at h <;> subst h <;> rw [cellOk_iff] <;>
    refine ⟨nofun, ?_⟩
  all_goals exact Fin.isLt _

theorem execSload_next {ind : BitVec 8} {slot dst : BitVec 16} (h : execSload ind slot dst s = .next t) :
    (∃ pk pd k, slotAddr s.memory ind 0 slot = .ok pk ∧ slotAddr s.memory ind 1 dst = .ok pd ∧
      readCell s.memory pk = ⟨.field, k⟩ ∧ Covered s .sload (flagCount ind 2) 0 ∧
      t = (((s.paid .sload (flagCount ind 2) 0).setHost
        (storageRead s.env.storageAddress (fieldOfNat k) s.host).2).setCell pd
          ⟨.field, (storageRead s.env.storageAddress (fieldOfNat k) s.host).1.val⟩).advance 6) ∨ Raised s t := by
  unfold execSload at h
  refine (atFrameBoundary_cases ?_ h).imp (fun h => ?_) id
  · exact raises_bind (raises_slotAddr _ _ _ _) fun _ => raises_bind (raises_slotAddr _ _ _ _) fun _ =>
      raises_bind (raises_checkTag _ _ _) fun _ => raises_bind (raises_chargeFor _ _ _ _ _) fun _ => raises_ok _
  · simp only [bind_ok, checkTag_ok (show Tag.field ≠ .uninitialized by decide), chargeFor_covered] at h
    obtain ⟨pk, h1, pd, h2, k, h3, _, ⟨h4, rfl⟩, h5⟩ := h
    cases h5
    exact ⟨pk, pd, k, h1, h2, h3, h4, rfl⟩

theorem execSstore_next {ind : BitVec 8} {src slot : BitVec 16} (h : execSstore ind src slot s = .next t) :
    (∃ pv pk v k, slotAddr s.memory ind 0 src = .ok pv ∧ slotAddr s.memory ind 1 slot = .ok pk ∧
      readCell s.memory pv = ⟨.field, v⟩ ∧ readCell s.memory pk = ⟨.field, k⟩ ∧
      Covered s .sstore (flagCount ind 2) 0 ∧
      t = ((s.paid .sstore (flagCount ind 2) 0).setHost
        (storageWrite s.env.storageAddress (fieldOfNat k) (fieldOfNat v) s.host)).advance 6) ∨ Raised s t := by
  unfold execSstore at h
  refine (atFrameBoundary_cases ?_ h).imp (fun h => ?_) id
  · exact raises_bind (raises_slotAddr _ _ _ _) fun _ => raises_bind (raises_slotAddr _ _ _ _) fun _ =>
      raises_bind (raises_checkTag _ _ _) fun _ => raises_bind (raises_checkTag _ _ _) fun _ =>
      raises_bind (raises_chargeFor _ _ _ _ _) fun _ => raises_ok _
  · simp only [bind_ok, checkTag_ok (show Tag.field ≠ .uninitialized by decide), chargeFor_covered] at h
    obtain ⟨pv, h1, pk, h2, v, h3, k, h4, _, ⟨h5, rfl⟩, h6⟩ := h
    cases h6
    exact ⟨pv, pk, v, k, h1, h2, h3, h4, h5, rfl⟩

theorem membershipQuery_next {f : Family} {o : Oracle} {ind : BitVec 8} {key existsDst valueDst : BitVec 16}
    (h : membershipQuery f o ind key existsDst valueDst s = .next t) :
    (∃ pk pe pv k, slotAddr s.memory ind 0 key = .ok pk ∧ slotAddr s.memory ind 1 existsDst = .ok pe ∧
      slotAddr s.memory ind 2 valueDst = .ok pv ∧ readCell s.memory pk = ⟨.field, k⟩ ∧
      Covered s f (flagCount ind 3) 0 ∧
      t = ((((s.paid f (flagCount ind 3) 0).setHost (askOracle o (fieldOfNat k) s.host).2).setCell pe
        (boolCell (askOracle o (fieldOfNat k) s.host).1.1)).setCell pv
          ⟨.field, (askOracle o (fieldOfNat k) s.host).1.2.val⟩).advance 8) ∨ Raised s t := by
  unfold membershipQuery at h
  refine (atFrameBoundary_cases ?_ h).imp (fun h => ?_) id
  · exact raises_bind (raises_slotAddr _ _ _ _) fun _ => raises_bind (raises_slotAddr _ _ _ _) fun _ =>
      raises_bind (raises_slotAddr _ _ _ _) fun _ => raises_bind (raises_checkTag _ _ _) fun _ =>
      raises_bind (raises_chargeFor _ _ _ _ _) fun _ => raises_ok _
  · simp only [bind_ok, checkTag_ok (show Tag.field ≠ .uninitialized by decide), chargeFor_covered] at h
    obtain ⟨pk, h1, pe, h2, pv, h3, k, h4, _, ⟨h5, rfl⟩, h6⟩ := h
    cases h6
    exact ⟨pk, pe, pv, k, h1, h2, h3, h4, h5, rfl⟩

theorem cellOk_boolCell (b : Bool) : cellOk (boolCell b) = true := by cases b <;> decide

@[simp] theorem outputCells_length (n : Nat) (vs : List FieldElem) : (outputCells n vs).length = n := by
  induction n generalizing vs with
  | zero => simp [outputCells]
  | succ n ih => cases vs <;> simp [outputCells, ih]

theorem cellOk_of_mem_outputCells {n : Nat} {vs : List FieldElem} {c : MemCell} (h : c ∈ outputCells n vs) :
    cellOk c = true := by
  induction n generalizing vs with
  | zero => simp [outputCells] at h
  | succ n ih =>
    cases vs with
    | nil =>
      simp only [outputCells, List.mem_cons] at h
      rcases h with rfl | h
      · decide
      · exact ih h
    | cons v vs =>
      simp only [outputCells, List.mem_cons] at h
      rcases h with rfl | h
      · exact cellOk_iff.mpr ⟨nofun, v.isLt⟩
      · exact ih h

/-- Every check of `CALL` passed: what the request is made of. -/
structure CallReady (ind l2Gas daGas addr args argsSize ret success retSize : BitVec 16) (s : State)
    (q : CallRequest) (gl gd c n : Nat) : Prop where
  l2Cell : ∃ p, slotAddr s.memory ind 0 l2Gas = .ok p ∧ readCell s.memory p = ⟨.uint64, gl⟩
  daCell : ∃ p, slotAddr s.memory ind 1 daGas = .ok p ∧ readCell s.memory p = ⟨.uint64, gd⟩
  addrCell : ∃ p, slotAddr s.memory ind 2 addr = .ok p ∧ readCell s.memory p = ⟨.field, c⟩
  sizeCell : ∃ p, slotAddr s.memory ind 4 argsSize = .ok p ∧ readCell s.memory p = ⟨.uint32, n⟩
  argsCells : ∃ p, slotAddr s.memory ind 3 args = .ok p ∧ p + n ≤ Config.maxMemorySize ∧
    (∀ i < n, (readCell s.memory (p + i)).tag ≠ .uninitialized) ∧
    q.args = (List.range n).map fun i => fieldOfNat (readCell s.memory (p + i)).value
  retAddr : slotAddr s.memory ind 5 ret = .ok q.retAddr
  retFits : q.retAddr + retSize.toNat ≤ Config.maxMemorySize
  successAddr : slotAddr s.memory ind 6 success = .ok q.successAddr
  covered : Covered s .call (flagCount ind 7) n
  charged : q.charged = s.paid .call (flagCount ind 7) n
  contract : q.contract = fieldOfNat c
  l2Offer : q.l2Offer = clampOffer gl q.charged.l2Gas
  daOffer : q.daOffer = clampOffer gd q.charged.daGas

theorem callRequest_ok {ind l2Gas daGas addr args argsSize ret success retSize : BitVec 16} {q : CallRequest}
    (h : callRequest ind l2Gas daGas addr args argsSize ret success retSize s = .ok q) :
    ∃ gl gd c n, CallReady ind l2Gas daGas addr args argsSize ret success retSize s q gl gd c n := by
  unfold callRequest at h
  simp only [bind_ok, checkTag_ok (show Tag.field ≠ .uninitialized by decide),
    checkTag_ok (show Tag.uint32 ≠ .uninitialized by decide),
    checkTag_ok (show Tag.uint64 ≠ .uninitialized by decide), chargeFor_covered, checkSlice_ok, readSlice_ok] at h
  obtain ⟨pl, h1, pd, h2, pc, h3, pa, h4, pn, h5, pr, h6, po, h7, gl, h8, gd, h9, c, h10, n, h11, _, ⟨h12, rfl⟩, _, h13,
    _, h14, _, ⟨rfl, h15⟩, h16⟩ := h
  cases h16
  exact ⟨gl, gd, c, n, ⟨pl, h1, h8⟩, ⟨pd, h2, h9⟩, ⟨pc, h3, h10⟩, ⟨pn, h5, h11⟩,
    ⟨pa, h4, h13, h15, by simp [Function.comp_def]⟩, h6, h14, h7, h12, rfl, rfl, rfl, rfl⟩

theorem raises_callRequest (ind l2Gas daGas addr args argsSize ret success retSize : BitVec 16) (s : State) :
    RaisesRuntime (callRequest ind l2Gas daGas addr args argsSize ret success retSize s) :=
  raises_bind (raises_slotAddr _ _ _ _) fun _ => raises_bind (raises_slotAddr _ _ _ _) fun _ =>
    raises_bind (raises_slotAddr _ _ _ _) fun _ => raises_bind (raises_slotAddr _ _ _ _) fun _ =>
    raises_bind (raises_slotAddr _ _ _ _) fun _ => raises_bind (raises_slotAddr _ _ _ _) fun _ =>
    raises_bind (raises_slotAddr _ _ _ _) fun _ => raises_bind (raises_checkTag _ _ _) fun _ =>
    raises_bind (raises_checkTag _ _ _) fun _ => raises_bind (raises_checkTag _ _ _) fun _ =>
    raises_bind (raises_checkTag _ _ _) fun _ => raises_bind (raises_chargeFor _ _ _ _ _) fun _ =>
    raises_bind (raises_checkSlice _ _) fun _ => raises_bind (raises_checkSlice _ _) fun _ =>
    raises_bind (raises_readSlice _ _ _) fun _ => raises_ok _

theorem execCall_next {ind l2Gas daGas addr args argsSize ret success retSize : BitVec 16}
    (h : execCall ind l2Gas daGas addr args argsSize ret success retSize s = .next t) :
    (∃ q a host gl gd c n, CallReady ind l2Gas daGas addr args argsSize ret success retSize s q gl gd c n ∧
      nestedCall q.contract q.args q.l2Offer q.daOffer s.host = (a, host) ∧
      callAnswerOk a q.l2Offer q.daOffer = true ∧ t = finishCall q retSize.toNat a host) ∨ Raised s t := by
  unfold execCall at h
  split at h
  · rename_i e he
    cases h
    exact .inr ⟨e, raises_callRequest _ _ _ _ _ _ _ _ _ _ e he, rfl⟩
  · rename_i q hq
    obtain ⟨gl, gd, c, n, ready⟩ := callRequest_ok hq
    dsimp only at h
    split at h
    · rename_i ok
      cases h
      exact .inl ⟨q, _, _, gl, gd, c, n, ready, rfl, ok, rfl⟩
    · cases h

/-- `CALL` is refused only for an answer that breaks the host's precondition, after every check passed (R273 c). -/
theorem execCall_refused {ind l2Gas daGas addr args argsSize ret success retSize : BitVec 16} {r : Refusal}
    (h : execCall ind l2Gas daGas addr args argsSize ret success retSize s = .refused r) :
    r = .hostAnswerOutOfContract ∧ ∃ q gl gd c n,
      CallReady ind l2Gas daGas addr args argsSize ret success retSize s q gl gd c n ∧
      callAnswerOk (nestedCall q.contract q.args q.l2Offer q.daOffer s.host).1 q.l2Offer q.daOffer = false := by
  unfold execCall at h
  split at h
  · cases h
  · rename_i q hq
    obtain ⟨gl, gd, c, n, ready⟩ := callRequest_ok hq
    dsimp only at h
    split at h
    · cases h
    · rename_i bad
      cases h
      exact ⟨rfl, q, gl, gd, c, n, ready, by simpa using bad⟩

@[simp] theorem freeChildRun_answer (n : Nat) (l2 da : Word64) :
    (freeChildRun n l2 da).answer = freeCallAnswer n l2 da := rfl

theorem journalAfterCall_success {r : ChildRun} {j : List StorageWrite} (h : r.answer.success = true) :
    journalAfterCall r j = r.writes ++ j := if_pos h

theorem journalAfterCall_failure {r : ChildRun} {j : List StorageWrite} (h : r.answer.success = false) :
    journalAfterCall r j = j := by
  unfold journalAfterCall
  rw [h]
  rfl

/-- Everything that `nested_call` does: one request, and the run of the child that is scripted next, or a free one
(R273 c). -/
theorem nestedCall_cases (c : FieldElem) (args : List FieldElem) (l2 da : Word64) (h : HostSide) :
    (∃ r rest, h.childRuns = r :: rest ∧ nestedCall c args l2 da h = (r.answer,
      { h with requests := h.requests ++ [.nestedCall c args l2 da], childRuns := rest,
               journal := journalAfterCall r h.journal })) ∨
    (h.childRuns = [] ∧ nestedCall c args l2 da h = ((freeChildRun h.draws l2 da).answer,
      { h with requests := h.requests ++ [.nestedCall c args l2 da], draws := h.draws + 1,
               journal := journalAfterCall (freeChildRun h.draws l2 da) h.journal })) := by
  unfold nestedCall
  cases hr : h.childRuns with
  | nil => exact .inr ⟨rfl, by simp only [issue, hr]⟩
  | cons r rest => exact .inl ⟨r, rest, rfl, rfl⟩

/-- A free answer meets the host's precondition, so `CALL` is never refused when no answer is scripted (R273 c). -/
theorem freeCallAnswer_ok (n : Nat) (l2 da : Word64) : callAnswerOk (freeCallAnswer n l2 da) l2 da = true := by
  have h : ∀ (x : Nat) (g : Word64), (BitVec.ofNat 64 (x % (g.toNat + 1))).toNat ≤ g.toNat := fun x g => by
    have h1 := Nat.mod_lt x (show 0 < g.toNat + 1 by omega)
    have h2 := g.isLt
    rw [BitVec.toNat_ofNat, Nat.mod_eq_of_lt (by omega)]
    omega
  unfold callAnswerOk
  rw [Bool.and_eq_true, Bool.and_eq_true]
  refine ⟨⟨decide_eq_true (h _ _), decide_eq_true (h _ _)⟩, decide_eq_true ?_⟩
  simp only [freeCallAnswer, List.length_map, List.length_take]
  exact Nat.min_le_left _ _

/-! ### Halting (46_halt.md R310, R311) -/

theorem haltOutput_ok {f : Family} {ind : BitVec 8} {ret size : BitVec 16} {out : List FieldElem}
    (h : haltOutput f ind ret size s = .ok (t, out)) :
    ∃ pr pz n, slotAddr s.memory ind 0 ret = .ok pr ∧ slotAddr s.memory ind 1 size = .ok pz ∧
      readCell s.memory pz = ⟨.uint32, n⟩ ∧ Covered s f (flagCount ind 2) n ∧ pr + n ≤ Config.maxMemorySize ∧
      (∀ i < n, (readCell s.memory (pr + i)).tag ≠ .uninitialized) ∧
      out = (List.range n).map (fun i => fieldOfNat (readCell s.memory (pr + i)).value) ∧
      t = s.paid f (flagCount ind 2) n := by
  unfold haltOutput at h
  simp only [bind_ok, checkTag_ok (show Tag.uint32 ≠ .uninitialized by decide), chargeFor_covered, checkSlice_ok,
    readSlice_ok] at h
  obtain ⟨pr, h1, pz, h2, n, h3, _, ⟨h4, rfl⟩, _, h5, _, ⟨rfl, h6⟩, h7⟩ := h
  cases h7
  exact ⟨pr, pz, n, h1, h2, h3, h4, h5, h6, by simp [Function.comp_def], rfl⟩

theorem raises_haltOutput (f : Family) (ind : BitVec 8) (ret size : BitVec 16) (s : State) :
    RaisesRuntime (haltOutput f ind ret size s) :=
  raises_bind (raises_slotAddr _ _ _ _) fun _ => raises_bind (raises_slotAddr _ _ _ _) fun _ =>
    raises_bind (raises_checkTag _ _ _) fun _ => raises_bind (raises_chargeFor _ _ _ _ _) fun _ =>
    raises_bind (raises_checkSlice _ _) fun _ => raises_bind (raises_readSlice _ _ _) fun _ => raises_ok _

theorem execRet_next {ind : BitVec 8} {ret size : BitVec 16} (h : execRet ind ret size s = .next t) :
    (∃ u out, haltOutput .ret ind ret size s = .ok (u, out) ∧ t = (u.halt false out).advance 6) ∨ Raised s t := by
  unfold execRet at h
  refine (atFrameBoundary_cases ?_ h).imp (fun h => ?_) id
  · exact raises_bind (raises_haltOutput _ _ _ _ _) fun _ => raises_ok _
  · simp only [bind_ok, Prod.exists] at h
    obtain ⟨u, out, h1, h2⟩ := h
    cases h2
    exact ⟨u, out, h1, rfl⟩

theorem execRevert_next {ind : BitVec 8} {ret size : BitVec 16} (h : execRevert ind ret size s = .next t) :
    (∃ u out, haltOutput .revert ind ret size s = .ok (u, out) ∧
      t = ((u.halt true out).setHost (rollback s.host)).advance 6) ∨ Raised s t := by
  unfold execRevert at h
  refine (atFrameBoundary_cases ?_ h).imp (fun h => ?_) id
  · exact raises_bind (raises_haltOutput _ _ _ _ _) fun _ => raises_ok _
  · simp only [bind_ok, Prod.exists] at h
    obtain ⟨u, out, h1, h2⟩ := h
    cases h2
    exact ⟨u, out, h1, rfl⟩

/-! ### A step -/

theorem step_next (h : step s = .next t) : s.halted = false ∧
    ((fetch s = none ∧ t = takeFault (kindOnly .invalidProgramCounter) s) ∨
      ∃ i, fetch s = some i ∧ exec i s = .next t) := by
  unfold step at h
  cases hh : s.halted
  · simp only [hh, Bool.false_eq_true, if_false] at h
    split at h
    · rename_i hf
      cases h
      exact ⟨rfl, .inl ⟨hf, rfl⟩⟩
    · rename_i i hf
      exact ⟨rfl, .inr ⟨i, hf, h⟩⟩
  · simp [hh] at h

end Sys2Proof.Machine
end

