-- ==== Sys2Proof/Laws/Effects.lean ====
section
/-! SUPPORT. What an instruction that does not raise does,
    said once for all of them: `exec_effects`. The claims about every
step (frames, invariants, costs) are read off it. -/

namespace Sys2Proof.Machine

/-! ## Small lemmas of the shared operations -/


theorem chargeFor_of_covered {s : State} {w} {f : Family} {d : BitVec w} {n c : Nat} (h : Covered s f
    (flagCount d n) c) :
  chargeFor f d n c s = .ok (s.paid f (flagCount d n) c) := chargeFor_covered.mpr ⟨h, rfl⟩

theorem instrFlags_slots1 {w} (ind : BitVec w) (a : Nat) : (([(slotMode ind 0,
    a)].map fun o => modeFlags o.1).sum) = flagCount ind 1 := by
  simp [flagCount]

theorem instrFlags_slots2 {w} (ind : BitVec w) (a b : Nat) : (([(slotMode ind 0, a), (slotMode ind 1,
    b)].map fun o => modeFlags o.1).sum) = flagCount ind 2 := by
  simp [flagCount]

theorem instrFlags_slots3 (ind : BitVec 8) (a b c : Nat) : (([(slotMode ind 0, a), (slotMode ind 1, b),
    (slotMode ind 2, c)].map fun o => modeFlags o.1).sum) = flagCount ind 3 := by
  simp [flagCount, Nat.add_assoc]

theorem instrFlags_slots4 {w} (ind : BitVec w) (a b c d: Nat) : (([(slotMode ind 0, a), (slotMode ind 1, b),
    (slotMode ind 2, c), (slotMode ind 3, d)].map fun o => modeFlags o.1).sum) = flagCount ind 4 := by
  simp [flagCount, Nat.add_assoc]

theorem instrFlags_slots7 {w} (ind : BitVec w) (a b c d e f g: Nat) : (([(slotMode ind 0, a), (slotMode ind 1, b),
    (slotMode ind 2, c), (slotMode ind 3, d), (slotMode ind 4, e), (slotMode ind 5, f), (slotMode ind 6,
    g)].map fun o => modeFlags o.1).sum) = flagCount ind 7 := by
  simp [flagCount, Nat.add_assoc]

theorem subIn_eq {t : Tag} {x y : Nat} (hx : x < domOf t) (hy : y < domOf t) :
    subIn t x y = if y ≤ x then x - y else x + domOf t - y := by
  unfold subIn
  split
  · rename_i h
    have : ((x : Int) - y) % (domOf t) = (x - y : Nat) := by
      rw [Int.emod_eq_of_lt] <;> omega
    rw [this]; simp
  · rename_i h
    have : ((x : Int) - y) % (domOf t) = (x + domOf t - y : Nat) := by
      rw [← Int.add_emod_right, Int.emod_eq_of_lt] <;> omega
    rw [this]; simp

theorem digitsBE_eq (x r k : Nat) : digitsBE x r k = (List.range k).map fun j => x / r ^ (k - 1 - j) % r := by
  induction k with
  | zero => rfl
  | succ k ih =>
    rw [digitsBE, ih, List.range_succ_eq_map, List.map_cons, List.map_map]
    simp only [Nat.add_sub_cancel, Nat.sub_zero, List.cons.injEq, true_and]
    apply List.map_congr_left
    intro j hj
    simp only [Function.comp]
    congr 3
    simp at hj; omega

theorem calldataCells_eq (cd : List FieldElem) (o k : Nat) : calldataCells cd o k = (List.range k).map fun j =>
          ⟨.field, if h : o + j < cd.length then cd[o + j].val else 0⟩ := by
  induction k generalizing o with
  | zero => rfl
  | succ k ih =>
    rw [calldataCells, ih, List.range_succ_eq_map, List.map_cons, List.map_map]
    congr 1
    · simp only [calldataElem, Nat.add_zero]
      by_cases h : o < cd.length
      · simp [h]
      · simp [h]
    · apply List.map_congr_left
      intro j hj
      simp only [Function.comp, Nat.succ_eq_add_one, show o + 1 + j = o + (j+1) by omega]

theorem outputCells_eq (n : Nat) (l : List FieldElem) : outputCells n l = (List.range n).map fun j =>
      (⟨.field, if h : j < l.length then l[j].val else 0⟩ : MemCell) := by
  induction n generalizing l with
  | zero => simp [outputCells]
  | succ n ih =>
    cases l with
    | nil => rw [outputCells, ih, List.range_succ_eq_map, List.map_cons, List.map_map]; simp [Function.comp_def]
    | cons v vs =>
      rw [outputCells, ih, List.range_succ_eq_map, List.map_cons, List.map_map]
      simp

theorem fieldOfNat_val (k : FieldElem) : fieldOfNat k.val = k := Fin.ext (Nat.mod_eq_of_lt k.isLt)

theorem readSlice_of_initialized {m : Memory} {a n : Nat} (h : ∀ i < n, (readCell m (a + i)).tag ≠ .uninitialized) :
  readSlice m a n = .ok ((List.range n).map (fun i => (readCell m (a + i)).value)) := readSlice_ok.mpr ⟨rfl, h⟩

theorem clampOffer_toNat (a : Nat) (g : Word64) : (clampOffer a g).toNat = min a g.toNat := by
  unfold clampOffer
  rw [BitVec.toNat_ofNat, Nat.mod_eq_of_lt]
  have := g.isLt; omega

theorem runFor_next {n : Nat} {s u : State} (h : step s = .next u) : runFor (n+1) s = runFor n u := by
  have h' : core.step s = .next u := h
  simp only [runFor, Host.Core.run]
  rw [h']

theorem runFor_refused {n : Nat} {s : State} {r : Refusal} (h : step s = .refused r) : runFor
    (n+1) s = .refused r := by
  have h' : core.step s = .refused r := h
  simp only [runFor, Host.Core.run]
  rw [h']
  first | done | rfl

theorem runFor_fault {n : Nat} {s : State} {r : Fault} (h : step s = .fault r) : runFor (n+1) s = .fault r := by
  have h' : core.step s = .fault r := h
  simp only [runFor, Host.Core.run]
  rw [h']
  first | done | rfl

/-! ## Every effect of an instruction -/

/-- Everything that a step from s to t which runs i and does not raise leaves as it was, and what it may change. -/
structure Effects (i : Instr) (s t : State) : Prop where
  count : ∃ c, sizeCount s.memory i = .ok c ∧ Affords s i c ∧
    (isCall i = false → t.l2Gas = (s.chargedFor i c).l2Gas ∧ t.daGas = (s.chargedFor i c).daGas) ∧
    (isCall i = true → t.l2Gas.toNat ≤ (s.chargedFor i c).l2Gas.toNat ∧ t.daGas.toNat ≤
        (s.chargedFor i c).daGas.toNat)
  err : t.err = s.err
  inputs : t.program = s.program ∧ t.calldata = s.calldata ∧ t.env = s.env ∧ t.l2Allotment = s.l2Allotment ∧
      t.daAllotment = s.daAllotment
  stack : usesStack i = false → t.callStack = s.callStack
  host : usesHost i = false → t.host = s.host
  status : endsFrame i = false → t.halted = s.halted ∧ t.reverted = s.reverted ∧ t.output = s.output
  ret : (∃ a b c, i = .ret a b c) → t.halted = true ∧ t.reverted = false
  rev : (∃ a b c, i = .revert a b c) → t.halted = true ∧ t.reverted = true ∧ t.host = rollback s.host
  pc : setsPc i = false → t.pc = s.pc + BitVec.ofNat 32 (instrWidth i)
  mem : ∃ ranges, storedCells s.memory i = .ok ranges ∧ ∀ a, (∀ r ∈ ranges, ¬ r.Covers a) →
      readCell t.memory a = readCell s.memory a
  wf : Memory.wf s.memory = true → Memory.wf t.memory = true
  init : ∀ a, (readCell s.memory a).tag ≠ .uninitialized → (readCell t.memory a).tag ≠ .uninitialized
  stackok : StackOk s → StackOk t
  wfI : wellFormed i = true
  reqs : ∃ l, l.length ≤ 1 ∧ t.host.requests = s.host.requests ++ l ∧ ((∀ a b c, i ≠ .revert a b c) → l ≠ [.rollback])
  journal : ∀ k, ¬ mayWriteSlot s k i → endsFrame i = false →
      journalValue s.env.storageAddress k t.host.journal = journalValue s.env.storageAddress k s.host.journal

theorem effects_of_host_cell {i : Instr} {s : State} {f : Family} {w : Nat} {ind : BitVec w} {n : Nat} {pd : Nat} {c : MemCell} {width : Nat} {h : HostSide}
   (hf : familyOf i = f) (hfl : instrFlags i = flagCount ind n) (hsz : sizeCount s.memory i = .ok 0)
       (hcov : Covered s f (flagCount ind n) 0)
   (hst : storedCells s.memory i = .ok [⟨pd, 1⟩]) (hwid : instrWidth i = width) (hus : usesStack i = false)
       (hsp : setsPc i = false) (hen : endsFrame i = false) (hic : isCall i = false)
   (huh : usesHost i = false → h = s.host) (hpd : Memory.wf s.memory = true → pd < Config.maxMemorySize)
       (hc : Memory.wf s.memory = true → cellOk c = true)
   (hci : c.tag ≠ .uninitialized) (hwf : wellFormed i = true)
   (hr : ∃ l, l.length ≤ 1 ∧ h.requests = s.host.requests ++ l ∧ l ≠ [.rollback]) (hj : h.journal = s.host.journal) :
   Effects i s ((((s.paid f (flagCount ind n) 0).setHost h).setCell pd c).advance width) := by
  refine ⟨⟨0, hsz, by unfold Affords; rw [hf, hfl]; exact hcov, fun _ => ?_,
      fun h' => by rw [hic] at h'; cases h'⟩, rfl, ⟨rfl, rfl, rfl, rfl, rfl⟩, fun _ => rfl, huh, fun _ => ⟨rfl,
      rfl, rfl⟩, ?_, ?_, fun _ => by rw [hwid]; rfl, ⟨_, hst, fun a ha => ?_⟩, fun h' => ?_, fun a ha => ?_,
      fun h' => ⟨h'.depth, h'.entries⟩, hwf, ?_, ?_⟩
  · simp only [State.chargedFor, hf, hfl]; exact ⟨rfl, rfl⟩
  · rintro ⟨a, b, c, rfl⟩; cases hen
  · rintro ⟨a, b, c, rfl⟩; cases hen
  · have := ha ⟨pd, 1⟩ (by simp)
    simp only [CellRange.Covers] at this
    exact readCell_writeCell_other (by omega)
  · exact wf_writeCell h' (hpd h') (hc h')
  · exact readCell_writeCell_initialized ha hci
  · obtain ⟨l, h1, h2, h3⟩ := hr
    exact ⟨l, h1, h2, fun _ => h3⟩
  · intro k _ _; show journalValue _ _ h.journal = _; rw [hj]

theorem effects_of_one_cell {i : Instr} {s : State} {f : Family} {w : Nat} {ind : BitVec w} {n : Nat} {pd : Nat} {c : MemCell} {width : Nat}
   (hf : familyOf i = f) (hfl : instrFlags i = flagCount ind n) (hsz : sizeCount s.memory i = .ok 0)
       (hcov : Covered s f (flagCount ind n) 0)
   (hst : storedCells s.memory i = .ok [⟨pd, 1⟩]) (hwid : instrWidth i = width) (hus : usesStack i = false)
       (hsp : setsPc i = false) (hen : endsFrame i = false) (hic : isCall i = false)
   (hpd : Memory.wf s.memory = true → pd < Config.maxMemorySize) (hc : Memory.wf s.memory = true → cellOk c = true)
   (hci : c.tag ≠ .uninitialized) (hwf : wellFormed i = true) :
   Effects i s (((s.paid f (flagCount ind n) 0).setCell pd c).advance width) :=
  effects_of_host_cell (h := s.host) hf hfl hsz hcov hst hwid hus hsp hen hic (fun _ => rfl) hpd hc hci hwf ⟨[],
      by simp, by simp, by simp⟩ rfl

theorem oneCell_ok {n k} {m : Memory} {d : BitVec n} {i : Nat} {o : BitVec k} {p : Nat}
    (h : slotAddr m d i o = .ok p) : oneCell m d i o = .ok [⟨p, 1⟩] := by
  simp [oneCell, h]

theorem effects_of_arith {i : Instr} {f : Family} {width : Nat} {classCheck : Tag → Nat → Checked Unit}
    {op : Tag → Nat → Nat → Checked Nat} {ind : BitVec 8} {k : Nat} {a b dst : BitVec k} {s t : State}
    (hk : k ≤ 32)
    (hc : ∀ tag p, RaisesRuntime (classCheck tag p)) (ho : ∀ tag x y, RaisesRuntime (op tag x y))
    (hop : ∀ tag x y r, tag ≠ .uninitialized → x < domOf tag → y < domOf tag → (∃ p, classCheck tag p = .ok ()) →
        op tag x y = .ok r → r < domOf tag)
    (hf : familyOf i = f) (hfl : instrFlags i = flagCount ind 3) (hsz : sizeCount s.memory i = .ok 0)
    (hst : storedCells s.memory i = oneCell s.memory ind 2 dst) (hwid : instrWidth i = width)
        (hus : usesStack i = false) (hsp : setsPc i = false) (hen : endsFrame i = false) (hic : isCall i = false)
        (hwf : wellFormed i = true)
    (h : arithmetic f width classCheck op ind a b dst s = .next t) : Raised s t ∨ Effects i s t := by
  rcases arithmetic_next hc ho h with ⟨pa, pb, pd, tag, x, y, r, e⟩ | h
  · right
    rw [e.after]
    refine effects_of_one_cell hf hfl hsz e.covered (hst.trans (oneCell_ok e.addrDst)) hwid hus hsp hen hic
        (fun h => slotAddr_lt h hk e.addrDst) (fun h => ?_) e.initialized hwf
    exact cellOk_iff.mpr ⟨e.initialized, hop tag x y r e.initialized (wf_cell_lt h e.cellA)
        (wf_cell_lt h e.cellB) ⟨_, e.class_ok⟩ e.result⟩
  · exact .inl h

theorem domOf_pos (t : Tag) : 0 < domOf t := by cases t <;> decide

theorem result_lt_add : ∀ tag x y r, tag ≠ Tag.uninitialized → x < domOf tag → y < domOf tag → (∃ p,
    anyTag tag p = .ok ()) → (Except.ok (addIn tag x y) : Checked Nat) = .ok r → r < domOf tag := by
  intro tag x y r _ _ _ _ h; cases h; exact Nat.mod_lt _ (domOf_pos tag)

theorem result_lt_sub : ∀ tag x y r, tag ≠ Tag.uninitialized → x < domOf tag → y < domOf tag → (∃ p,
    anyTag tag p = .ok ()) → (Except.ok (subIn tag x y) : Checked Nat) = .ok r → r < domOf tag := by
  intro tag x y r _ hx hy _ h; cases h
  rw [subIn_eq hx hy]; split <;> omega

theorem result_lt_mul : ∀ tag x y r, tag ≠ Tag.uninitialized → x < domOf tag → y < domOf tag → (∃ p,
    anyTag tag p = .ok ()) → (Except.ok (mulIn tag x y) : Checked Nat) = .ok r → r < domOf tag := by
  intro tag x y r _ _ _ _ h; cases h; exact Nat.mod_lt _ (domOf_pos tag)

theorem result_lt_div : ∀ tag x y r, tag ≠ Tag.uninitialized → x < domOf tag → y < domOf tag → (∃ p,
    rejectField tag p = .ok ()) → divIn x y = .ok r → r < domOf tag := by
  intro tag x y r _ hx hy _ h; obtain ⟨_, rfl⟩ := divIn_ok.mp h; exact Nat.lt_of_le_of_lt (Nat.div_le_self _ _) hx

theorem result_lt_mod : ∀ tag x y r, tag ≠ Tag.uninitialized → x < domOf tag → y < domOf tag → (∃ p,
    rejectField tag p = .ok ()) → modIn x y = .ok r → r < domOf tag := by
  intro tag x y r _ hx hy _ h; obtain ⟨_, rfl⟩ := modIn_ok.mp h; exact Nat.lt_of_le_of_lt (Nat.mod_le _ _) hx

theorem result_lt_fdiv : ∀ tag x y r, tag ≠ Tag.uninitialized → x < domOf tag → y < domOf tag → (∃ p,
    requireField tag p = .ok ()) → fdivIn x y = .ok r → r < domOf tag := by
  intro tag x y r _ hx hy ⟨p, hp⟩ h; have hr := (fdivIn_ok.mp h).2; rw [hr,
      requireField_ok.mp hp]; exact Nat.mod_lt _ (domOf_pos .field)

theorem tagImmediateOk_of_some {x : BitVec 8} {t} (h : tagOfImmediate x = some t) : tagImmediateOk x = true := by
  by_contra hh
  have : x.toNat = 0 ∨ 7 < x.toNat := by simp [tagImmediateOk] at hh; omega
  rw [tagOfImmediate_none.mpr this] at h; cases h

theorem effects_of_cast {i : Instr} {width : Nat} {ind : BitVec 8} {k : Nat} {src dst : BitVec k} {dt : BitVec 8} {s t : State} (hk : k ≤ 32)
    (hf : familyOf i = .cast) (hfl : instrFlags i = flagCount ind 2) (hsz : sizeCount s.memory i = .ok 0)
    (hst : storedCells s.memory i = oneCell s.memory ind 1 dst) (hwid : instrWidth i = width)
        (hus : usesStack i = false) (hsp : setsPc i = false) (hen : endsFrame i = false) (hic : isCall i = false)
        (hwf : wellFormed i = tagImmediateOk dt)
    (h : castCell width ind src dst dt s = .next t) : Raised s t ∨ Effects i s t := by
  rcases castCell_next h with ⟨ps, pd, tag, h1, h2, h3, h4, h5, rfl⟩ | h
  · right
    refine effects_of_one_cell hf hfl hsz h5 (hst.trans (oneCell_ok h2)) hwid hus hsp hen hic
        (fun h => slotAddr_lt h hk h2) (fun h => ?_) (tagOfImmediate_initialized h3) (by rw [hwf,
        tagImmediateOk_of_some h3])
    exact cellOk_iff.mpr ⟨tagOfImmediate_initialized h3, Nat.mod_lt _ (domOf_pos _)⟩
  · exact .inl h

theorem effects_of_set {i : Instr} {width : Nat} {ind : BitVec 8} {k : Nat} {dst : BitVec k} {dt : BitVec 8} {v : Nat} {s t : State} (hk : k ≤ 32)
    (hf : familyOf i = .set) (hfl : instrFlags i = flagCount ind 1) (hsz : sizeCount s.memory i = .ok 0)
    (hst : storedCells s.memory i = oneCell s.memory ind 0 dst) (hwid : instrWidth i = width)
        (hus : usesStack i = false) (hsp : setsPc i = false) (hen : endsFrame i = false) (hic : isCall i = false)
        (hwf : wellFormed i = tagImmediateOk dt)
    (h : setImmediate width ind dst dt v s = .next t) : Raised s t ∨ Effects i s t := by
  rcases setImmediate_next h with ⟨pd, tag, h1, h2, h3, rfl⟩ | h
  · right
    refine effects_of_one_cell hf hfl hsz h3 (hst.trans (oneCell_ok h1)) hwid hus hsp hen hic
        (fun h => slotAddr_lt h hk h1) (fun h => ?_) (tagOfImmediate_initialized h2) (by rw [hwf,
        tagImmediateOk_of_some h2])
    exact cellOk_iff.mpr ⟨tagOfImmediate_initialized h2, Nat.mod_lt _ (domOf_pos _)⟩
  · exact .inl h

theorem effects_of_mov {i : Instr} {width : Nat} {ind : BitVec 8} {k : Nat} {src dst : BitVec k} {s t : State}
    (hk : k ≤ 32)
    (hf : familyOf i = .mov) (hfl : instrFlags i = flagCount ind 2) (hsz : sizeCount s.memory i = .ok 0)
    (hst : storedCells s.memory i = oneCell s.memory ind 1 dst) (hwid : instrWidth i = width)
        (hus : usesStack i = false) (hsp : setsPc i = false) (hen : endsFrame i = false) (hic : isCall i = false)
        (hwf : wellFormed i = true)
    (h : moveCell width ind src dst s = .next t) : Raised s t ∨ Effects i s t := by
  rcases moveCell_next h with ⟨ps, pd, h1, h2, h3, h4, rfl⟩ | h
  · right
    refine effects_of_one_cell hf hfl hsz h4 (hst.trans (oneCell_ok h2)) hwid hus hsp hen hic
        (fun h => slotAddr_lt h hk h2) (fun h => ?_) h3 hwf
    rcases wf_readCell h ps with h | h
    · rw [h] at h3; exact absurd rfl h3
    · exact h
  · exact .inl h

theorem effects_of_nomem {i : Instr} {s t : State} {c : Nat} (hsz : sizeCount s.memory i = .ok c)
    (hcov : Affords s i c)
   (hg : t.l2Gas = (s.chargedFor i c).l2Gas ∧ t.daGas = (s.chargedFor i c).daGas) (he : t.err = s.err)
       (hin : t.program = s.program ∧ t.calldata = s.calldata ∧ t.env = s.env ∧ t.l2Allotment = s.l2Allotment ∧
       t.daAllotment = s.daAllotment)
   (hst : usesStack i = false → t.callStack = s.callStack) (hh : t.host = s.host) (hs : t.halted = s.halted ∧
       t.reverted = s.reverted ∧ t.output = s.output)
   (hm : t.memory = s.memory) (hsc : storedCells s.memory i = .ok []) (hen : endsFrame i = false)
       (hic : isCall i = false) (hso : StackOk s → StackOk t) (hwf : wellFormed i = true)
       (hsp : setsPc i = true) : Effects i s t := by
  refine ⟨⟨c, hsz, hcov, fun _ => hg, fun h' => by rw [hic] at h'; cases h'⟩, he, hin, hst, fun _ => hh,
      fun _ => hs, ?_, ?_, fun h => (by rw [hsp] at h; cases h), ⟨_, hsc, fun a ha => by rw [hm]⟩,
      fun h' => by rw [hm]; exact h', fun a ha => by rw [hm]; exact ha, hso, hwf, ⟨[], by simp, by rw [hh]; simp,
      by simp⟩, fun _ _ _ => by rw [hh]⟩
  · rintro ⟨a, b, c, rfl⟩; cases hen
  · rintro ⟨a, b, c, rfl⟩; cases hen

theorem effects_of_oracle {i : Instr} {f : Family} {o : Oracle} {ind : BitVec 8} {key e v : BitVec 16} {s t : State}
    (hf : familyOf i = f) (hfl : instrFlags i = flagCount ind 3) (hsz : sizeCount s.memory i = .ok 0)
    (hst : ∀ pe pv, slotAddr s.memory ind 1 e = .ok pe → slotAddr s.memory ind 2 v = .ok pv →
        storedCells s.memory i = .ok [⟨pe, 1⟩, ⟨pv, 1⟩])
    (hwid : instrWidth i = 8) (hus : usesStack i = false) (hsp : setsPc i = false) (hen : endsFrame i = false)
        (hic : isCall i = false) (hwf : wellFormed i = true) (huh : usesHost i = true)
    (h : membershipQuery f o ind key e v s = .next t) : Raised s t ∨ Effects i s t := by
  rcases membershipQuery_next h with ⟨pk, pe, pv, k, h1, h2, h3, h4, h5, rfl⟩ | h
  · right
    have hreq : (askOracle o (fieldOfNat k) s.host).2.requests = s.host.requests ++ [.membership o
        (fieldOfNat k)] := by
      unfold askOracle; split
      · cases o <;> rfl
      · rfl
    have hj : (askOracle o (fieldOfNat k) s.host).2.journal = s.host.journal := by
      unfold askOracle; split
      · cases o <;> rfl
      · rfl
    refine ⟨⟨0, hsz, by unfold Affords; rw [hf, hfl]; exact h5, fun _ => ?_,
        fun h' => by rw [hic] at h'; cases h'⟩, rfl, ⟨rfl, rfl, rfl, rfl, rfl⟩, fun _ => rfl, fun h =>
        (by rw [huh] at h; cases h), fun _ => ⟨rfl, rfl, rfl⟩, ?_, ?_, fun _ => by rw [hwid]; rfl, ⟨_,
        hst _ _ h2 h3, fun a ha => ?_⟩, fun h' => ?_, fun a ha => ?_, fun h' => ⟨h'.depth, h'.entries⟩, hwf, ⟨[_],
        Nat.le_refl 1, hreq, fun _ => by simp⟩, fun k' _ _ => ?_⟩
    · simp only [State.chargedFor, hf, hfl]; exact ⟨rfl, rfl⟩
    · rintro ⟨a, b, c, rfl⟩; cases hen
    · rintro ⟨a, b, c, rfl⟩; cases hen
    · have h6 := ha ⟨pe, 1⟩ (by simp)
      have h7 := ha ⟨pv, 1⟩ (by simp)
      simp only [CellRange.Covers] at h6 h7
      simp only [State.advance_memory, State.setCell_memory, State.setHost_memory, State.paid_memory]
      rw [readCell_writeCell_other (by omega), readCell_writeCell_other (by omega)]
    · simp only [State.advance_memory, State.setCell_memory, State.setHost_memory, State.paid_memory]
      refine wf_writeCell (wf_writeCell h' (slotAddr_lt h' (by decide) h2) (cellOk_boolCell _)) (slotAddr_lt h'
          (by decide) h3) (cellOk_iff.mpr ⟨by simp, Fin.isLt _⟩)
    · simp only [State.advance_memory, State.setCell_memory, State.setHost_memory, State.paid_memory]
      exact readCell_writeCell_initialized (readCell_writeCell_initialized ha (cellOk_iff.mp
          (cellOk_boolCell _)).1) (by simp)
    · show journalValue _ _ (askOracle o (fieldOfNat k) s.host).2.journal = _
      rw [hj]
  · exact .inl h

theorem effects_of_slice {i : Instr} {s : State} {f : Family} {ind : BitVec 8} {n c pd : Nat} {cs : List MemCell} {width : Nat}
   (hf : familyOf i = f) (hfl : instrFlags i = flagCount ind n) (hsz : sizeCount s.memory i = .ok c)
       (hcov : Covered s f (flagCount ind n) c)
   (hst : storedCells s.memory i = .ok [⟨pd, c⟩]) (hlen : cs.length = c) (hwid : instrWidth i = width)
       (hus : usesStack i = false) (hsp : setsPc i = false) (hen : endsFrame i = false) (hic : isCall i = false)
   (hpd : pd + c ≤ Config.maxMemorySize) (hc : Memory.wf s.memory = true → ∀ x ∈ cs, cellOk x = true)
   (hci : ∀ x ∈ cs, x.tag ≠ .uninitialized) (hwf : wellFormed i = true) :
   Effects i s (((s.paid f (flagCount ind n) c).setCells pd cs).advance width) := by
  refine ⟨⟨c, hsz, by unfold Affords; rw [hf, hfl]; exact hcov, fun _ => ?_,
      fun h' => by rw [hic] at h'; cases h'⟩, rfl, ⟨rfl, rfl, rfl, rfl, rfl⟩, fun _ => rfl, fun _ => rfl,
      fun _ => ⟨rfl, rfl, rfl⟩, ?_, ?_, fun _ => by rw [hwid]; rfl, ⟨_, hst, fun a ha => ?_⟩, fun h' => ?_,
      fun a ha => ?_, fun h' => ⟨h'.depth, h'.entries⟩, hwf, ⟨[], by simp, by show s.host.requests = _; simp,
      by simp⟩, fun _ _ _ => rfl⟩
  · simp only [State.chargedFor, hf, hfl]; exact ⟨rfl, rfl⟩
  · rintro ⟨a, b, c, rfl⟩; cases hen
  · rintro ⟨a, b, c, rfl⟩; cases hen
  · have := ha ⟨pd, c⟩ (by simp)
    simp only [CellRange.Covers] at this
    exact readCell_writeCells_outside (by omega)
  · exact wf_writeCells h' (by rw [hlen]; exact hpd) (hc h')
  · exact readCell_writeCells_initialized ha hci

theorem exec_effects {i : Instr} {s t : State} (h : exec i s = .next t) : Raised s t ∨ Effects i s t := by
  cases i with
  | add8 ind a b dst =>
    exact effects_of_arith (by decide) raises_anyTag
      (fun _ _ _ => raises_ok _) result_lt_add rfl (by simp only [instrFlags, operands, instrFlags_slots3]) rfl
      rfl rfl rfl rfl rfl rfl rfl h
  | add16 ind a b dst =>
    exact effects_of_arith (by decide) raises_anyTag
      (fun _ _ _ => raises_ok _) result_lt_add rfl (by simp only [instrFlags, operands, instrFlags_slots3]) rfl
      rfl rfl rfl rfl rfl rfl rfl h
  | sub8 ind a b dst =>
    exact effects_of_arith (by decide) raises_anyTag
      (fun _ _ _ => raises_ok _) result_lt_sub rfl (by simp only [instrFlags, operands, instrFlags_slots3]) rfl
      rfl rfl rfl rfl rfl rfl rfl h
  | sub16 ind a b dst =>
    exact effects_of_arith (by decide) raises_anyTag
      (fun _ _ _ => raises_ok _) result_lt_sub rfl (by simp only [instrFlags, operands, instrFlags_slots3]) rfl
      rfl rfl rfl rfl rfl rfl rfl h
  | mul8 ind a b dst =>
    exact effects_of_arith (by decide) raises_anyTag
      (fun _ _ _ => raises_ok _) result_lt_mul rfl (by simp only [instrFlags, operands, instrFlags_slots3]) rfl
      rfl rfl rfl rfl rfl rfl rfl h
  | mul16 ind a b dst =>
    exact effects_of_arith (by decide) raises_anyTag
      (fun _ _ _ => raises_ok _) result_lt_mul rfl (by simp only [instrFlags, operands, instrFlags_slots3]) rfl
      rfl rfl rfl rfl rfl rfl rfl h
  | div8 ind a b dst =>
    exact effects_of_arith (by decide) raises_rejectField
      (fun _ _ _ => raises_divIn _ _) result_lt_div rfl (by simp only [instrFlags, operands,
      instrFlags_slots3]) rfl rfl rfl rfl rfl rfl rfl rfl h
  | div16 ind a b dst =>
    exact effects_of_arith (by decide) raises_rejectField
      (fun _ _ _ => raises_divIn _ _) result_lt_div rfl (by simp only [instrFlags, operands,
      instrFlags_slots3]) rfl rfl rfl rfl rfl rfl rfl rfl h
  | mod8 ind a b dst =>
    exact effects_of_arith (by decide) raises_rejectField
      (fun _ _ _ => raises_modIn _ _) result_lt_mod rfl (by simp only [instrFlags, operands,
      instrFlags_slots3]) rfl rfl rfl rfl rfl rfl rfl rfl h
  | mod16 ind a b dst =>
    exact effects_of_arith (by decide) raises_rejectField
      (fun _ _ _ => raises_modIn _ _) result_lt_mod rfl (by simp only [instrFlags, operands,
      instrFlags_slots3]) rfl rfl rfl rfl rfl rfl rfl rfl h
  | fdiv8 ind a b dst =>
    exact effects_of_arith (by decide) raises_requireField
      (fun _ _ _ => raises_fdivIn _ _) result_lt_fdiv rfl (by simp only [instrFlags, operands,
      instrFlags_slots3]) rfl rfl rfl rfl rfl rfl rfl rfl h
  | fdiv16 ind a b dst =>
    exact effects_of_arith (by decide) raises_requireField
      (fun _ _ _ => raises_fdivIn _ _) result_lt_fdiv rfl (by simp only [instrFlags, operands,
      instrFlags_slots3]) rfl rfl rfl rfl rfl rfl rfl rfl h
  | cast8 ind src dst dt =>
    exact effects_of_cast (by decide) rfl (by simp only [instrFlags, operands,
      instrFlags_slots2]) rfl rfl rfl rfl rfl rfl rfl rfl h
  | cast16 ind src dst dt =>
    exact effects_of_cast (by decide) rfl (by simp only [instrFlags, operands,
      instrFlags_slots2]) rfl rfl rfl rfl rfl rfl rfl rfl h
  | toRadixBE ind src radix num dst =>
    rcases execToRadixBE_next h with ⟨ps, pr, pn, pd, x, r, k, h1, h2, h3, h4, h5, h6, h7, h8, h9, h10, rfl⟩ | h
    · right
      have hr (hw : Memory.wf s.memory = true) : r < 2 ^ 32 := wf_cell_lt hw h6
      refine effects_of_slice rfl (by simp only [instrFlags, operands, instrFlags_slots4]) ?_ h8 ?_ (by simp)
          rfl rfl rfl rfl rfl h10 ?_ ?_ rfl
      · simp [sizeCount, slotValue, h3, h7]
      · simp [storedCells, slotValue, h3, h4, h7]
      · intro hw x' hx
        obtain ⟨d, hd, rfl⟩ := List.mem_map.mp hx
        exact cellOk_iff.mpr ⟨nofun, Nat.lt_trans (lt_of_mem_digitsBE h9 hd) (hr hw)⟩
      · intro x' hx
        obtain ⟨d, hd, rfl⟩ := List.mem_map.mp hx
        nofun
    · exact .inl h
  | set8 ind dst tag v =>
    exact effects_of_set (by decide) rfl (by simp only [instrFlags, operands,
      instrFlags_slots1]) rfl rfl rfl rfl rfl rfl rfl rfl h
  | set16 ind dst tag v =>
    exact effects_of_set (by decide) rfl (by simp only [instrFlags, operands,
      instrFlags_slots1]) rfl rfl rfl rfl rfl rfl rfl rfl h
  | set32 ind dst tag v =>
    exact effects_of_set (by decide) rfl (by simp only [instrFlags, operands,
      instrFlags_slots1]) rfl rfl rfl rfl rfl rfl rfl rfl h
  | set64 ind dst tag v =>
    exact effects_of_set (by decide) rfl (by simp only [instrFlags, operands,
      instrFlags_slots1]) rfl rfl rfl rfl rfl rfl rfl rfl h
  | set128 ind dst tag v =>
    exact effects_of_set (by decide) rfl (by simp only [instrFlags, operands,
      instrFlags_slots1]) rfl rfl rfl rfl rfl rfl rfl rfl h
  | mov8 ind src dst =>
    exact effects_of_mov (by decide) rfl (by simp only [instrFlags, operands,
      instrFlags_slots2]) rfl rfl rfl rfl rfl rfl rfl rfl h
  | mov16 ind src dst =>
    exact effects_of_mov (by decide) rfl (by simp only [instrFlags, operands,
      instrFlags_slots2]) rfl rfl rfl rfl rfl rfl rfl rfl h
  | calldataCopy ind a b dst =>
    rcases execCalldataCopy_next h with ⟨po, pk, pd, o, k, h1, h2, h3, h4, h5, h6, h7, rfl⟩ | h
    · right
      refine effects_of_slice rfl (by simp only [instrFlags, operands, instrFlags_slots3]) ?_ h6 ?_ (by simp)
          rfl rfl rfl rfl rfl h7 ?_ ?_ rfl
      · simp [sizeCount, slotValue, h2, h5]
      · simp [storedCells, slotValue, h2, h3, h5]
      · intro hw x' hx
        exact cellOk_of_mem_calldataCells hx
      · intro x' hx
        exact (cellOk_iff.mp (cellOk_of_mem_calldataCells hx)).1
    · exact .inl h
  | jump target =>
    rcases execJump_next h with ⟨h1, rfl⟩ | h
    · exact .inr (effects_of_nomem (c := 0) rfl h1 ⟨rfl, rfl⟩ rfl ⟨rfl, rfl, rfl, rfl, rfl⟩ (fun _ => rfl)
        rfl ⟨rfl, rfl, rfl⟩ rfl rfl rfl rfl (fun h => ⟨h.depth, h.entries⟩) rfl rfl)
    · exact .inl h
  | jumpi ind cond target =>
    rcases execJumpi_next h with ⟨pc, h1, h2, h3, h4, rfl⟩ | h
    · right
      have hfl : instrFlags (.jumpi ind cond target) = flagCount ind 1 := by simp only [instrFlags, operands,
          instrFlags_slots1]
      have hcov : Affords s (.jumpi ind cond target) 0 := by unfold Affords; rw [hfl]; exact h4
      split
      · exact (effects_of_nomem (c := 0) rfl hcov (by unfold State.chargedFor; rw [hfl]; exact ⟨rfl, rfl⟩)
          rfl ⟨rfl, rfl, rfl, rfl, rfl⟩ (fun _ => rfl) rfl ⟨rfl, rfl, rfl⟩ rfl rfl rfl rfl (fun h => ⟨h.depth,
          h.entries⟩) rfl rfl)
      · exact (effects_of_nomem (c := 0) rfl hcov (by unfold State.chargedFor; rw [hfl]; exact ⟨rfl, rfl⟩)
          rfl ⟨rfl, rfl, rfl, rfl, rfl⟩ (fun _ => rfl) rfl ⟨rfl, rfl, rfl⟩ rfl rfl rfl rfl (fun h => ⟨h.depth,
          h.entries⟩) rfl rfl)
    · exact .inl h
  | internalCall target =>
    rcases execInternalCall_next h with ⟨h1, h2, rfl⟩ | h
    · refine .inr (effects_of_nomem (c := 0) rfl h1 ⟨rfl, rfl⟩ rfl ⟨rfl, rfl, rfl, rfl, rfl⟩ nofun rfl ⟨rfl, rfl,
        rfl⟩ rfl rfl rfl rfl (fun h => ⟨?_, ?_⟩) rfl rfl)
      · simp; omega
      · intro e he
        simp at he
        rcases he with rfl | he
        · rfl
        · exact h.entries e he
    · exact .inl h
  | internalReturn =>
    rcases execInternalReturn_next h with ⟨e, rest, h1, h2, rfl⟩ | h
    · refine .inr (effects_of_nomem (c := 0) rfl h2 ⟨rfl, rfl⟩ rfl ⟨rfl, rfl, rfl, rfl, rfl⟩ nofun rfl ⟨rfl, rfl,
        rfl⟩ rfl rfl rfl rfl (fun h => ⟨?_, ?_⟩) rfl rfl)
      · have := h.depth; rw [h1] at this; simp at this ⊢; omega
      · intro e' he
        simp at he
        exact h.entries e' (by rw [h1]; simp [he])
    · exact .inl h
  | getEnvVar ind dst var =>
    rcases execGetEnvVar_next h with ⟨pd, c, h1, h2, h3, rfl⟩ | h
    · right
      refine effects_of_one_cell rfl (by simp only [instrFlags, operands, instrFlags_slots1]) rfl h3
          (oneCell_ok h1) rfl rfl rfl rfl rfl (fun h => slotAddr_lt h (by decide) h1) (fun _ => cellOk_envCell h2)
          (cellOk_iff.mp (cellOk_envCell h2)).1 ?_
      by_contra hh
      have : 12 < var.toNat := by simp [wellFormed, varImmediateOk] at hh; exact hh
      rw [envCell_none.mpr this] at h2; cases h2
    · exact .inl h
  | sload ind slot dst =>
    rcases execSload_next h with ⟨pk, pd, k, h1, h2, h3, h4, rfl⟩ | h
    · right
      refine effects_of_host_cell rfl (by simp only [instrFlags, operands, instrFlags_slots2]) rfl h4
          (oneCell_ok h2) rfl rfl rfl rfl rfl nofun (fun h => slotAddr_lt h (by decide) h2)
          (fun _ => cellOk_iff.mpr ⟨nofun, Fin.isLt _⟩) nofun rfl ⟨[.storageRead s.env.storageAddress
          (fieldOfNat k)], Nat.le_refl 1, ?_, by simp⟩ ?_
      all_goals
        unfold storageRead; split
        · rfl
        · split <;> rfl
    · exact .inl h
  | sstore ind src slot =>
    rcases execSstore_next h with ⟨pv, pk, v, k, h1, h2, h3, h4, h5, rfl⟩ | h
    · right
      have hfl : instrFlags (.sstore ind src slot) = flagCount ind 2 := by simp only [instrFlags, operands,
          instrFlags_slots2]
      refine ⟨⟨0, rfl, by unfold Affords; rw [hfl]; exact h5, fun _ => ?_, nofun⟩, rfl, ⟨rfl, rfl, rfl, rfl, rfl⟩,
          fun _ => rfl, nofun, fun _ => ⟨rfl, rfl, rfl⟩, nofun, nofun, fun _ => rfl, ⟨_, rfl, fun a ha => rfl⟩,
          fun h' => h', fun a ha => ha, fun h' => ⟨h'.depth, h'.entries⟩, rfl, ⟨[_], Nat.le_refl 1, rfl,
          fun _ => by simp⟩, ?_⟩
      · unfold State.chargedFor; rw [hfl]; exact ⟨rfl, rfl⟩
      · intro k' hk' _
        show journalValue _ _ (_ :: _) = _
        rw [journalValue, if_neg]
        rintro ⟨_, rfl⟩
        exact hk' ⟨pk, h2, by rw [h4]⟩
    · exact .inl h
  | noteHashExists ind key e v =>
    exact effects_of_oracle rfl (by simp only [instrFlags, operands,
      instrFlags_slots3]) rfl (fun pe pv h1 h2 => by simp [storedCells, h1, h2]) rfl rfl rfl rfl rfl rfl rfl h
  | nullifierExists ind key e v =>
    exact effects_of_oracle rfl (by simp only [instrFlags, operands,
      instrFlags_slots3]) rfl (fun pe pv h1 h2 => by simp [storedCells, h1, h2]) rfl rfl rfl rfl rfl rfl rfl h
  | l1ToL2MsgExists ind key e v =>
    exact effects_of_oracle rfl (by simp only [instrFlags, operands,
      instrFlags_slots3]) rfl (fun pe pv h1 h2 => by simp [storedCells, h1, h2]) rfl rfl rfl rfl rfl rfl rfl h
  | call ind l2Gas daGas addr args argsSize ret success retSize =>
    rcases execCall_next h with ⟨q, a, host, gl, gd, c, n, e, hn, hok, rfl⟩ | h
    · right
      have hfl : instrFlags (.call ind l2Gas daGas addr args argsSize ret success retSize) = flagCount ind 7 :=
          by simp only [instrFlags, operands, instrFlags_slots7]
      have hreq : host.requests = s.host.requests ++ [.nestedCall q.contract q.args q.l2Offer q.daOffer] := by
        unfold nestedCall at hn; split at hn <;> cases hn <;> rfl
      obtain ⟨pn, hn1, hn2⟩ := e.sizeCell
      simp only [callAnswerOk, Bool.and_eq_true, decide_eq_true_eq] at hok
      have hsc : storedCells s.memory (.call ind l2Gas daGas addr args argsSize ret success retSize) =
          .ok [⟨q.retAddr, retSize.toNat⟩, ⟨q.successAddr, 1⟩] := by
        simp [storedCells, e.retAddr, e.successAddr]
      have c1 := clampOffer_toNat gl q.charged.l2Gas
      have c2 := clampOffer_toNat gd q.charged.daGas
      rw [← e.l2Offer] at c1
      rw [← e.daOffer] at c2
      refine ⟨⟨n, by simp [sizeCount, slotValue, hn1, hn2], by unfold Affords; rw [hfl]; exact e.covered, nofun,
          fun _ => ?_⟩, ?_, ?_, ?_, nofun, fun _ => ?_, nofun, nofun, fun _ => ?_, ⟨_, hsc, fun b hb => ?_⟩, fun h' => ?_, fun b hb => ?_, fun h' => ?_, rfl, ⟨[_],
          Nat.le_refl 1, hreq, fun _ => by simp⟩, ?_⟩
      · simp only [finishCall, State.advance_l2Gas, State.setCell_l2Gas, State.setCells_l2Gas, State.setHost_l2Gas,
          State.setGas_l2Gas, State.advance_daGas, State.setCell_daGas, State.setCells_daGas, State.setHost_daGas,
          State.setGas_daGas, e.charged]
        unfold State.chargedFor; rw [hfl]
        rw [e.charged] at c1 c2
        constructor
        · show (BitVec.toNat (_ - _)) ≤ _
          rw [BitVec.toNat_sub_of_le (by rw [BitVec.le_def]; omega)]; exact Nat.sub_le _ _
        · show (BitVec.toNat (_ - _)) ≤ _
          rw [BitVec.toNat_sub_of_le (by rw [BitVec.le_def]; omega)]; exact Nat.sub_le _ _
      all_goals simp only [finishCall, e.charged]
      · rfl
      · exact ⟨rfl, rfl, rfl, rfl, rfl⟩
      · intro _; rfl
      · exact ⟨rfl, rfl, rfl⟩
      · rfl
      · have h6 := hb ⟨q.retAddr, retSize.toNat⟩ (by simp)
        have h7 := hb ⟨q.successAddr, 1⟩ (by simp)
        simp only [CellRange.Covers] at h6 h7
        simp only [State.advance_memory, State.setCell_memory, State.setCells_memory, State.setHost_memory,
            State.setGas_memory, State.paid_memory]
        rw [readCell_writeCell_other (by omega), readCell_writeCells_outside (by simp; omega)]
      · exact wf_writeCell (wf_writeCells h' (by simp only [outputCells_length]; exact e.retFits)
          (fun x hx => cellOk_of_mem_outputCells hx)) (slotAddr_lt h' (by decide) e.successAddr) (cellOk_boolCell _)
      · exact readCell_writeCell_initialized (readCell_writeCells_initialized hb (fun x hx => (cellOk_iff.mp
          (cellOk_of_mem_outputCells hx)).1)) (cellOk_iff.mp (cellOk_boolCell _)).1
      · exact ⟨h'.depth, h'.entries⟩
      · intro k hk; exact absurd trivial hk
    · exact .inl h
  | ret ind r size =>
    rcases execRet_next h with ⟨u, out, h1, rfl⟩ | h
    · right
      obtain ⟨pr, pz, n, a1, a2, a3, a4, a5, a6, rfl, rfl⟩ := haltOutput_ok h1
      have hfl : instrFlags (.ret ind r size) = flagCount ind 2 := by simp only [instrFlags, operands,
          instrFlags_slots2]
      refine ⟨⟨n, by simp [sizeCount, slotValue, a2, a3], by unfold Affords; rw [hfl]; exact a4, fun _ => ?_,
          nofun⟩, rfl, ⟨rfl, rfl, rfl, rfl, rfl⟩, fun _ => rfl, fun _ => rfl, nofun, fun _ => ⟨rfl, rfl⟩, nofun,
          fun _ => rfl, ⟨_, rfl, fun a ha => rfl⟩, fun h' => h', fun a ha => ha, fun h' => ⟨h'.depth, h'.entries⟩,
          rfl, ⟨[], by simp, by show s.host.requests = _; simp, by simp⟩, nofun⟩
      unfold State.chargedFor; rw [hfl]; exact ⟨rfl, rfl⟩
    · exact .inl h
  | revert ind r size =>
    rcases execRevert_next h with ⟨u, out, h1, rfl⟩ | h
    · right
      obtain ⟨pr, pz, n, a1, a2, a3, a4, a5, a6, rfl, rfl⟩ := haltOutput_ok h1
      have hfl : instrFlags (.revert ind r size) = flagCount ind 2 := by simp only [instrFlags, operands,
          instrFlags_slots2]
      refine ⟨⟨n, by simp [sizeCount, slotValue, a2, a3], by unfold Affords; rw [hfl]; exact a4, fun _ => ?_,
          nofun⟩, rfl, ⟨rfl, rfl, rfl, rfl, rfl⟩, fun _ => rfl, nofun, nofun, nofun, fun _ => ⟨rfl, rfl, rfl⟩,
          fun _ => rfl, ⟨_, rfl, fun a ha => rfl⟩, fun h' => h', fun a ha => ha, fun h' => ⟨h'.depth, h'.entries⟩,
          rfl, ⟨[.rollback], by simp, rfl, fun h => absurd rfl (h _ _ _)⟩, nofun⟩
      unfold State.chargedFor; rw [hfl]; exact ⟨rfl, rfl⟩
    · exact .inl h

theorem exec_outcomes (i : Instr) (s : State) : (∃ t, exec i s = .next t) ∨
    (exec i s = .refused .hostAnswerOutOfContract ∧ isCall i = true) := by
  cases i
  case call =>
    show (∃ t, execCall _ _ _ _ _ _ _ _ _ s = .next t) ∨ (execCall _ _ _ _ _ _ _ _ _ s = _ ∧ _)
    cases h : execCall _ _ _ _ _ _ _ _ _ s with
    | next t => exact .inl ⟨t, rfl⟩
    | fault r =>
      unfold execCall at h
      split at h
      · cases h
      · dsimp only at h; split at h <;> cases h
    | refused r => obtain ⟨rfl, _⟩ := execCall_refused h; exact .inr ⟨rfl, rfl⟩
  all_goals
    left
    simp only [exec, execAdd8, execAdd16, execSub8, execSub16, execMul8, execMul16, execDiv8, execDiv16, execMod8,
        execMod16, execFdiv8, execFdiv16, arithmetic, execCast8, execCast16, castCell, execToRadixBE, execSet8,
        execSet16, execSet32, execSet64, execSet128, setImmediate, execMov8, execMov16, moveCell, execCalldataCopy,
        execJump, execJumpi, execInternalCall, execInternalReturn, execGetEnvVar, execSload, execSstore,
        execNoteHashExists, execNullifierExists, execL1ToL2MsgExists, membershipQuery, execRet, execRevert]
    unfold atFrameBoundary
    split <;> exact ⟨_, rfl⟩

end Sys2Proof.Machine
end

