-- ==== Sys2Proof/Laws/Field.lean ====
section
/-! SUPPORT. The arithmetic behind `FDIV` (41_arithmetic.md R181, R184): what square-and-multiply computes, and that the
modulus of the field is prime (00_scope.md R7), by Lucas's criterion down its factors. -/

namespace Sys2Proof.Machine

/-- Square-and-multiply gives the power modulo m, for exponents that the fuel covers. -/
theorem powModFuel_eq (m fuel b e : Nat) (h : e < 2 ^ fuel) : powModFuel m fuel b e = b ^ e % m := by
  induction fuel generalizing b e with
  | zero =>
    obtain rfl : e = 0 := by simpa using h
    simp [powModFuel]
  | succ fuel ih =>
    have hlt : e / 2 < 2 ^ fuel := Nat.div_lt_of_lt_mul (by rw [Nat.pow_succ] at h; omega)
    have hsq : (b * b % m) ^ (e / 2) % m = b ^ (2 * (e / 2)) % m := by
      rw [← Nat.pow_mod, ← pow_two, ← pow_mul]
    unfold powModFuel
    rw [ih _ _ hlt, hsq]
    split
    · rename_i hodd
      rw [Nat.mul_mod_mod, ← Nat.pow_succ', show (2 * (e / 2)).succ = e by omega]
    · rename_i heven
      rw [show 2 * (e / 2) = e by omega]

/-- A prime that divides a product of primes is one of them. -/
theorem mem_of_prime_dvd_prod {q : Nat} (hq : q.Prime) {l : List Nat} (hl : ∀ x ∈ l, x.Prime) (h : q ∣ l.prod) :
    q ∈ l := by
  obtain ⟨x, hx, hd⟩ := (Prime.dvd_prod_iff hq.prime).mp h
  rwa [(Nat.prime_dvd_prime_iff_eq hq (hl x hx)).mp hd]

/-- Lucas's criterion, with the prime factors of p - 1 given and the powers computed by square-and-multiply. -/
theorem prime_of_lucas {p : Nat} (a : Nat) (factors : List Nat) (hprime : ∀ q ∈ factors, q.Prime)
    (hprod : factors.prod = p - 1) (hbig : 2 ≤ p ∧ p < 2 ^ 256) (hone : powModFuel p 256 a (p - 1) = 1)
    (hpow : ∀ q ∈ factors, powModFuel p 256 a ((p - 1) / q) ≠ 1) : p.Prime := by
  have hcast : ∀ e ≤ p - 1, ((a : ZMod p) ^ e = 1 ↔ powModFuel p 256 a e = 1) := fun e he => by
    rw [powModFuel_eq p 256 a e (by omega), ← Nat.cast_pow, ← Nat.cast_one, ZMod.natCast_eq_natCast_iff, Nat.ModEq,
      Nat.mod_eq_of_lt (show 1 < p by omega)]
  refine lucas_primality p (a : ZMod p) ((hcast _ (Nat.le_refl _)).mpr hone) fun q hq hdvd => ?_
  rw [Ne, hcast _ (Nat.div_le_self _ _)]
  exact hpow q (mem_of_prime_dvd_prod hq hprime (hprod ▸ hdvd))

theorem prime_405928799 : Nat.Prime 405928799 := by
  refine prime_of_lucas 22 [2, 11, 3691, 4999] ?_ (by decide +kernel) (by decide +kernel) (by decide +kernel)
    (by decide +kernel)
  simp only [List.forall_mem_cons]
  exact ⟨by norm_num, by norm_num, by norm_num, by norm_num, by simp⟩

theorem prime_639533339 : Nat.Prime 639533339 := by
  refine prime_of_lucas 2 [2, 229, 853, 1637] ?_ (by decide +kernel) (by decide +kernel) (by decide +kernel)
    (by decide +kernel)
  simp only [List.forall_mem_cons]
  exact ⟨by norm_num, by norm_num, by norm_num, by norm_num, by simp⟩

theorem prime_12048837557 : Nat.Prime 12048837557 := by
  refine prime_of_lucas 2 [2, 2, 7, 7, 661, 93001] ?_ (by decide +kernel) (by decide +kernel) (by decide +kernel)
    (by decide +kernel)
  simp only [List.forall_mem_cons]
  exact ⟨by norm_num, by norm_num, by norm_num, by norm_num, by norm_num, by norm_num, by simp⟩

theorem prime_5156902474397 : Nat.Prime 5156902474397 := by
  refine prime_of_lucas 2 [2, 2, 107, 12048837557] ?_ (by decide +kernel) (by decide +kernel) (by decide +kernel)
    (by decide +kernel)
  simp only [List.forall_mem_cons]
  exact ⟨by norm_num, by norm_num, by norm_num, prime_12048837557, by simp⟩

theorem prime_1670836401704629 : Nat.Prime 1670836401704629 := by
  refine prime_of_lucas 2 [2, 2, 3, 3, 3, 3, 5156902474397] ?_ (by decide +kernel) (by decide +kernel) (by decide +kernel)
    (by decide +kernel)
  simp only [List.forall_mem_cons]
  exact ⟨by norm_num, by norm_num, by norm_num, by norm_num, by norm_num, by norm_num, prime_5156902474397, by simp⟩

theorem prime_65865678001877903 : Nat.Prime 65865678001877903 := by
  refine prime_of_lucas 5 [2, 83, 379, 1637, 639533339] ?_ (by decide +kernel) (by decide +kernel) (by decide +kernel)
    (by decide +kernel)
  simp only [List.forall_mem_cons]
  exact ⟨by norm_num, by norm_num, by norm_num, by norm_num, prime_639533339, by simp⟩

theorem prime_13818364434197438864469338081 : Nat.Prime 13818364434197438864469338081 := by
  refine prime_of_lucas 3 [2, 2, 2, 2, 2, 5, 823, 1593227, 65865678001877903] ?_ (by decide +kernel) (by decide +kernel) (by decide +kernel)
    (by decide +kernel)
  simp only [List.forall_mem_cons]
  exact ⟨by norm_num, by norm_num, by norm_num, by norm_num, by norm_num, by norm_num, by norm_num, by norm_num, prime_65865678001877903, by simp⟩

/-- The modulus of the field is prime (00_scope.md R7). -/
theorem fieldModulus_prime : Nat.Prime Config.fieldModulus := by
  refine prime_of_lucas 5 (List.replicate 28 2 ++ [3, 3, 13, 29, 983, 11003, 237073, 405928799, 1670836401704629, 13818364434197438864469338081]) ?_
    (by decide +kernel) (by decide +kernel) (by decide +kernel) (by decide +kernel)
  rw [List.forall_mem_append]
  refine ⟨fun q hq => (List.mem_replicate.mp hq).2 ▸ Nat.prime_two, ?_⟩
  simp only [List.forall_mem_cons]
  exact ⟨by norm_num, by norm_num, by norm_num, by norm_num, by norm_num, by norm_num, by norm_num, prime_405928799,
    prime_1670836401704629, prime_13818364434197438864469338081, by simp⟩

end Sys2Proof.Machine
end

