-- ==== Sys2Proof/Laws/PerInstr.lean ====
section
/-! SUPPORT. Statements for all instructions, proved instruction by instruction: the length of an encoding is the width
that the opcode map gives the instruction (30_encoding.md R91, R101, R105). -/

namespace Sys2Proof.Laws.EncodedWidth

/-- The encoder writes as many bytes as the opcode map says. -/
def Statement (i : Instr) : Prop := (encode i).length = instrWidth i

theorem add8 (indirect a b dst : BitVec 8) : Statement (.add8 indirect a b dst) := by
  simp [Statement, encode, instrWidth]

theorem add16 (indirect : BitVec 8) (a b dst : BitVec 16) : Statement (.add16 indirect a b dst) := by
  simp [Statement, encode, instrWidth]

theorem sub8 (indirect a b dst : BitVec 8) : Statement (.sub8 indirect a b dst) := by
  simp [Statement, encode, instrWidth]

theorem sub16 (indirect : BitVec 8) (a b dst : BitVec 16) : Statement (.sub16 indirect a b dst) := by
  simp [Statement, encode, instrWidth]

theorem mul8 (indirect a b dst : BitVec 8) : Statement (.mul8 indirect a b dst) := by
  simp [Statement, encode, instrWidth]

theorem mul16 (indirect : BitVec 8) (a b dst : BitVec 16) : Statement (.mul16 indirect a b dst) := by
  simp [Statement, encode, instrWidth]

theorem div8 (indirect a b dst : BitVec 8) : Statement (.div8 indirect a b dst) := by
  simp [Statement, encode, instrWidth]

theorem div16 (indirect : BitVec 8) (a b dst : BitVec 16) : Statement (.div16 indirect a b dst) := by
  simp [Statement, encode, instrWidth]

theorem mod8 (indirect a b dst : BitVec 8) : Statement (.mod8 indirect a b dst) := by
  simp [Statement, encode, instrWidth]

theorem mod16 (indirect : BitVec 8) (a b dst : BitVec 16) : Statement (.mod16 indirect a b dst) := by
  simp [Statement, encode, instrWidth]

theorem fdiv8 (indirect a b dst : BitVec 8) : Statement (.fdiv8 indirect a b dst) := by
  simp [Statement, encode, instrWidth]

theorem fdiv16 (indirect : BitVec 8) (a b dst : BitVec 16) : Statement (.fdiv16 indirect a b dst) := by
  simp [Statement, encode, instrWidth]

theorem cast8 (indirect src dst dstTag : BitVec 8) : Statement (.cast8 indirect src dst dstTag) := by
  simp [Statement, encode, instrWidth]

theorem cast16 (indirect : BitVec 8) (src dst : BitVec 16) (dstTag : BitVec 8) :
    Statement (.cast16 indirect src dst dstTag) := by
  simp [Statement, encode, instrWidth]

theorem toRadixBE (indirect : BitVec 8) (src radix numLimbs dst : BitVec 16) :
    Statement (.toRadixBE indirect src radix numLimbs dst) := by
  simp [Statement, encode, instrWidth]

theorem set8 (indirect dst tag value : BitVec 8) : Statement (.set8 indirect dst tag value) := by
  simp [Statement, encode, instrWidth]

theorem set16 (indirect : BitVec 8) (dst : BitVec 16) (tag : BitVec 8) (value : BitVec 16) :
    Statement (.set16 indirect dst tag value) := by
  simp [Statement, encode, instrWidth]

theorem set32 (indirect : BitVec 8) (dst : BitVec 16) (tag : BitVec 8) (value : BitVec 32) :
    Statement (.set32 indirect dst tag value) := by
  simp [Statement, encode, instrWidth]

theorem set64 (indirect : BitVec 8) (dst : BitVec 16) (tag : BitVec 8) (value : BitVec 64) :
    Statement (.set64 indirect dst tag value) := by
  simp [Statement, encode, instrWidth]

theorem set128 (indirect : BitVec 8) (dst : BitVec 16) (tag : BitVec 8) (value : BitVec 128) :
    Statement (.set128 indirect dst tag value) := by
  simp [Statement, encode, instrWidth]

theorem mov8 (indirect src dst : BitVec 8) : Statement (.mov8 indirect src dst) := by
  simp [Statement, encode, instrWidth]

theorem mov16 (indirect : BitVec 8) (src dst : BitVec 16) : Statement (.mov16 indirect src dst) := by
  simp [Statement, encode, instrWidth]

theorem calldataCopy (indirect : BitVec 8) (cdOffset copySize dst : BitVec 16) :
    Statement (.calldataCopy indirect cdOffset copySize dst) := by
  simp [Statement, encode, instrWidth]

theorem jump (target : BitVec 32) : Statement (.jump target) := by
  simp [Statement, encode, instrWidth]

theorem jumpi (indirect : BitVec 8) (cond : BitVec 16) (target : BitVec 32) :
    Statement (.jumpi indirect cond target) := by
  simp [Statement, encode, instrWidth]

theorem internalCall (target : BitVec 32) : Statement (.internalCall target) := by
  simp [Statement, encode, instrWidth]

theorem internalReturn : Statement .internalReturn := by
  simp [Statement, encode, instrWidth]

theorem getEnvVar (indirect : BitVec 8) (dst : BitVec 16) (var : BitVec 8) :
    Statement (.getEnvVar indirect dst var) := by
  simp [Statement, encode, instrWidth]

theorem sload (indirect : BitVec 8) (slot dst : BitVec 16) : Statement (.sload indirect slot dst) := by
  simp [Statement, encode, instrWidth]

theorem sstore (indirect : BitVec 8) (src slot : BitVec 16) : Statement (.sstore indirect src slot) := by
  simp [Statement, encode, instrWidth]

theorem noteHashExists (indirect : BitVec 8) (key existsDst valueDst : BitVec 16) :
    Statement (.noteHashExists indirect key existsDst valueDst) := by
  simp [Statement, encode, instrWidth]

theorem nullifierExists (indirect : BitVec 8) (key existsDst valueDst : BitVec 16) :
    Statement (.nullifierExists indirect key existsDst valueDst) := by
  simp [Statement, encode, instrWidth]

theorem l1ToL2MsgExists (indirect : BitVec 8) (key existsDst valueDst : BitVec 16) :
    Statement (.l1ToL2MsgExists indirect key existsDst valueDst) := by
  simp [Statement, encode, instrWidth]

theorem call (indirect l2Gas daGas addr args argsSize ret success retSize : BitVec 16) :
    Statement (.call indirect l2Gas daGas addr args argsSize ret success retSize) := by
  simp [Statement, encode, instrWidth]

theorem ret (indirect : BitVec 8) (ret size : BitVec 16) : Statement (.ret indirect ret size) := by
  simp [Statement, encode, instrWidth]

theorem revert (indirect : BitVec 8) (ret size : BitVec 16) : Statement (.revert indirect ret size) := by
  simp [Statement, encode, instrWidth]

end Sys2Proof.Laws.EncodedWidth
end

