-- ==== Sys2Proof/Tests/Slice0.lean ====
section
/-! SUPPORT. The model's own tests: refusals of `wellFormed`, the decoding of one word for every constructor, at most two
single steps for each instruction, and for every statement that has hypotheses a state and operands that meet them. The
expected values are those of spec/95_test_vectors.md, 96_test_vectors_compute.md and 97_test_vectors_control_host.md, by
the identifier in each docstring; where there is none the values are computed by hand from the rule named. -/

namespace Sys2Proof.Tests

open Sys2Proof Sys2Proof.Machine

/-! ## `wellFormed` refuses every reserved immediate (30_encoding.md R103, R111) -/

theorem test_refuse_cast8_tag_zero : wellFormed (.cast8 0 1 2 0) = false := by decide
theorem test_refuse_cast8_tag_eight : wellFormed (.cast8 0 1 2 8) = false := by decide
theorem test_refuse_cast16_tag_eight : wellFormed (.cast16 0 1 2 8) = false := by decide
theorem test_refuse_set8_tag_zero : wellFormed (.set8 0 5 0 1) = false := by decide
theorem test_refuse_set16_tag_eight : wellFormed (.set16 0 5 8 1) = false := by decide
theorem test_refuse_set32_tag_max : wellFormed (.set32 0 5 255 1) = false := by decide
theorem test_refuse_set64_tag_zero : wellFormed (.set64 0 5 0 1) = false := by decide
theorem test_refuse_set128_tag_eight : wellFormed (.set128 0 5 8 1) = false := by decide
theorem test_refuse_getEnvVar_thirteen : wellFormed (.getEnvVar 0 7 13) = false := by decide
theorem test_admit_boundaries : (wellFormed (.set8 0 5 1 1) && wellFormed (.cast8 0 1 2 7) && wellFormed (.getEnvVar 0 7 12)) = true := by
  decide

/-- R111: a buffer of 2^32 bytes is too long by one. -/
theorem test_refuse_long_buffer : bufferOk (List.replicate (2 ^ 32) (0 : Byte)) = false := by
  simp only [bufferOk, List.length_replicate]; decide

/-! ## Decoding: one word for each constructor (the table of 95_test_vectors.md section 1.1) -/

theorem test_decode_add8 : decodeProgram [0x00, 0x5A, 0xA1, 0xB2, 0xC3] =
    .ok [(0, .add8 0x5a 0xa1 0xb2 0xc3)] := by decide

theorem test_decode_add16 : decodeProgram [0x01, 0x5A, 0xB2, 0xC3, 0xB3, 0xC4, 0xB4, 0xC5] =
    .ok [(0, .add16 0x5a 0xb2c3 0xb3c4 0xb4c5)] := by decide

theorem test_decode_sub8 : decodeProgram [0x02, 0x5A, 0xA1, 0xB2, 0xC3] =
    .ok [(0, .sub8 0x5a 0xa1 0xb2 0xc3)] := by decide

theorem test_decode_sub16 : decodeProgram [0x03, 0x5A, 0xB2, 0xC3, 0xB3, 0xC4, 0xB4, 0xC5] =
    .ok [(0, .sub16 0x5a 0xb2c3 0xb3c4 0xb4c5)] := by decide

theorem test_decode_mul8 : decodeProgram [0x04, 0x5A, 0xA1, 0xB2, 0xC3] =
    .ok [(0, .mul8 0x5a 0xa1 0xb2 0xc3)] := by decide

theorem test_decode_mul16 : decodeProgram [0x05, 0x5A, 0xB2, 0xC3, 0xB3, 0xC4, 0xB4, 0xC5] =
    .ok [(0, .mul16 0x5a 0xb2c3 0xb3c4 0xb4c5)] := by decide

theorem test_decode_div8 : decodeProgram [0x06, 0x5A, 0xA1, 0xB2, 0xC3] =
    .ok [(0, .div8 0x5a 0xa1 0xb2 0xc3)] := by decide

theorem test_decode_div16 : decodeProgram [0x07, 0x5A, 0xB2, 0xC3, 0xB3, 0xC4, 0xB4, 0xC5] =
    .ok [(0, .div16 0x5a 0xb2c3 0xb3c4 0xb4c5)] := by decide

theorem test_decode_mod8 : decodeProgram [0x08, 0x5A, 0xA1, 0xB2, 0xC3] =
    .ok [(0, .mod8 0x5a 0xa1 0xb2 0xc3)] := by decide

theorem test_decode_mod16 : decodeProgram [0x09, 0x5A, 0xB2, 0xC3, 0xB3, 0xC4, 0xB4, 0xC5] =
    .ok [(0, .mod16 0x5a 0xb2c3 0xb3c4 0xb4c5)] := by decide

theorem test_decode_fdiv8 : decodeProgram [0x0A, 0x5A, 0xA1, 0xB2, 0xC3] =
    .ok [(0, .fdiv8 0x5a 0xa1 0xb2 0xc3)] := by decide

theorem test_decode_fdiv16 : decodeProgram [0x0B, 0x5A, 0xB2, 0xC3, 0xB3, 0xC4, 0xB4, 0xC5] =
    .ok [(0, .fdiv16 0x5a 0xb2c3 0xb3c4 0xb4c5)] := by decide

theorem test_decode_cast8 : decodeProgram [0x0C, 0x5A, 0xA1, 0xB2, 0x04] =
    .ok [(0, .cast8 0x5a 0xa1 0xb2 0x4)] := by decide

theorem test_decode_cast16 : decodeProgram [0x0D, 0x5A, 0xB2, 0xC3, 0xB3, 0xC4, 0x04] =
    .ok [(0, .cast16 0x5a 0xb2c3 0xb3c4 0x4)] := by decide

theorem test_decode_toRadixBE : decodeProgram [0x0E, 0x5A, 0xB2, 0xC3, 0xB3, 0xC4, 0xB4, 0xC5, 0xB5, 0xC6] =
    .ok [(0, .toRadixBE 0x5a 0xb2c3 0xb3c4 0xb4c5 0xb5c6)] := by decide

theorem test_decode_set8 : decodeProgram [0x0F, 0x5A, 0xA1, 0x04, 0xB2] =
    .ok [(0, .set8 0x5a 0xa1 0x4 0xb2)] := by decide

theorem test_decode_set16 : decodeProgram [0x10, 0x5A, 0xB2, 0xC3, 0x04, 0xB3, 0xC4] =
    .ok [(0, .set16 0x5a 0xb2c3 0x4 0xb3c4)] := by decide

theorem test_decode_set32 : decodeProgram [0x11, 0x5A, 0xB2, 0xC3, 0x04, 0xD4, 0xE5, 0xF7, 0x08] =
    .ok [(0, .set32 0x5a 0xb2c3 0x4 0xd4e5f708)] := by decide

theorem test_decode_set64 : decodeProgram [0x12, 0x5A, 0xB2, 0xC3, 0x04, 0x01, 0x02, 0x03, 0x04, 0x05, 0x06, 0x08, 0x09] =
    .ok [(0, .set64 0x5a 0xb2c3 0x4 0x102030405060809)] := by decide

theorem test_decode_set128 : decodeProgram [0x13, 0x5A, 0xB2, 0xC3, 0x04, 0x11, 0x12, 0x13, 0x14, 0x15, 0x16, 0x17, 0x18, 0x19, 0x1A, 0x1B, 0x1C, 0x1D, 0x1E, 0x20, 0x21] =
    .ok [(0, .set128 0x5a 0xb2c3 0x4 0x1112131415161718191a1b1c1d1e2021)] := by decide

theorem test_decode_mov8 : decodeProgram [0x14, 0x5A, 0xA1, 0xB2] =
    .ok [(0, .mov8 0x5a 0xa1 0xb2)] := by decide

theorem test_decode_mov16 : decodeProgram [0x15, 0x5A, 0xB2, 0xC3, 0xB3, 0xC4] =
    .ok [(0, .mov16 0x5a 0xb2c3 0xb3c4)] := by decide

theorem test_decode_calldataCopy : decodeProgram [0x16, 0x5A, 0xB2, 0xC3, 0xB3, 0xC4, 0xB4, 0xC5] =
    .ok [(0, .calldataCopy 0x5a 0xb2c3 0xb3c4 0xb4c5)] := by decide

theorem test_decode_jump : decodeProgram [0x17, 0xD4, 0xE5, 0xF6, 0x07] =
    .ok [(0, .jump 0xd4e5f607)] := by decide

theorem test_decode_jumpi : decodeProgram [0x18, 0x5A, 0xB2, 0xC3, 0xD4, 0xE5, 0xF7, 0x08] =
    .ok [(0, .jumpi 0x5a 0xb2c3 0xd4e5f708)] := by decide

theorem test_decode_internalCall : decodeProgram [0x19, 0xD4, 0xE5, 0xF6, 0x07] =
    .ok [(0, .internalCall 0xd4e5f607)] := by decide

theorem test_decode_internalReturn : decodeProgram [0x1A] =
    .ok [(0, .internalReturn)] := by decide

theorem test_decode_getEnvVar : decodeProgram [0x1B, 0x5A, 0xB2, 0xC3, 0x08] =
    .ok [(0, .getEnvVar 0x5a 0xb2c3 0x8)] := by decide

theorem test_decode_sload : decodeProgram [0x1C, 0x5A, 0xB2, 0xC3, 0xB3, 0xC4] =
    .ok [(0, .sload 0x5a 0xb2c3 0xb3c4)] := by decide

theorem test_decode_sstore : decodeProgram [0x1D, 0x5A, 0xB2, 0xC3, 0xB3, 0xC4] =
    .ok [(0, .sstore 0x5a 0xb2c3 0xb3c4)] := by decide

theorem test_decode_noteHashExists : decodeProgram [0x1E, 0x5A, 0xB2, 0xC3, 0xB3, 0xC4, 0xB4, 0xC5] =
    .ok [(0, .noteHashExists 0x5a 0xb2c3 0xb3c4 0xb4c5)] := by decide

theorem test_decode_nullifierExists : decodeProgram [0x1F, 0x5A, 0xB2, 0xC3, 0xB3, 0xC4, 0xB4, 0xC5] =
    .ok [(0, .nullifierExists 0x5a 0xb2c3 0xb3c4 0xb4c5)] := by decide

theorem test_decode_l1ToL2MsgExists : decodeProgram [0x20, 0x5A, 0xB2, 0xC3, 0xB3, 0xC4, 0xB4, 0xC5] =
    .ok [(0, .l1ToL2MsgExists 0x5a 0xb2c3 0xb3c4 0xb4c5)] := by decide

theorem test_decode_call : decodeProgram [0x21, 0x1B, 0x5A, 0xB2, 0xC3, 0xB3, 0xC4, 0xB4, 0xC5, 0xB5, 0xC6, 0xB6, 0xC7, 0xB7, 0xC8, 0xB8, 0xC9, 0xB9, 0xCA] =
    .ok [(0, .call 0x1b5a 0xb2c3 0xb3c4 0xb4c5 0xb5c6 0xb6c7 0xb7c8 0xb8c9 0xb9ca)] := by decide

theorem test_decode_ret : decodeProgram [0x22, 0x5A, 0xB2, 0xC3, 0xB3, 0xC4] =
    .ok [(0, .ret 0x5a 0xb2c3 0xb3c4)] := by decide

theorem test_decode_revert : decodeProgram [0x23, 0x5A, 0xB2, 0xC3, 0xB3, 0xC4] =
    .ok [(0, .revert 0x5a 0xb2c3 0xb3c4)] := by decide

/-- The host's reading of a table word: bytes in buffer order, the bytes above the table's 8 bits zero. -/
theorem test_decodeTableWord : decodeTableWord 8 0x1A = some .internalReturn ∧ decodeTableWord 8 0x24 = none ∧
    decodeTableWord 40 0x0706051E00 = some (.add8 0x1E 5 6 7) := by decide

/-! ## Single steps -/

/-- A frame right after its start, with the program of these bytes, this memory and this much gas. -/
def frame (bytes : List Byte) (memory : Memory) (l2 da : Nat) : State :=
  { State.reset with
    program := match decodeProgram bytes with
      | .ok prog => prog
      | .error _ => []
    memory := memory
    l2Gas := BitVec.ofNat 64 l2
    daGas := BitVec.ofNat 64 da
    l2Allotment := BitVec.ofNat 64 l2
    daAllotment := BitVec.ofNat 64 da }

/-- What a vector shows of the state after one step: `pc`, both gas counters and some cells; `none` after a fault. -/
def after (s : State) (addrs : List Nat) : Option (Nat × Nat × Nat × List MemCell) :=
  match step s with
  | .next t =>
    if t.err = noError then
      some (t.pc.toNat, t.l2Gas.toNat, t.daGas.toNat, addrs.map (readCell t.memory))
    else none
  | _ => none

/-- The error that one step takes, when the state is the one that R345 gives. -/
def faultOf (s : State) : Option ErrReg :=
  match step s with
  | .next t => if t.err ≠ noError ∧ t = takeFault t.err s then some t.err else none
  | _ => none

/-- V-ADD-2: the sum wraps at 2^8. -/
theorem test_add8_wraps : after (frame [0x00, 0, 1, 2, 3] [(1, ⟨.uint8, 200⟩), (2, ⟨.uint8, 100⟩)] 100 100) [3] =
    some (5, 91, 100, [⟨.uint8, 44⟩]) := by decide

/-- V-TAG-1: the second operand's address is reported, with both tags. -/
theorem test_add8_mismatch : faultOf (frame [0x00, 0, 1, 2, 3] [(1, ⟨.uint32, 5⟩), (2, ⟨.uint64, 7⟩)] 100 100) =
    some ⟨.tagMismatch, 2, 5, 4⟩ := by decide

/-- V-ADR-0's mode bits on `ADD_16`, by R74 and R148: three flags cost 9. -/
theorem test_add16_relative : after (frame [0x01, 0x2A, 0, 1, 0, 2, 0, 3]
    [(0, ⟨.uint32, 1000⟩), (1001, ⟨.uint8, 1⟩), (1002, ⟨.uint8, 2⟩)] 100 100) [1003] =
    some (8, 82, 100, [⟨.uint8, 3⟩]) := by decide

/-- V-ADD-6 -/
theorem test_add16_wraps : after (frame [0x01, 0, 0x01, 0x2C, 0x01, 0x2D, 0x03, 0xE8]
    [(300, ⟨.uint64, 0xffffffffffffffff⟩), (301, ⟨.uint64, 2⟩)] 100 100) [1000] =
    some (8, 91, 100, [⟨.uint64, 1⟩]) := by decide

/-- V-SUB-1 -/
theorem test_sub8_wraps : after (frame [0x02, 0, 1, 2, 3] [(1, ⟨.uint32, 5⟩), (2, ⟨.uint32, 7⟩)] 100 100) [3] =
    some (5, 91, 100, [⟨.uint32, 4294967294⟩]) := by decide

/-- V-SUB-2 -/
theorem test_sub8_field : after (frame [0x02, 0, 1, 2, 3] [(1, ⟨.field, 0⟩), (2, ⟨.field, 1⟩)] 100 100) [3] =
    some (5, 91, 100, [⟨.field, Config.fieldModulus - 1⟩]) := by decide

/-- V-SUB-3 -/
theorem test_sub16_uint1 : after (frame [0x03, 0, 0, 1, 0, 2, 0, 3] [(1, ⟨.uint1, 0⟩), (2, ⟨.uint1, 1⟩)] 100 100) [3] =
    some (8, 91, 100, [⟨.uint1, 1⟩]) := by decide

/-- V-MUL-4 -/
theorem test_mul8_wraps : after (frame [0x04, 0, 1, 2, 3]
    [(1, ⟨.uint128, 0x80000000000000000000000000000003⟩), (2, ⟨.uint128, 2⟩)] 100 100) [3] =
    some (5, 88, 100, [⟨.uint128, 6⟩]) := by decide

/-- V-MUL-3: (P - 1)^2 is 1. -/
theorem test_mul16_field : after (frame [0x05, 0, 0, 1, 0, 2, 0, 3]
    [(1, ⟨.field, Config.fieldModulus - 1⟩), (2, ⟨.field, Config.fieldModulus - 1⟩)] 100 100) [3] =
    some (8, 88, 100, [⟨.field, 1⟩]) := by decide

/-- V-DIV-1 -/
theorem test_div8_floor : after (frame [0x06, 0, 1, 2, 3] [(1, ⟨.uint32, 17⟩), (2, ⟨.uint32, 5⟩)] 100 100) [3] =
    some (5, 85, 100, [⟨.uint32, 3⟩]) := by decide

/-- V-GAS-4: the gas check precedes the zero check. -/
theorem test_div8_gas_first : faultOf (frame [0x06, 0, 1, 2, 3] [(1, ⟨.uint32, 5⟩), (2, ⟨.uint32, 0⟩)] 14 100) =
    some ⟨.outOfGasL2, 0, 0, 0⟩ := by decide

/-- V-DIV-4 -/
theorem test_div16_uint1 : after (frame [0x07, 0, 0, 1, 0, 2, 0, 3] [(1, ⟨.uint1, 1⟩), (2, ⟨.uint1, 1⟩)] 100 100) [3] =
    some (8, 85, 100, [⟨.uint1, 1⟩]) := by decide

/-- V-MOD-1 -/
theorem test_mod8_remainder : after (frame [0x08, 0, 1, 2, 3] [(1, ⟨.uint32, 17⟩), (2, ⟨.uint32, 5⟩)] 100 100) [3] =
    some (5, 85, 100, [⟨.uint32, 2⟩]) := by decide

/-- V-MOD-2 -/
theorem test_mod8_zero : faultOf (frame [0x08, 0, 1, 2, 3] [(1, ⟨.uint8, 17⟩), (2, ⟨.uint8, 0⟩)] 100 100) =
    some ⟨.divisionByZero, 0, 0, 0⟩ := by decide

/-- V-MOD-3 -/
theorem test_mod16_wide : after (frame [0x09, 0, 0, 1, 0, 2, 0, 3]
    [(1, ⟨.uint128, 0xffffffffffffffffffffffffffffffff⟩), (2, ⟨.uint128, 0x10000000000000000⟩)] 100 100) [3] =
    some (8, 85, 100, [⟨.uint128, 0xffffffffffffffff⟩]) := by decide

/-- V-FDIV-1: the inverse of 2. -/
theorem test_fdiv8_half : after (frame [0x0A, 0, 1, 2, 3] [(1, ⟨.field, 1⟩), (2, ⟨.field, 2⟩)] 100 100) [3] =
    some (5, 70, 100,
      [⟨.field, 0x183227397098d014dc2822db40c0ac2e9419f4243cdcb848a1f0fac9f8000001⟩]) := by decide +kernel

/-- V-FDIV-3 -/
theorem test_fdiv8_zero : faultOf (frame [0x0A, 0, 1, 2, 3] [(1, ⟨.field, 6⟩), (2, ⟨.field, 0⟩)] 100 100) =
    some ⟨.divisionByZero, 0, 0, 0⟩ := by decide

/-- V-FDIV-4 -/
theorem test_fdiv16_tag : faultOf (frame [0x0B, 0, 0, 1, 0, 2, 0, 3] [(1, ⟨.uint32, 6⟩), (2, ⟨.uint32, 3⟩)] 100 100) =
    some ⟨.tagMismatch, 1, 4, 7⟩ := by decide

/-- V-FDIV-2's values on `FDIV_16` (R182). -/
theorem test_fdiv16_exact : after (frame [0x0B, 0, 0, 1, 0, 2, 0, 3] [(1, ⟨.field, 6⟩), (2, ⟨.field, 3⟩)] 100 100) [3] =
    some (8, 70, 100, [⟨.field, 2⟩]) := by decide +kernel

/-- V-CAST-1 -/
theorem test_cast8_truncates : after (frame [0x0C, 0, 1, 2, 2] [(1, ⟨.uint32, 74565⟩)] 100 100) [2] =
    some (5, 91, 100, [⟨.uint8, 69⟩]) := by decide

/-- V-CAST-9: the immediate is checked before the source. -/
theorem test_cast8_reserved : faultOf (frame [0x0C, 0, 1, 2, 9] [] 100 100) = some ⟨.invalidImmediate, 0, 0, 0⟩ := by
  decide

/-- V-CAST-3 -/
theorem test_cast16_field : after (frame [0x0D, 0, 0, 1, 0, 2, 6] [(1, ⟨.field, Config.fieldModulus - 1⟩)] 100 100) [2] =
    some (7, 91, 100, [⟨.uint128, 0x2833e84879b9709143e1f593f0000000⟩]) := by decide

/-- V-RDX-1 -/
theorem test_toRadixBE_digits : after (frame [0x0E, 0, 0, 1, 0, 2, 0, 3, 0, 10]
    [(1, ⟨.field, 1234⟩), (2, ⟨.uint32, 10⟩), (3, ⟨.uint32, 6⟩)] 100 100) [10, 11, 12, 13, 14, 15] =
    some (10, 74, 100, [⟨.uint32, 0⟩, ⟨.uint32, 0⟩, ⟨.uint32, 1⟩, ⟨.uint32, 2⟩, ⟨.uint32, 3⟩, ⟨.uint32, 4⟩]) := by
  decide

/-- V-RDX-12: the operands are read before the overlapping destination is written. -/
theorem test_toRadixBE_overlap : after (frame [0x0E, 0, 0, 1, 0, 2, 0, 3, 0, 2]
    [(1, ⟨.field, 6⟩), (2, ⟨.uint32, 2⟩), (3, ⟨.uint32, 3⟩)] 100 100) [2, 3, 4] =
    some (10, 77, 100, [⟨.uint32, 1⟩, ⟨.uint32, 1⟩, ⟨.uint32, 0⟩]) := by decide

/-- V-SET-2 -/
theorem test_set8_reduces : after (frame [0x0F, 0, 5, 1, 3] [] 100 100) [5] = some (5, 94, 100, [⟨.uint1, 1⟩]) := by
  decide

/-- V-SET-11 -/
theorem test_set8_reserved : faultOf (frame [0x0F, 0, 5, 0, 1] [] 100 100) = some ⟨.invalidImmediate, 0, 0, 0⟩ := by
  decide

/-- V-SET-4 -/
theorem test_set16_reduces : after (frame [0x10, 0, 0x01, 0x2C, 2, 0x12, 0x34] [] 100 100) [300] =
    some (7, 94, 100, [⟨.uint8, 52⟩]) := by decide

/-- V-SET-6 -/
theorem test_set32_base : after (frame [0x11, 0, 0, 0, 4, 0xDE, 0xAD, 0xBE, 0xEF] [] 100 100) [0] =
    some (9, 94, 100, [⟨.uint32, 3735928559⟩]) := by decide

/-- V-SET-10 -/
theorem test_set64_reduces : after (frame [0x12, 0, 0, 1, 4, 0, 0, 0, 1, 0, 0, 0, 5] [] 100 100) [1] =
    some (13, 94, 100, [⟨.uint32, 5⟩]) := by decide

/-- V-SET-9 -/
theorem test_set128_field : after (frame [0x13, 0, 0, 1, 7, 0xFF, 0xFF, 0xFF, 0xFF, 0xFF, 0xFF, 0xFF, 0xFF, 0xFF, 0xFF, 0xFF,
    0xFF, 0xFF, 0xFF, 0xFF, 0xFF] [] 100 100) [1] =
    some (21, 94, 100, [⟨.field, 0xffffffffffffffffffffffffffffffff⟩]) := by decide

/-- V-MOV-4 -/
theorem test_mov8_tag : after (frame [0x14, 0, 1, 2] [(1, ⟨.uint1, 1⟩), (2, ⟨.uint128, 5⟩)] 100 100) [2] =
    some (4, 94, 100, [⟨.uint1, 1⟩]) := by decide

/-- V-MOV-3 -/
theorem test_mov8_uninitialized : faultOf (frame [0x14, 0, 1, 2] [] 100 100) = some ⟨.tagUninitialized, 1, 0, 0⟩ := by
  decide

/-- V-ADR-4: `INDIRECT_RELATIVE`. -/
theorem test_mov16_indirect_relative : after (frame [0x15, 3, 0, 5, 0, 0xC8]
    [(0, ⟨.uint32, 100⟩), (5, ⟨.uint32, 40⟩), (7, ⟨.uint64, 3⟩), (40, ⟨.uint8, 1⟩), (105, ⟨.uint32, 7⟩)] 100 100) [200] =
    some (6, 88, 100, [⟨.uint64, 3⟩]) := by decide

/-- V-ADR-11: base plus offset is 2^32 exactly. -/
theorem test_mov16_out_of_range : faultOf (frame [0x15, 2, 0xFF, 0xFF, 0, 0xC8] [(0, ⟨.uint32, 4294901761⟩)] 100 100) =
    some ⟨.relativeAddressOutOfRange, 0, 0, 0⟩ := by decide

/-- The calldata of the vectors V-CDC. -/
def vectorCalldata : Calldata := ⟨[fieldOfNat 11, fieldOfNat 22, fieldOfNat 33, fieldOfNat 44], by decide⟩

/-- V-CDC-2 -/
theorem test_calldataCopy_pads : after { frame [0x16, 0, 0, 1, 0, 2, 0, 10]
    [(1, ⟨.uint32, 2⟩), (2, ⟨.uint32, 4⟩)] 100 100 with calldata := vectorCalldata } [10, 11, 12, 13] =
    some (8, 86, 100, [⟨.field, 33⟩, ⟨.field, 44⟩, ⟨.field, 0⟩, ⟨.field, 0⟩]) := by decide

/-- V-CDC-9: a slice of two cells from the last one does not fit. -/
theorem test_calldataCopy_edge : faultOf { frame [0x16, 0x10, 0, 1, 0, 2, 0, 3]
    [(1, ⟨.uint32, 0⟩), (2, ⟨.uint32, 2⟩), (3, ⟨.uint32, 4294967295⟩)] 100 100 with calldata := vectorCalldata } =
    some ⟨.sliceOutOfRange, 0, 0, 0⟩ := by decide

/-- V-JMP-2: the target is not checked in this step. -/
theorem test_jump_far : after (frame [0x17, 0xFF, 0xFF, 0xFF, 0xFF] [] 100 100) [] = some (4294967295, 97, 100, []) := by
  decide

/-- V-JMP-3 -/
theorem test_jump_gas : faultOf (frame [0x17, 0, 0, 0, 0] [] 2 100) = some ⟨.outOfGasL2, 0, 0, 0⟩ := by decide

/-- V-JMPI-4 -/
theorem test_jumpi_taken : after (frame [0x18, 0, 0, 4, 0, 0, 0, 0x63]
    [(4, ⟨.uint128, 0x80000000000000000000000000000000⟩)] 100 100) [] = some (99, 94, 100, []) := by decide

/-- V-JMPI-5 -/
theorem test_jumpi_field : faultOf (frame [0x18, 0, 0, 4, 0, 0, 0, 0x63] [(4, ⟨.field, 1⟩)] 100 100) =
    some ⟨.tagMismatch, 4, 7, 0⟩ := by decide

/-- V-ICALL-1: what is pushed. -/
theorem test_internalCall_pushes : (match step (frame [0x19, 0, 0, 0, 0x4D] [] 100 100) with
    | .next t => some (t.pc.toNat, t.l2Gas.toNat, t.callStack)
    | _ => none) = some (77, 94, [⟨0, 5⟩]) := by decide

/-- V-IRET-1 -/
theorem test_internalReturn_empty : faultOf (frame [0x1A] [] 100 100) = some ⟨.stackEmpty, 0, 0, 0⟩ := by decide

/-- R254: the top entry's return offset is the new `pc`. -/
theorem test_internalReturn_pops : after { frame [0x1A] [] 100 100 with callStack := [⟨7, 12⟩, ⟨0, 5⟩] } [] =
    some (12, 94, 100, []) := by decide

/-- V-ENV-12 -/
theorem test_getEnvVar_fee : after { frame [0x1B, 0, 0, 7, 11] [] 100 100 with
    env := { zeroEnvironment with feePerDaGas := 9 } } [7] = some (5, 94, 100, [⟨.uint128, 9⟩]) := by decide

/-- V-ENV-14 -/
theorem test_getEnvVar_reserved : faultOf (frame [0x1B, 0, 0, 7, 13] [] 100 100) = some ⟨.invalidImmediate, 0, 0, 0⟩ := by
  decide

/-- V-SLOAD-1, the host's answer 77. -/
theorem test_sload_answer : after { frame [0x1C, 0, 0, 1, 0, 2] [(1, ⟨.field, 5⟩)] 1000 1000 with
    host := { quietHost with storageAnswers := [fieldOfNat 77] } } [2] = some (6, 900, 1000, [⟨.field, 77⟩]) := by decide

/-- V-SLOAD-4 -/
theorem test_sload_gas : faultOf (frame [0x1C, 0, 0, 1, 0, 2] [(1, ⟨.field, 5⟩)] 99 1000) =
    some ⟨.outOfGasL2, 0, 0, 0⟩ := by decide

/-- V-SSTORE-6: both counters are spent exactly; the request is recorded. -/
theorem test_sstore_request : (match step (frame [0x1D, 0, 0, 1, 0, 2] [(1, ⟨.field, 9⟩), (2, ⟨.field, 5⟩)] 200 32) with
    | .next t => some (t.pc.toNat, t.l2Gas.toNat, t.daGas.toNat, t.host.requests)
    | _ => none) = some (6, 0, 0, [.storageWrite (fieldOfNat 0) (fieldOfNat 5) (fieldOfNat 9)]) := by decide

/-- V-SSTORE-2 -/
theorem test_sstore_da : faultOf (frame [0x1D, 0, 0, 1, 0, 2] [(1, ⟨.field, 9⟩), (2, ⟨.field, 5⟩)] 1000 31) =
    some ⟨.outOfGasDA, 0, 0, 0⟩ := by decide

/-- V-NOTE-2: a value comes with the answer that there is no such note. -/
theorem test_noteHashExists_absent : after { frame [0x1E, 0, 0, 1, 0, 2, 0, 3] [(1, ⟨.field, 171⟩)] 1000 1000 with
    host := { quietHost with noteHashAnswers := [(false, fieldOfNat 5)] } } [2, 3] =
    some (8, 900, 1000, [⟨.uint1, 0⟩, ⟨.field, 5⟩]) := by decide

/-- V-NULL-2: the key's own cell is a destination. -/
theorem test_nullifierExists_overlap : after { frame [0x1F, 0, 0, 1, 0, 1, 0, 4] [(1, ⟨.field, 205⟩)] 1000 1000 with
    host := { quietHost with nullifierAnswers := [(true, fieldOfNat (Config.fieldModulus - 1))] } } [1, 4] =
    some (8, 900, 1000, [⟨.uint1, 1⟩, ⟨.field, Config.fieldModulus - 1⟩]) := by decide

/-- V-MSG-1: the value is written second. -/
theorem test_l1ToL2MsgExists_order : after { frame [0x20, 0, 0, 1, 0, 2, 0, 2] [(1, ⟨.field, 1⟩)] 1000 1000 with
    host := { quietHost with l1ToL2Answers := [(true, fieldOfNat 99)] } } [2] =
    some (8, 900, 1000, [⟨.field, 99⟩]) := by decide

/-- The frame of the vectors V-CALL, with one answer of the host, and no write of the child. -/
def callFrame (bytes : List Byte) (a : CallAnswer) : State :=
  { frame bytes [(1, ⟨.uint64, 5000⟩), (2, ⟨.uint64, 100⟩), (3, ⟨.field, 48879⟩), (4, ⟨.uint32, 2⟩), (10, ⟨.field, 7⟩),
      (11, ⟨.uint8, 8⟩)] 1000 500 with
    host := { quietHost with childRuns := [⟨a, []⟩] } }

/-- V-CALL-1 -/
theorem test_call_pads : after (callFrame [0x21, 0, 0, 0, 1, 0, 2, 0, 3, 0, 10, 0, 4, 0, 20, 0, 30, 0, 3]
    ⟨true, [fieldOfNat 42], 200, 10⟩) [20, 21, 22, 30] =
    some (19, 498, 490, [⟨.field, 42⟩, ⟨.field, 0⟩, ⟨.field, 0⟩, ⟨.uint1, 1⟩]) := by decide

/-- V-CALL-5: the success bit is written last. -/
theorem test_call_success_last : after (callFrame [0x21, 0, 0, 0, 1, 0, 2, 0, 3, 0, 10, 0, 4, 0, 20, 0, 21, 0, 3]
    ⟨true, [fieldOfNat 5, fieldOfNat 6, fieldOfNat 7], 0, 0⟩) [20, 21, 22] =
    some (19, 698, 500, [⟨.field, 5⟩, ⟨.uint1, 1⟩, ⟨.field, 7⟩]) := by decide

/-- What a vector shows of a frame that one step halts. -/
def haltOf (s : State) : Option (Nat × Nat × Bool × List Nat × List HostRequest) :=
  match step s with
  | .next t =>
    if t.halted ∧ t.err = noError then
      some (t.pc.toNat, t.l2Gas.toNat, t.reverted, t.output.map Fin.val, t.host.requests)
    else none
  | _ => none

/-- V-RET-1 -/
theorem test_ret_output : haltOf (frame [0x22, 0, 0, 5, 0, 1] [(1, ⟨.uint32, 2⟩), (5, ⟨.uint32, 12⟩), (6, ⟨.field, 9⟩)]
    100 100) = some (6, 88, false, [12, 9], []) := by decide

/-- V-RET-6: a slice of two cells from the last one. -/
theorem test_ret_edge : faultOf (frame [0x22, 1, 0, 5, 0, 1] [(1, ⟨.uint32, 2⟩), (5, ⟨.uint32, 4294967295⟩)] 100 100) =
    some ⟨.sliceOutOfRange, 0, 0, 0⟩ := by decide

/-- V-REV-1 -/
theorem test_revert_output : haltOf (frame [0x23, 0, 0, 5, 0, 1]
    [(1, ⟨.uint32, 2⟩), (5, ⟨.uint32, 12⟩), (6, ⟨.field, 9⟩)] 100 100) =
    some (6, 88, true, [12, 9], [.rollback]) := by decide

/-- V-REV-3 -/
theorem test_revert_size : faultOf (frame [0x23, 0, 0, 5, 0, 1] [] 100 100) = some ⟨.tagUninitialized, 1, 0, 4⟩ := by
  decide

/-- `withFetchWord` makes the next step run the instruction of the word (`JUMP` to 0, 3 L2 gas by R150). -/
theorem test_withFetchWord : after (State.reset.withFetchWord 8 0x17) [] = some (0, 997, 1000, []) := by decide

/-! ## Witnesses: for every statement with hypotheses, a state and operands that meet them, at each clause's boundary -/

/-- `ADD_8` of two cells of one tag. -/
def addFrame : State := frame [0x00, 0, 1, 2, 3] [(1, ⟨.uint8, 200⟩), (2, ⟨.uint8, 100⟩)] 100 100

/-- A frame whose `ADD_8` finds nothing in memory. -/
def bareFrame : State := frame [0x00, 0, 1, 2, 3] [] 100 100

theorem witness_CodecRoundTrip : decodeProgram [0x1A, 0x17, 0, 0, 0, 1] = .ok [(0, .internalReturn), (1, .jump 1)] := by
  decide

/-- The first and the last unassigned byte, after an instruction and before a byte that is never read. -/
theorem witness_UnknownOpcodeRejected : (∀ op ∈ [(0x24 : Byte), 0xFF], 0x24 ≤ op.toNat ∧
      ∃ buffer : Buffer, buffer.val = encodeProgram [.internalReturn] ++ op :: [0]) ∧
    decodeProgram [0x1A, 0x24] = .error (.unknownOpcode 1 0x24) := by
  refine ⟨fun op h => ⟨?_, ⟨encodeProgram [.internalReturn] ++ op :: [0], ?_⟩, rfl⟩, by decide⟩
  · simp only [List.mem_cons, List.not_mem_nil, or_false] at h
    rcases h with rfl | rfl <;> decide
  · simp only [bufferOk, List.length_append, List.length_cons]; decide

/-- One byte and 20 bytes of the 21 of a `SET_128`. -/
theorem witness_TruncationRejected : ∀ k ∈ [1, 20], 0 < k ∧ k < instrWidth (.set128 0 1 6 5) ∧
    ∃ buffer : Buffer, buffer.val = encodeProgram [] ++ (encode (.set128 0 1 6 5)).take k := by
  intro k h
  simp only [List.mem_cons, List.not_mem_nil, or_false] at h
  rcases h with rfl | rfl <;> exact ⟨by decide, by decide, ⟨_, by decide⟩, rfl⟩

theorem witness_InstructionStarts : decodeProgram ([] : List Byte) = .ok [] ∧
    (∃ prog, decodeProgram [0x1A, 0x17, 0, 0, 0, 1] = .ok prog ∧ instrAt prog 1 = some (.jump 1)) ∧
    bufferOk [0x1A, 0x17, 0, 0, 0, 1] = true :=
  ⟨rfl, ⟨_, rfl, rfl⟩, by decide⟩

theorem witness_StepRunsLoadedInstruction :
    addFrame.halted = false ∧ fetch addFrame = some (.add8 0 1 2 3) ∧
    ∃ (t : State) (buffer : Buffer), buffer.val = encodeProgram ([] ++ Instr.jump 0 :: [.internalReturn]) ∧
      State.reset.load buffer = .ok t ∧ t.halted = false ∧ t.pc.toNat = (encodeProgram ([] : List Instr)).length :=
  ⟨rfl, by decide, _, ⟨encodeProgram [.jump 0, .internalReturn], by decide⟩, rfl, rfl, rfl, rfl⟩

/-- `pc` 2 is inside a `JUMP`, `pc` 5 is the end of the program. -/
theorem witness_InvalidProgramCounter (p : Word32) (hp : p = 2 ∨ p = 5) :
    ∃ (t : State) (buffer : Buffer), buffer.val = encodeProgram [.jump 0] ∧
      ({ State.reset with pc := p }).load buffer = .ok t ∧ t.halted = false ∧
      ∀ (before after : List Instr) (i : Instr), [.jump 0] = before ++ i :: after →
        t.pc.toNat ≠ (encodeProgram before).length := by
  refine ⟨_, ⟨encodeProgram [.jump 0], by decide⟩, rfl, rfl, rfl, fun before after i h => ?_⟩
  cases before with
  | nil => rcases hp with rfl | rfl <;> decide
  | cons _ l => cases l <;> cases h

/-- A running frame, a halted one, and a `CALL` whose scripted answer uses one L2 gas more than the 698 it is offered. -/
theorem witness_StepOutcomes : addFrame.halted = false ∧ ({ addFrame with halted := true }).halted = true ∧
    step (callFrame (encode (.call 0 1 2 3 10 4 20 30 3)) ⟨true, [], 699, 0⟩) = .refused .hostAnswerOutOfContract :=
  ⟨rfl, rfl, rfl⟩

theorem statusOk_frame (bytes : List Byte) (m : Memory) (l2 da : Nat) : StatusOk (frame bytes m l2 da) where
  running := fun _ => ⟨rfl, rfl, rfl⟩
  reverted := nofun
  faulted := fun h => absurd rfl h
  payload := fun _ _ => rfl
  noCodecKind := ⟨nofun, nofun⟩

/-- A `RETURN` of one cell. -/
def retFrame : State := frame [0x22, 0, 0, 5, 0, 1] [(1, ⟨.uint32, 1⟩), (5, ⟨.uint32, 12⟩)] 100 100

/-- A `REVERT` of one cell. -/
def revertFrame : State := frame [0x23, 0, 0, 5, 0, 1] [(1, ⟨.uint32, 1⟩), (5, ⟨.uint32, 12⟩)] 100 100

/-- Each of the three ways: `RETURN`, `REVERT` and a fault. -/
theorem witness_ThreeWaysToHalt :
    (StatusOk retFrame ∧ ∃ t, step retFrame = .next t ∧ t.halted = true) ∧
    (StatusOk revertFrame ∧ ∃ t, step revertFrame = .next t ∧ t.halted = true) ∧
    (StatusOk bareFrame ∧ ∃ t, step bareFrame = .next t ∧ t.halted = true) :=
  ⟨⟨statusOk_frame _ _ _ _, _, rfl, rfl⟩, ⟨statusOk_frame _ _ _ _, _, rfl, rfl⟩, statusOk_frame _ _ _ _, _, rfl, rfl⟩

theorem witness_FaultIsConversion : ∃ t, step bareFrame = .next t ∧ bareFrame.err = noError ∧ t.err ≠ noError :=
  ⟨_, rfl, rfl, by decide⟩

theorem witness_ResolverFaultsFirst :
    resolveCached bareFrame.memory none (operands (.add8 0x21 1 2 3)) = .error ⟨.tagUninitialized, 1, 0, 4⟩ := by decide

theorem witness_ReservedImmediateFaults :
    (resolveEach bareFrame.memory (operands (.set8 0 5 0 1)) = .ok [5] ∧ wellFormed (.set8 0 5 0 1) = false) ∧
    (bareFrame.err = noError ∧ ∃ t, exec (.getEnvVar 0 7 13) bareFrame = .next t ∧ t.err.kind = .invalidImmediate) :=
  ⟨by decide, rfl, _, rfl, rfl⟩

/-- Two cells of different tags. -/
def twoTags : Memory := [(1, ⟨.uint8, 1⟩), (2, ⟨.uint16, 1⟩)]

/-- A cell with 17 and one with 0, of this tag. -/
def zeroDivisor (t : Tag) : Memory := [(1, ⟨t, 17⟩), (2, ⟨t, 0⟩)]

theorem witness_ArithmeticTagFaults :
    familyOf (.add8 0 1 2 3) ∈ [Family.add, .sub, .mul, .div, .mod, .fdiv] ∧
    resolveEach [] (operands (.add8 0 1 2 3)) = .ok [1, 2, 3] ∧
    resolveEach [(1, ⟨.uint8, 1⟩)] (operands (.add8 0 1 2 3)) = .ok [1, 2, 3] ∧
    (readCell [] 1).tag = .uninitialized ∧
    ((readCell [(1, ⟨.uint8, 1⟩)] 1).tag ≠ .uninitialized ∧ (readCell [(1, ⟨.uint8, 1⟩)] 2).tag = .uninitialized) ∧
    resolveEach twoTags (operands (.add8 0 1 2 3)) = .ok [1, 2, 3] ∧ (readCell twoTags 1).tag ≠ .uninitialized ∧
    (readCell twoTags 2).tag ≠ .uninitialized ∧ (readCell twoTags 1).tag ≠ (readCell twoTags 2).tag := by decide

/-- One frame for each clause: a `FIELD` `DIV`, an integral `FDIV`, a `DIV` one short of its 15 L2 gas, and a `DIV` that
has exactly 15 and divides by 0. -/
theorem witness_DivisionFaultPriority :
    (familyOf (.div8 0 1 2 3) ∈ [Family.div, .mod, .fdiv] ∧ familyOf (.fdiv8 0 1 2 3) ∈ [Family.div, .mod, .fdiv]) ∧
    (∀ t ∈ [Tag.field, .uint32], resolveEach (zeroDivisor t) (operands (.div8 0 1 2 3)) = .ok [1, 2, 3] ∧
      resolveEach (zeroDivisor t) (operands (.fdiv8 0 1 2 3)) = .ok [1, 2, 3] ∧ readCell (zeroDivisor t) 1 = ⟨t, 17⟩ ∧
      readCell (zeroDivisor t) 2 = ⟨t, 0⟩ ∧ t ≠ .uninitialized) ∧
    (familyOf (.div8 0 1 2 3) = .fdiv ↔ Tag.uint32 = .field) ∧ (familyOf (.fdiv8 0 1 2 3) = .fdiv ↔ Tag.field = .field) ∧
    (frame [] [] 14 0).l2Gas.toNat < costL2 (familyOf (.div8 0 1 2 3)) (instrFlags (.div8 0 1 2 3)) 0 ∧
    Affords (frame [] [] 15 0) (.div8 0 1 2 3) 0 :=
  ⟨by decide, by decide, by decide, by decide, by decide, ⟨by decide, by decide⟩⟩

/-- A failing check of each kind of demand, those before it passing: an uninitialised source, a tag that is not `FIELD`, an
uninitialised size cell, a `FIELD` condition and a second operand of another tag. The addresses are those of the cells. -/
theorem witness_OperandTagFaults :
    (∀ i ∈ [Instr.mov8 0 1 2, .sload 0 1 2, .ret 0 2 1, .jumpi 0 1 9, .add8 0 1 2 3], wellFormed i = true) ∧
    resolveEach [] (operands (.mov8 0 1 2)) = .ok [1, 2] ∧ tagChecks (.mov8 0 1 2) = [] ++ ⟨0, .initialised⟩ :: [] ∧
    ¬ TagCheck.Passes [] [1, 2] ⟨0, .initialised⟩ ∧
    resolveEach twoTags (operands (.sload 0 1 2)) = .ok [1, 2] ∧ tagChecks (.sload 0 1 2) = [] ++ ⟨0, .tagged .field⟩ :: [] ∧
    ¬ TagCheck.Passes twoTags [1, 2] ⟨0, .tagged .field⟩ ∧
    resolveEach [] (operands (.ret 0 2 1)) = .ok [2, 1] ∧ tagChecks (.ret 0 2 1) = [] ++ ⟨1, .tagged .uint32⟩ :: [] ∧
    ¬ TagCheck.Passes [] [2, 1] ⟨1, .tagged .uint32⟩ ∧
    resolveEach (zeroDivisor .field) (operands (.jumpi 0 1 9)) = .ok [1] ∧
    tagChecks (.jumpi 0 1 9) = [] ++ ⟨0, .integral⟩ :: [] ∧ ¬ TagCheck.Passes (zeroDivisor .field) [1] ⟨0, .integral⟩ ∧
    resolveEach twoTags (operands (.add8 0 1 2 3)) = .ok [1, 2, 3] ∧
    tagChecks (.add8 0 1 2 3) = [⟨0, .initialised⟩, ⟨1, .initialised⟩] ++ ⟨1, .sameTagAs 0⟩ :: [] ∧
    (∀ b ∈ [(⟨0, .initialised⟩ : TagCheck), ⟨1, .initialised⟩], b.Passes twoTags [1, 2, 3]) ∧
    ¬ TagCheck.Passes twoTags [1, 2, 3] ⟨1, .sameTagAs 0⟩ := by
  simp only [TagCheck.Passes, List.forall_mem_cons, List.not_mem_nil, false_implies, implies_true]
  decide

theorem witness_ChargeRule : (frame [] [] 8 0).l2Gas.toNat < 9 ∧ (9 ≤ (frame [] [] 9 31).l2Gas.toNat ∧
    (frame [] [] 9 31).daGas.toNat < 32) ∧ (9 ≤ (frame [] [] 9 32).l2Gas.toNat ∧ 32 ≤ (frame [] [] 9 32).daGas.toNat) := by
  decide

theorem witness_CostTableInvariant : 2 ^ 32 - 1 ≤ 2 ^ 32 - 1 := Nat.le_refl _

/-- A `CALL` that completes, for the clause on `CALL`, and an `ADD_8` for the other. -/
theorem witness_CompletedStepPaysCost :
    (addFrame.err = noError ∧ isCall (.add8 0 1 2 3) = false ∧
      ∃ t, exec (.add8 0 1 2 3) addFrame = .next t ∧ t.err = noError) ∧
    (isCall (.call 0 1 2 3 10 4 20 30 3) = true ∧ (callFrame [] ⟨true, [fieldOfNat 42], 200, 10⟩).err = noError ∧
      ∃ t, exec (.call 0 1 2 3 10 4 20 30 3) (callFrame [] ⟨true, [fieldOfNat 42], 200, 10⟩) = .next t ∧
        t.err = noError) :=
  ⟨⟨rfl, rfl, _, rfl, rfl⟩, rfl, rfl, _, rfl, rfl⟩

/-- A `JUMP` one short of its 3 L2 gas, and an `SSTORE` with exactly its 200 L2 gas and one short of its 32 DA gas. -/
theorem witness_OutOfGasOnlyWhenShort :
    (PhasesPass (frame [] [] 2 100) (.jump 0) [] ∧ sizeCount [] (.jump 0) = .ok 0 ∧
      (frame [] [] 2 100).l2Gas.toNat < costL2 .jump (instrFlags (.jump 0)) 0) ∧
    (PhasesPass (frame [] [(1, ⟨.field, 9⟩), (2, ⟨.field, 5⟩)] 200 31) (.sstore 0 1 2) [1, 2] ∧
      costL2 .sstore (instrFlags (.sstore 0 1 2)) 0 ≤ (frame [] [] 200 31).l2Gas.toNat ∧
      (frame [] [] 200 31).daGas.toNat < costDA .sstore (instrFlags (.sstore 0 1 2)) 0) ∧
    (∃ t, exec (.jump 0) (frame [] [] 2 100) = .next t ∧ t.err.kind = .outOfGasL2) ∧
    (∃ t, exec (.sstore 0 1 2) (frame [] [(1, ⟨.field, 9⟩), (2, ⟨.field, 5⟩)] 200 31) = .next t ∧
      t.err.kind = .outOfGasDA) ∧ (frame [] [] 2 100).err = noError :=
  ⟨⟨⟨rfl, rfl, nofun⟩, rfl, by decide⟩,
    ⟨⟨by decide, rfl, fun c hc => by
      simp only [tagChecks, List.mem_cons, List.not_mem_nil, or_false] at hc
      rcases hc with rfl | rfl <;> exact ⟨by decide, rfl⟩⟩, by decide, by decide⟩,
    ⟨_, rfl, rfl⟩, ⟨_, rfl, rfl⟩, rfl⟩

theorem witness_StepKeepsMemory : MemoryOk addFrame ∧ ∃ t, step addFrame = .next t ∧ t.memory ≠ addFrame.memory :=
  ⟨by decide, _, rfl, by decide⟩

theorem witness_StepKeepsStatus : StatusOk addFrame ∧ ∃ t, step addFrame = .next t := ⟨statusOk_frame _ _ _ _, _, rfl⟩

/-- A next state exists when a test of the outcome succeeds. -/
theorem exists_next_of_bool {s : State} {p : State → Prop} [DecidablePred p]
    (h : (match step s with | .next t => decide (p t) | _ => false) = true) : ∃ t, step s = .next t ∧ p t := by
  split at h
  · exact ⟨_, ‹_›, of_decide_eq_true h⟩
  · cases h

/-- A frame one call short of the capacity, at an `INTERNALCALL`. -/
def deepFrame : State := { frame [0x19, 0, 0, 0, 0] [] 100 100 with callStack := List.replicate 1023 ⟨7, 12⟩ }

theorem deepFrame_depth : deepFrame.callStack.length = 1023 := List.length_replicate

theorem witness_StepKeepsStack : StackOk deepFrame ∧ ∃ t, step deepFrame = .next t ∧ t.err = noError := by
  refine ⟨⟨?_, fun e he => ?_⟩, exists_next_of_bool (p := fun t => t.err = noError) (by decide +kernel)⟩
  · rw [deepFrame_depth]; decide
  · rw [List.eq_of_mem_replicate he]; decide

theorem witness_StepKeepsGas : (∃ t, step addFrame = .next t) ∧ GasOk addFrame :=
  ⟨⟨_, rfl⟩, ⟨Nat.le_refl _, Nat.le_refl _⟩⟩

theorem witness_InitializedStaysInitialized : (readCell addFrame.memory 1).tag ≠ .uninitialized ∧
    ∃ t, step addFrame = .next t := ⟨by decide, _, rfl⟩

theorem witness_FrameInputsImmutable : ∃ t, step addFrame = .next t := ⟨_, rfl⟩

/-- For the first clause a frame that runs one step and stays running; for the second a running frame. -/
theorem witness_EveryFrameHalts : (∃ t, runFor 1 addFrame = .next t ∧ t.halted = false) ∧ addFrame.halted = false :=
  ⟨⟨_, rfl, rfl⟩, rfl⟩

/-- The base cell missing, of another tag, and with base plus offset at 2^32 - 1 and at 2^32; a pointer cell missing, of
another tag and `UINT32`, at the offset itself and at base plus offset; an operand that fails before one that resolves. -/
theorem witness_ResolverProperties :
    ((readCell [] 0).tag = .uninitialized ∧ (readCell [(0, ⟨.uint8, 4⟩)] 0).tag ≠ .uninitialized ∧
      (readCell [(0, ⟨.uint8, 4⟩)] 0).tag ≠ .uint32) ∧
    (readCell [(0, ⟨.uint32, 4294901760⟩)] 0 = ⟨.uint32, 4294901760⟩ ∧ 65535 + 4294901760 < 2 ^ 32) ∧
    (readCell [(0, ⟨.uint32, 4294901761⟩)] 0 = ⟨.uint32, 4294901761⟩ ∧ 2 ^ 32 ≤ 65535 + 4294901761) ∧
    (∀ p ∈ [5, 105], let m : Memory := [(0, ⟨.uint32, 100⟩), (p, ⟨.uint32, 40⟩)]
      (readCell [(0, ⟨.uint32, 100⟩)] p).tag = .uninitialized ∧
      (readCell [(0, ⟨.uint32, 100⟩), (p, ⟨.field, 1⟩)] p).tag ≠ .uninitialized ∧
      (readCell [(0, ⟨.uint32, 100⟩), (p, ⟨.field, 1⟩)] p).tag ≠ .uint32 ∧ readCell m p = ⟨.uint32, 40⟩ ∧
      readCell m 0 = ⟨.uint32, 100⟩ ∧ 5 + 100 < 2 ^ 32) ∧
    (resolveCached [] none [(.indirect, 5)] = .error ⟨.tagUninitialized, 5, 0, 4⟩ ∧
      resolveCached [] none [(.direct, 5)] = .ok [5]) := by decide

/-- A destination that resolves, and one that does not. -/
theorem witness_MemoryFrame :
    (∃ t, exec (.add8 0 1 2 3) addFrame = .next t) ∧ storedCells addFrame.memory (.add8 0 1 2 3) = .ok [⟨3, 1⟩] ∧
    ¬ (⟨3, 1⟩ : CellRange).Covers 2 ∧ ¬ (⟨3, 1⟩ : CellRange).Covers 4 ∧
    (∃ t, exec (.add8 0x10 1 2 3) addFrame = .next t) ∧
    storedCells addFrame.memory (.add8 0x10 1 2 3) = .error ⟨.tagUninitialized, 3, 0, 4⟩ :=
  ⟨⟨_, rfl⟩, by decide, by decide, by decide, ⟨_, rfl⟩, by decide⟩

theorem witness_OtherStateFrame : addFrame.err = noError ∧ usesStack (.add8 0 1 2 3) = false ∧
    usesHost (.add8 0 1 2 3) = false ∧ endsFrame (.add8 0 1 2 3) = false ∧
    ∃ t, exec (.add8 0 1 2 3) addFrame = .next t ∧ t.err = noError := ⟨rfl, rfl, rfl, rfl, _, rfl, rfl⟩

theorem witness_PcAdvance : (addFrame.err = noError ∧ ∃ t, exec (.add8 0 1 2 3) addFrame = .next t ∧ t.err = noError ∧
    setsPc (.add8 0 1 2 3) = false) ∧ (bareFrame.err = noError ∧ ∃ t, exec (.add8 0 1 2 3) bareFrame = .next t ∧
    t.err ≠ noError) := ⟨⟨rfl, _, rfl, rfl, rfl⟩, rfl, _, rfl, by decide⟩

theorem witness_InputsReadOnlyByReaders : readsEnv (.add8 0 1 2 3) = false ∧ readsCalldata (.add8 0 1 2 3) = false :=
  ⟨rfl, rfl⟩

/-- The three families, with exactly the gas `ADD` and `SUB` cost (9) and `MUL` costs (12). -/
theorem witness_AddSubMulComplete : MemoryOk addFrame ∧ readCell addFrame.memory 1 = ⟨.uint8, 200⟩ ∧
    readCell addFrame.memory 2 = ⟨.uint8, 100⟩ ∧
    (∀ i ∈ [Instr.add8 0 1 2 3, .sub8 0 1 2 3, .mul8 0 1 2 3, .add16 0 1 2 3, .sub16 0 1 2 3, .mul16 0 1 2 3],
      resolveEach addFrame.memory (operands i) = .ok [1, 2, 3]) ∧
    Affords (frame [] [] 9 0) (.add8 0 1 2 3) 0 ∧ Affords (frame [] [] 9 0) (.sub16 0 1 2 3) 0 ∧
    Affords (frame [] [] 12 0) (.mul8 0 1 2 3) 0 :=
  ⟨by decide, by decide, by decide, by decide, ⟨by decide, by decide⟩, ⟨by decide, by decide⟩, ⟨by decide, by decide⟩⟩

theorem witness_DivModComplete : (∀ i ∈ [Instr.div8 0 1 2 3, .mod8 0 1 2 3, .div16 0 1 2 3, .mod16 0 1 2 3],
      resolveEach addFrame.memory (operands i) = .ok [1, 2, 3]) ∧ readCell addFrame.memory 1 = ⟨.uint8, 200⟩ ∧
    readCell addFrame.memory 2 = ⟨.uint8, 100⟩ ∧ Affords addFrame (.div8 0 1 2 3) 0 ∧ Affords addFrame (.mod16 0 1 2 3) 0 :=
  ⟨by decide, by decide, by decide, ⟨by decide, by decide⟩, ⟨by decide, by decide⟩⟩

/-- A frame with two `FIELD` cells, the second the largest element. -/
def fieldFrame : State := frame [] [(1, ⟨.field, 6⟩), (2, ⟨.field, Config.fieldModulus - 1⟩)] 1000 1000

theorem witness_FdivComplete : MemoryOk fieldFrame ∧
    (∀ i ∈ [Instr.fdiv8 0 1 2 3, .fdiv16 0 1 2 3], familyOf i = .fdiv ∧
      resolveEach fieldFrame.memory (operands i) = .ok [1, 2, 3]) ∧ readCell fieldFrame.memory 1 = ⟨.field, 6⟩ ∧
    readCell fieldFrame.memory 2 = ⟨.field, Config.fieldModulus - 1⟩ ∧ Affords fieldFrame (.fdiv8 0 1 2 3) 0 :=
  ⟨by decide, by decide, by decide, by decide, ⟨by decide, by decide⟩⟩

/-- A value that must be reduced, and one that fits. -/
theorem witness_CastComplete : (∀ i ∈ [Instr.cast8 0 1 3 1, .cast16 0 1 3 1], familyOf i = .cast ∧
      resolveEach addFrame.memory (operands i) = .ok [1, 3] ∧ tagField i = some 1) ∧
    tagOfImmediate 1 = some .uint1 ∧ tagOfImmediate 7 = some .field ∧
    (readCell addFrame.memory 1).tag ≠ .uninitialized ∧ ¬ (readCell addFrame.memory 1).value < domOf .uint1 ∧
    (readCell addFrame.memory 1).value < domOf .field ∧ Affords addFrame (.cast8 0 1 3 1) 0 :=
  ⟨by decide, by decide, by decide, by decide, by decide, by decide, ⟨by decide, by decide⟩⟩

theorem witness_CastBackIsIdentity : ∃ t u : State, MemoryOk addFrame ∧ addFrame.err = noError ∧
    tagOfImmediate 4 = some .uint32 ∧ tagOfImmediate 2 = some .uint8 ∧ (readCell addFrame.memory 1).tag = .uint8 ∧
    domOf .uint8 ≤ domOf .uint32 ∧ exec (.cast16 0 1 1 4) addFrame = .next t ∧ exec (.cast16 0 1 9 2) t = .next u ∧
    u.err = noError := ⟨_, _, by decide, rfl, by decide, by decide, by decide, by decide, rfl, rfl, rfl⟩

/-- A frame for `TORADIXBE` with this radix, two limbs, and the destination pointer in cell 4. -/
def radixFrame (r p : Nat) : State :=
  frame [] [(1, ⟨.field, 1234⟩), (2, ⟨.uint32, r⟩), (3, ⟨.uint32, 2⟩), (4, ⟨.uint32, p⟩)] 25 0

/-- A zero radix; a slice that ends at 2^32 and one that ends one cell further; exactly the 25 L2 gas it costs. -/
theorem witness_ToRadixCompletes :
    (∀ q ∈ [(0, 10), (10, 2 ^ 32 - 2), (10, 2 ^ 32 - 1)],
      resolveEach (radixFrame q.1 q.2).memory (operands (.toRadixBE 0x40 1 2 3 4)) = .ok [1, 2, 3, q.2] ∧
      readCell (radixFrame q.1 q.2).memory 1 = ⟨.field, 1234⟩ ∧ readCell (radixFrame q.1 q.2).memory 2 = ⟨.uint32, q.1⟩ ∧
      readCell (radixFrame q.1 q.2).memory 3 = ⟨.uint32, 2⟩) ∧
    2 ^ 32 < 2 ^ 32 - 1 + 2 ∧ 2 ^ 32 - 2 + 2 ≤ 2 ^ 32 ∧ Affords (radixFrame 10 10) (.toRadixBE 0x40 1 2 3 4) 2 :=
  ⟨by decide, by decide, by decide, ⟨by decide, by decide⟩⟩

theorem witness_ToRadixDigitsAddUp :
    resolveEach (radixFrame 10 10).memory (operands (.toRadixBE 0x40 1 2 3 4)) = .ok [1, 2, 3, 10] ∧
    (radixFrame 10 10).err = noError ∧
    ∃ t, exec (.toRadixBE 0x40 1 2 3 4) (radixFrame 10 10) = .next t ∧ t.err = noError :=
  ⟨by decide, rfl, _, rfl, rfl⟩

theorem witness_SetCompletes :
    (∀ i ∈ [Instr.set8 0 5 7 1, .set16 0 5 7 1, .set32 0 5 7 1, .set64 0 5 7 1, .set128 0 5 7 1], familyOf i = .set ∧
      resolveEach bareFrame.memory (operands i) = .ok [5] ∧ tagField i = some 7) ∧
    tagOfImmediate 7 = some .field ∧ tagOfImmediate 1 = some .uint1 ∧ Affords (frame [] [] 6 0) (.set128 0 5 7 1) 0 :=
  ⟨by decide, by decide, by decide, ⟨by decide, by decide⟩⟩

theorem witness_MovCompletes : (∀ i ∈ [Instr.mov8 0 1 2, .mov16 0 1 2], familyOf i = .mov ∧
      resolveEach addFrame.memory (operands i) = .ok [1, 2] ∧ resolveEach bareFrame.memory (operands i) = .ok [1, 2]) ∧
    (readCell addFrame.memory 1).tag ≠ .uninitialized ∧ (readCell bareFrame.memory 1).tag = .uninitialized ∧
    Affords addFrame (.mov8 0 1 2) 0 := ⟨by decide, by decide, by decide, ⟨by decide, by decide⟩⟩

/-- A frame for `CALLDATACOPY` of two elements to the address in cell 4, with exactly the 15 L2 gas it costs. -/
def copyFrame (p : Nat) : State :=
  { frame [] [(1, ⟨.uint32, 3⟩), (2, ⟨.uint32, 2⟩), (4, ⟨.uint32, p⟩)] 15 0 with calldata := vectorCalldata }

/-- The slice may end at 2^32 and no further. -/
theorem witness_CalldataCopyCompletes :
    (∀ p ∈ [2 ^ 32 - 2, 2 ^ 32 - 1],
      resolveEach (copyFrame p).memory (operands (.calldataCopy 0x10 1 2 4)) = .ok [1, 2, p] ∧
      readCell (copyFrame p).memory 1 = ⟨.uint32, 3⟩ ∧ readCell (copyFrame p).memory 2 = ⟨.uint32, 2⟩) ∧
    2 ^ 32 - 2 + 2 ≤ 2 ^ 32 ∧ 2 ^ 32 < 2 ^ 32 - 1 + 2 ∧ Affords (copyFrame 10) (.calldataCopy 0x10 1 2 4) 2 :=
  ⟨by decide, by decide, by decide, ⟨by decide, by decide⟩⟩

/-- Conditions that are 1, 0 and a `FIELD`. -/
theorem witness_JumpsComplete : Affords (frame [] [] 3 0) (.jump 9) 0 ∧ Affords (frame [] [] 6 0) (.jumpi 0 4 9) 0 ∧
    (∀ c ∈ [(⟨.uint1, 1⟩ : MemCell), ⟨.uint128, 0⟩, ⟨.field, 1⟩],
      resolveEach [(4, c)] (operands (.jumpi 0 4 9)) = .ok [4] ∧ readCell [(4, c)] 4 = c ∧ c.tag ≠ .uninitialized) :=
  ⟨⟨by decide, by decide⟩, ⟨by decide, by decide⟩, by decide⟩

/-- Depths 1023 and 1024; a stack with one entry and an empty one. -/
theorem witness_SubroutinesComplete : Affords deepFrame (.internalCall 9) 0 ∧ deepFrame.callStack.length < 1024 ∧
    1024 ≤ (⟨0, 5⟩ :: deepFrame.callStack).length ∧ Affords deepFrame .internalReturn 0 ∧
    ([⟨0, 5⟩] : List CallEntry) = ⟨0, 5⟩ :: [] ∧ addFrame.callStack = [] :=
  ⟨⟨by decide, by decide⟩, by rw [deepFrame_depth]; decide, by rw [List.length_cons, deepFrame_depth],
    ⟨by decide, by decide⟩, rfl, rfl⟩

/-- A call to the `INTERNALRETURN` that follows it, with exactly the 12 L2 gas. -/
theorem witness_CallReturnPairing :
    let s := { frame [0x19, 0, 0, 0, 5, 0x1A] [] 12 0 with callStack := deepFrame.callStack }
    s.halted = false ∧ fetch s = some (.internalCall 5) ∧ instrAt s.program (5 : BitVec 32).toNat = some .internalReturn ∧
      s.callStack.length < 1024 ∧ 12 ≤ s.l2Gas.toNat :=
  ⟨rfl, by decide, by decide, by show deepFrame.callStack.length < 1024; rw [deepFrame_depth]; decide, by decide⟩

theorem witness_GetEnvVarCompletes : (∀ var, resolveEach [] (operands (.getEnvVar 0 7 var)) = .ok [7]) ∧
    (∀ var, Affords (frame [] [] 6 0) (.getEnvVar 0 7 var) 0) ∧ 13 ≤ (13 : BitVec 8).toNat :=
  ⟨fun _ => rfl, fun _ => ⟨by show 6 ≤ _; decide, by show 0 ≤ _; decide⟩, by decide⟩

/-- A frame with the slot 5 in cell 1 and in cell 2. -/
def slotFrame : State := frame [0x1D, 0, 0, 1, 0, 2, 0x1C, 0, 0, 2, 0, 3] [(1, ⟨.field, 9⟩), (2, ⟨.field, 5⟩)] 1000 1000

/-- The value of a small numeral as a field element. -/
theorem fieldOfNat_small {n : Nat} (h : n < 2 ^ 16) : (fieldOfNat n).val = n :=
  Nat.mod_eq_of_lt (Nat.lt_trans h (by decide))

/-- A slot in the journal, a slot with a scripted answer and one with none, and the gas. -/
theorem witness_SloadCompletes : resolveEach slotFrame.memory (operands (.sload 0 2 3)) = .ok [2, 3] ∧
    readCell slotFrame.memory 2 = ⟨.field, (fieldOfNat 5).val⟩ ∧ Affords slotFrame (.sload 0 2 3) 0 ∧
    journalValue (fieldOfNat 0) (fieldOfNat 5) [⟨fieldOfNat 0, fieldOfNat 5, fieldOfNat 9⟩] =
      some (fieldOfNat 9) ∧ journalValue slotFrame.env.storageAddress (fieldOfNat 5) slotFrame.host.journal = none ∧
    ({ quietHost with storageAnswers := [fieldOfNat 77] }).storageAnswers = fieldOfNat 77 :: [] ∧
    slotFrame.host.storageAnswers = [] :=
  ⟨by decide, by decide, ⟨by decide, by decide⟩, by decide, by decide, rfl, rfl⟩

/-- With exactly the 200 L2 and 32 DA gas it costs. The write of a successful child hides the frame's own (R272), that of a
failed one does not (R274 d). -/
theorem witness_SstoreCompletes :
    (let w : StorageWrite := ⟨fieldOfNat 0, fieldOfNat 5, fieldOfNat 9⟩;
      journalValue (fieldOfNat 0) (fieldOfNat 5)
        (journalAfterCall ⟨⟨true, [], 0, 0⟩, [⟨fieldOfNat 0, fieldOfNat 5, fieldOfNat 8⟩]⟩ [w]) = some (fieldOfNat 8) ∧
      journalValue (fieldOfNat 0) (fieldOfNat 5)
        (journalAfterCall ⟨⟨false, [], 0, 0⟩, [⟨fieldOfNat 0, fieldOfNat 5, fieldOfNat 8⟩]⟩ [w]) = some (fieldOfNat 9) ∧
      w.slot ≠ fieldOfNat 6 ∧ w.contract ≠ fieldOfNat 6) ∧
    resolveEach slotFrame.memory (operands (.sstore 0 1 2)) = .ok [1, 2] ∧
    readCell slotFrame.memory 1 = ⟨.field, (fieldOfNat 9).val⟩ ∧
    readCell slotFrame.memory 2 = ⟨.field, (fieldOfNat 5).val⟩ ∧ Affords (frame [] [] 200 32) (.sstore 0 1 2) 0 :=
  ⟨by decide, by decide, by decide, by decide, ⟨by decide, by decide⟩⟩

/-- `SSTORE` then `SLOAD` of the slot it wrote, with nothing between them. -/
theorem witness_StoredValueIsLoaded : ∃ t w : State, slotFrame.err = noError ∧
    fetch slotFrame = some (.sstore 0 1 2) ∧ step slotFrame = .next t ∧ t.err = noError ∧
    resolveEach slotFrame.memory (operands (.sstore 0 1 2)) = .ok [1, 2] ∧
    readCell slotFrame.memory 1 = ⟨.field, (fieldOfNat 9).val⟩ ∧
    readCell slotFrame.memory 2 = ⟨.field, (fieldOfNat 5).val⟩ ∧ QuietRun (fieldOfNat 5) t t ∧
    fetch t = some (.sload 0 2 3) ∧ step t = .next w ∧ w.err = noError ∧
    resolveEach t.memory (operands (.sload 0 2 3)) = .ok [2, 3] ∧ readCell t.memory 2 = ⟨.field, (fieldOfNat 5).val⟩ :=
  ⟨_, _, rfl, by decide, rfl, rfl, by decide, by decide, by decide, .done _, by decide, rfl, rfl, by decide, by decide⟩

theorem witness_OraclesComplete : (∀ i ∈ [Instr.noteHashExists 0 2 3 4, .nullifierExists 0 2 3 4, .l1ToL2MsgExists 0 2 3 4],
      (oracleOf i).isSome = true ∧ resolveEach slotFrame.memory (operands i) = .ok [2, 3, 4]) ∧
    readCell slotFrame.memory 2 = ⟨.field, (fieldOfNat 5).val⟩ ∧ Affords slotFrame (.noteHashExists 0 2 3 4) 0 ∧
    (∀ o, oracleAnswers o slotFrame.host = []) ∧
    ({ quietHost with nullifierAnswers := [(true, fieldOfNat 7)] }).nullifierAnswers = (true, fieldOfNat 7) :: [] :=
  ⟨by decide, by decide, ⟨by decide, by decide⟩, fun o => by cases o <;> rfl, rfl⟩

/-- The frame of V-CALL-9 with an answer at the limit of R273 c, all the gas that is offered; and with no answer. -/
theorem witness_CallCompletes :
    let s := callFrame [] ⟨true, [fieldOfNat 42], 698, 100⟩
    let i := Instr.call 0 1 2 3 10 4 20 30 3
    resolveEach s.memory (operands i) = .ok [1, 2, 3, 10, 4, 20, 30] ∧ readCell s.memory 1 = ⟨.uint64, 5000⟩ ∧
      readCell s.memory 2 = ⟨.uint64, 100⟩ ∧ readCell s.memory 3 = ⟨.field, (fieldOfNat 48879).val⟩ ∧
      readCell s.memory 4 = ⟨.uint32, 2⟩ ∧ Affords s i 2 ∧ 10 + 2 ≤ 2 ^ 32 ∧
      20 + (3 : BitVec 16).toNat ≤ 2 ^ 32 ∧ (∀ j < 2, (readCell s.memory (10 + j)).tag ≠ .uninitialized) ∧
      (698 : Word64).toNat ≤ min 5000 (s.l2Gas.toNat - costL2 .call (instrFlags i) 2) ∧
      (100 : Word64).toNat ≤ min 100 (s.daGas.toNat - costDA .call (instrFlags i) 2) ∧
      bareFrame.host.childRuns = [] :=
  ⟨by decide, by decide, by decide, by decide, by decide, ⟨by decide, by decide⟩, by decide, by decide, by decide,
    by decide, by decide, rfl⟩

/-- A frame for `CALL` with two arguments at p, of which the second is missing, and the output at q. -/
def edgeFrame (p q : Nat) : State :=
  frame [] [(1, ⟨.uint64, 5000⟩), (2, ⟨.uint64, 100⟩), (3, ⟨.field, 48879⟩), (4, ⟨.uint32, 2⟩), (5, ⟨.uint32, p⟩),
    (6, ⟨.uint32, q⟩), (10, ⟨.field, 7⟩)] 1000 500

/-- An argument slice and an output slice that end one cell beyond the memory, and an argument that is missing. -/
theorem witness_CallChecksPrecedeRequest :
    (∀ r ∈ [(2 ^ 32 - 1, 20), (10, 2 ^ 32 - 2), (10, 20)],
      resolveEach (edgeFrame r.1 r.2).memory (operands (.call 0x440 1 2 3 5 4 6 30 3)) = .ok [1, 2, 3, r.1, 4, r.2, 30] ∧
      readCell (edgeFrame r.1 r.2).memory 1 = ⟨.uint64, 5000⟩ ∧ readCell (edgeFrame r.1 r.2).memory 2 = ⟨.uint64, 100⟩ ∧
      readCell (edgeFrame r.1 r.2).memory 3 = ⟨.field, 48879⟩ ∧ readCell (edgeFrame r.1 r.2).memory 4 = ⟨.uint32, 2⟩) ∧
    2 ^ 32 < 2 ^ 32 - 1 + 2 ∧ 2 ^ 32 < 2 ^ 32 - 2 + (3 : BitVec 16).toNat ∧
    (readCell (edgeFrame 10 20).memory 10).tag ≠ .uninitialized ∧
    (readCell (edgeFrame 10 20).memory 11).tag = .uninitialized ∧
    Affords (edgeFrame 10 20) (.call 0x440 1 2 3 5 4 6 30 3) 2 :=
  ⟨by decide, by decide, by decide, by decide, by decide, ⟨by decide, by decide⟩⟩

/-- A `RETURN` of two cells through a pointer. -/
def sliceFrame (p : Nat) : State := frame [] [(1, ⟨.uint32, 2⟩), (2, ⟨.uint32, p⟩), (5, ⟨.uint32, 12⟩)] 100 100

/-- A slice of one initialised cell; then slices of two cells: one that ends one cell beyond the memory, and one whose
second cell is missing. -/
theorem witness_ReturnRevertComplete : (resolveEach retFrame.memory (operands (.ret 0 5 1)) = .ok [5, 1] ∧
    readCell retFrame.memory 1 = ⟨.uint32, 1⟩ ∧ 5 + 1 ≤ 2 ^ 32 ∧
    (∀ j < 1, (readCell retFrame.memory (5 + j)).tag ≠ .uninitialized) ∧ [fieldOfNat 12].length = 1 ∧
    (∀ (j : Nat) (h : j < [fieldOfNat 12].length), [fieldOfNat 12][j].val = (readCell retFrame.memory (5 + j)).value) ∧
    Affords retFrame (.ret 0 5 1) 1 ∧ Affords (frame [] [] 11 0) (.revert 0 5 1) 1) ∧
    (∀ p ∈ [2 ^ 32 - 1, 5], resolveEach (sliceFrame p).memory (operands (.ret 1 2 1)) = .ok [p, 1] ∧
      readCell (sliceFrame p).memory 1 = ⟨.uint32, 2⟩) ∧ 2 ^ 32 < 2 ^ 32 - 1 + 2 ∧
    (readCell (sliceFrame 5).memory 6).tag = .uninitialized ∧ (readCell (sliceFrame 5).memory 5).tag ≠ .uninitialized ∧
    Affords (sliceFrame 5) (.revert 1 2 1) 2 := by
  refine ⟨⟨by decide, by decide, by decide, by decide, rfl, fun j h => ?_, ⟨by decide, by decide⟩, ⟨by decide, by decide⟩⟩,
    by decide, by decide, by decide, by decide, ⟨by decide, by decide⟩⟩
  obtain rfl : j = 0 := by simpa using h
  exact fieldOfNat_small (by decide)

/-- A step that ends in a rollback and one that issues nothing. -/
theorem witness_OneRequestPerStep : StatusOk revertFrame ∧ (∃ t, step revertFrame = .next t ∧ t.reverted = true) ∧
    StatusOk addFrame ∧ (∃ t, step addFrame = .next t ∧ t.reverted = false) :=
  ⟨statusOk_frame _ _ _ _, ⟨_, rfl, rfl⟩, statusOk_frame _ _ _ _, _, rfl, rfl⟩

/-- A frame that has returned. -/
def returnedFrame : State := { frame [] [] 100 100 with halted := true }

/-- A frame that has returned, and one that has faulted. -/
theorem witness_FrameResultLaws :
    (StatusOk returnedFrame ∧ GasOk returnedFrame ∧ ∃ r, frameResult returnedFrame = some r ∧ r.success = true) ∧
    (StatusOk (takeFault ⟨.stackEmpty, 0, 0, 0⟩ bareFrame) ∧ GasOk (takeFault ⟨.stackEmpty, 0, 0, 0⟩ bareFrame) ∧
      ∃ r, frameResult (takeFault ⟨.stackEmpty, 0, 0, 0⟩ bareFrame) = some r ∧ r.err.kind ≠ .none) :=
  ⟨⟨⟨nofun, nofun, fun h => absurd rfl h, fun _ _ => rfl, ⟨nofun, nofun⟩⟩, ⟨by decide, by decide⟩, _, rfl, rfl⟩,
    ⟨nofun, fun _ => rfl, fun _ => ⟨rfl, rfl, rfl, rfl⟩, fun _ _ => rfl, ⟨nofun, nofun⟩⟩, ⟨by decide, by decide⟩, _, rfl,
    by decide⟩

end Sys2Proof.Tests
end

/-! PROOFS of the statements of 00_scope.md: termination (R19).

Gas is the measure. Every instruction costs at least 3 L2 gas, so a step that leaves the frame running lowers the counter
by at least 3, and a step of a running frame that neither gives a next state nor halts is the refused `CALL`. -/

namespace Sys2Proof.Machine

/-! ## Every instruction costs at least 3 L2 gas (40_step_and_gas.md R150) -/

theorem three_le_baseL2 (f : Family) : 3 ≤ baseL2 f := by
  cases f <;> decide

theorem three_le_costL2 (f : Family) (flags count : Nat) : 3 ≤ costL2 f flags count :=
  calc
    3 ≤ baseL2 f := three_le_baseL2 f
    _ ≤ costL2 f flags count := by unfold costL2; omega

/-! ## What a step of a running frame does to the counter, and how it can end -/

theorem chargedFor_l2Gas_toNat {s : State} {i : Instr} {count : Nat} (h : Affords s i count) :
    (s.chargedFor i count).l2Gas.toNat + costL2 (familyOf i) (instrFlags i) count = s.l2Gas.toNat := by
  have hcost : costL2 (familyOf i) (instrFlags i) count ≤ s.l2Gas.toNat := h.l2
  rw [State.chargedFor_l2Gas, sub_charge_toNat hcost, Nat.sub_add_cancel hcost]

/-- A completed instruction has paid at least its cost: `CALL` may have paid more, for its child (R156). -/
theorem Effects.paid_l2 {i : Instr} {s t : State} (h : Effects i s t) :
    ∃ count, t.l2Gas.toNat + costL2 (familyOf i) (instrFlags i) count ≤ s.l2Gas.toNat := by
  obtain ⟨count, -, affords, exact_of_not_call, bound_of_call⟩ := h.count
  have hle : t.l2Gas.toNat ≤ (s.chargedFor i count).l2Gas.toNat := by
    cases hc : isCall i with
    | false => exact (congrArg BitVec.toNat (exact_of_not_call hc).1).le
    | true => exact (bound_of_call hc).1
  exact ⟨count, (Nat.add_le_add_right hle _).trans_eq (chargedFor_l2Gas_toNat affords)⟩

theorem Raised.halted {s t : State} (h : Raised s t) : t.halted = true := by
  obtain ⟨e, -, rfl⟩ := h
  rfl

/-- A step that leaves the frame running raised nothing: it completed the instruction at `pc`. -/
theorem effects_of_step_running {s t : State} (h : step s = .next t) (ht : t.halted = false) :
    ∃ i, fetch s = some i ∧ Effects i s t := by
  obtain ⟨-, ⟨-, rfl⟩ | ⟨i, hfetch, hexec⟩⟩ := step_next h
  · simp at ht
  · obtain raised | effects := exec_effects hexec
    · simp [raised.halted] at ht
    · exact ⟨i, hfetch, effects⟩

theorem step_running_l2Gas {s t : State} (h : step s = .next t) (ht : t.halted = false) :
    t.l2Gas.toNat + 3 ≤ s.l2Gas.toNat := by
  obtain ⟨i, -, effects⟩ := effects_of_step_running h ht
  obtain ⟨count, paid⟩ := effects.paid_l2
  exact (Nat.add_le_add_left (three_le_costL2 _ _ count) _).trans paid

/-- R139: a running frame steps to a next state, or its `CALL` is refused (log entry 4). -/
theorem step_of_running {s : State} (hs : s.halted = false) :
    (∃ t, step s = .next t) ∨ step s = .refused .hostAnswerOutOfContract := by
  cases hfetch : fetch s with
  | none => exact .inl ⟨takeFault (kindOnly .invalidProgramCounter) s, by simp [step, hs, hfetch]⟩
  | some i =>
    have hstep : step s = exec i s := by simp [step, hs, hfetch]
    rw [hstep]
    exact (exec_outcomes i s).imp_right And.left

/-! ## Runs -/

@[simp] theorem runFor_zero (s : State) : runFor 0 s = .next s := rfl

/-- R139: the first step of a run that answers a next state answers one too. -/
theorem runFor_succ_next {n : Nat} {s t : State} (h : runFor (n + 1) s = .next t) :
    ∃ u, step s = .next u ∧ runFor n u = .next t := by
  cases hstep : step s with
  | next u => exact ⟨u, rfl, runFor_next hstep ▸ h⟩
  | fault r => rw [runFor_fault hstep] at h; cases h
  | refused r => rw [runFor_refused hstep] at h; cases h

/-- No step starts in a halted frame (R142), so a run of a step or more starts in a running one. -/
theorem running_of_runFor_next {n : Nat} {s t : State} (h : runFor n s = .next t) (ht : t.halted = false) :
    s.halted = false := by
  cases n with
  | zero => cases h; exact ht
  | succ n =>
    obtain ⟨u, hstep, -⟩ := runFor_succ_next h
    exact (step_next hstep).1

theorem runFor_running_l2Gas {n : Nat} {s t : State} (h : runFor n s = .next t) (ht : t.halted = false) :
    t.l2Gas.toNat + 3 * n ≤ s.l2Gas.toNat := by
  induction n generalizing s with
  | zero => cases h; exact Nat.le_refl _
  | succ n ih =>
    obtain ⟨u, hstep, hrun⟩ := runFor_succ_next h
    have first : u.l2Gas.toNat + 3 ≤ s.l2Gas.toNat := step_running_l2Gas hstep (running_of_runFor_next hrun ht)
    have rest : t.l2Gas.toNat + 3 * n ≤ u.l2Gas.toNat := ih hrun
    omega

/-- The two ways in which the run of a frame comes to its end: the frame has halted, or the model has refused the answer to
a `CALL` (log entry 4). -/
def RunEnds (n : Nat) (s : State) : Prop :=
  (∃ t, runFor n s = .next t ∧ t.halted = true) ∨ runFor n s = .refused .hostAnswerOutOfContract

theorem RunEnds.succ {n : Nat} {s u : State} (hstep : step s = .next u) (h : RunEnds n u) : RunEnds (n + 1) s := by
  unfold RunEnds
  rw [runFor_next hstep]
  exact h

/-- A running frame with less L2 gas than k steps would use ends within k steps. -/
theorem exists_runEnds_of_l2Gas_lt {k : Nat} {s : State} (hs : s.halted = false) (hgas : s.l2Gas.toNat < 3 * k) :
    ∃ n, n ≤ k ∧ RunEnds n s := by
  induction k generalizing s with
  | zero => omega
  | succ k ih =>
    obtain ⟨t, hstep⟩ | hrefused := step_of_running hs
    · cases ht : t.halted with
      | true => exact ⟨1, by omega, .succ hstep (.inl ⟨t, runFor_zero t, ht⟩)⟩
      | false =>
        have spent : t.l2Gas.toNat + 3 ≤ s.l2Gas.toNat := step_running_l2Gas hstep ht
        obtain ⟨n, hn, ends⟩ := ih ht (by omega)
        exact ⟨n + 1, by omega, ends.succ hstep⟩
    · exact ⟨1, by omega, .inr (runFor_refused hrefused)⟩

/-- Settles O29: the first clause by induction on the steps of the run, the second by induction on a bound of the steps that
the L2 gas can pay. -/
theorem everyFrameHalts : Obligations.EveryFrameHalts := by
  refine ⟨fun n s t => runFor_running_l2Gas, fun s hs => ?_⟩
  exact exists_runEnds_of_l2Gas_lt hs (by omega)

end Sys2Proof.Machine

/-! PROOFS of the statements of 10_state.md: what every step keeps, what the start of a frame leaves, what each instruction
leaves and reads.

A step has two outcomes, the frame-boundary conversion and the effect of a completed instruction (`step_cases`). Each
invariant holds of the first by the fields of `takeFault`, and of the second by the field of `Effects` about it. -/

namespace Sys2Proof.Machine

/-! ## The two outcomes of a step -/

/-- R131, R345: a step that answers a next state raised an error, or completed the instruction at `pc`; a `pc` that is no
instruction start is the first case. -/
theorem step_cases {s t : State} (h : step s = .next t) :
    s.halted = false ∧ (Raised s t ∨ ∃ i, fetch s = some i ∧ Effects i s t) := by
  obtain ⟨running, ⟨-, ht⟩ | ⟨i, hfetch, hexec⟩⟩ := step_next h
  · exact ⟨running, .inl ⟨_, runtimeError_kindOnly (by decide) (by decide) (by decide), ht⟩⟩
  · exact ⟨running, (exec_effects hexec).imp_right fun effects => ⟨i, hfetch, effects⟩⟩

/-! ## Memory (10_state.md R29, R50) -/

/-- Settles O21: the conversion leaves the memory, and a completed instruction stores only cells of its tags' domains. -/
theorem stepKeepsMemory : Obligations.StepKeepsMemory := by
  intro s t hs h
  obtain ⟨-, ⟨e, -, rfl⟩ | ⟨i, -, effects⟩⟩ := step_cases h
  · exact hs
  · exact effects.wf hs

/-! ## Status (10_state.md R25, R26) -/

theorem statusOk_takeFault {e : ErrReg} (he : RuntimeError e) (s : State) : StatusOk (takeFault e s) where
  running := nofun
  reverted _ := rfl
  faulted _ := ⟨rfl, rfl, rfl, rfl⟩
  payload := he.payload
  noCodecKind := ⟨he.notUnknownOpcode, he.notTruncated⟩

/-- Without an error the status is one of the four as soon as it is consistent: a running frame has neither reverted nor an
output, and a reverted one has halted. -/
theorem statusOk_of_noError {s : State} (err : s.err = noError)
    (running : s.halted = false → s.reverted = false ∧ s.output = []) (reverted : s.reverted = true → s.halted = true) :
    StatusOk s where
  running h := ⟨(running h).1, err, (running h).2⟩
  reverted := reverted
  faulted h := absurd (congrArg ErrReg.kind err) h
  payload := err ▸ canonical_kindOnly .none
  noCodecKind := err ▸ ⟨nofun, nofun⟩

theorem endsFrame_iff {i : Instr} :
    endsFrame i = true ↔ (∃ ind ret size, i = .ret ind ret size) ∨ ∃ ind ret size, i = .revert ind ret size := by
  cases i <;> simp [endsFrame]

/-- R312: a completed `RETURN` or `REVERT` halts the frame. -/
theorem Effects.halted_of_endsFrame {i : Instr} {s t : State} (h : Effects i s t) (ends : endsFrame i = true) :
    t.halted = true := by
  obtain isRet | isRevert := endsFrame_iff.mp ends
  · exact (h.ret isRet).1
  · exact (h.rev isRevert).1

theorem Effects.statusOk {i : Instr} {s t : State} (h : Effects i s t) (hs : StatusOk s) (running : s.halted = false) :
    StatusOk t := by
  obtain ⟨notReverted, noErr, noOutput⟩ := hs.running running
  have err : t.err = noError := h.err.trans noErr
  cases ends : endsFrame i with
  | true =>
    have halted : t.halted = true := h.halted_of_endsFrame ends
    exact statusOk_of_noError err (by simp [halted]) fun _ => halted
  | false =>
    obtain ⟨-, reverted, output⟩ := h.status ends
    exact statusOk_of_noError err (fun _ => ⟨reverted.trans notReverted, output.trans noOutput⟩)
      (by simp [reverted, notReverted])

/-- Settles O22: the conversion leaves a faulted frame; a completed instruction leaves a running one, or a halted one without
error when it is `RETURN` or `REVERT`. -/
theorem stepKeepsStatus : Obligations.StepKeepsStatus := by
  intro s t hs h
  obtain ⟨running, ⟨e, he, rfl⟩ | ⟨i, -, effects⟩⟩ := step_cases h
  · exact statusOk_takeFault he s
  · exact effects.statusOk hs running

/-! ## The internal call stack (10_state.md R28) -/

/-- Settles O23: the conversion leaves the stack, `INTERNALCALL` pushes an entry that returns past it onto a stack that is
not full, and `INTERNALRETURN` pops one. -/
theorem stepKeepsStack : Obligations.StepKeepsStack := by
  intro s t hs h
  obtain ⟨-, ⟨e, -, rfl⟩ | ⟨i, -, effects⟩⟩ := step_cases h
  · exact ⟨hs.depth, hs.entries⟩
  · exact effects.stackok hs

/-! ## Gas (10_state.md R24, 40_step_and_gas.md R156) -/

theorem chargedFor_daGas_toNat {s : State} {i : Instr} {count : Nat} (h : Affords s i count) :
    (s.chargedFor i count).daGas.toNat + costDA (familyOf i) (instrFlags i) count = s.daGas.toNat := by
  have hcost : costDA (familyOf i) (instrFlags i) count ≤ s.daGas.toNat := h.da
  rw [State.chargedFor_daGas, sub_charge_toNat hcost, Nat.sub_add_cancel hcost]

/-- The DA side of `Effects.paid_l2`: `CALL` may have paid more than its cost, for its child (R156). -/
theorem Effects.paid_da {i : Instr} {s t : State} (h : Effects i s t) :
    ∃ count, t.daGas.toNat + costDA (familyOf i) (instrFlags i) count ≤ s.daGas.toNat := by
  obtain ⟨count, -, affords, exact_of_not_call, bound_of_call⟩ := h.count
  have hle : t.daGas.toNat ≤ (s.chargedFor i count).daGas.toNat := by
    cases hc : isCall i with
    | false => exact (congrArg BitVec.toNat (exact_of_not_call hc).2).le
    | true => exact (bound_of_call hc).2
  exact ⟨count, (Nat.add_le_add_right hle _).trans_eq (chargedFor_daGas_toNat affords)⟩

theorem step_gas_le {s t : State} (h : step s = .next t) :
    t.l2Gas.toNat ≤ s.l2Gas.toNat ∧ t.daGas.toNat ≤ s.daGas.toNat := by
  obtain ⟨-, ⟨e, -, rfl⟩ | ⟨i, -, effects⟩⟩ := step_cases h
  · exact ⟨Nat.zero_le _, Nat.zero_le _⟩
  · obtain ⟨_, paidL2⟩ := effects.paid_l2
    obtain ⟨_, paidDA⟩ := effects.paid_da
    exact ⟨Nat.le_of_add_right_le paidL2, Nat.le_of_add_right_le paidDA⟩

/-! ## What the host supplies (10_state.md R31 to R33) -/

/-- No instruction changes the store, calldata, the environment or an allotment, whether it raises or completes. -/
theorem exec_inputs {i : Instr} {s t : State} (h : exec i s = .next t) :
    t.program = s.program ∧ t.calldata = s.calldata ∧ t.env = s.env ∧ t.l2Allotment = s.l2Allotment ∧
      t.daAllotment = s.daAllotment := by
  obtain ⟨e, -, rfl⟩ | effects := exec_effects h
  · exact ⟨rfl, rfl, rfl, rfl, rfl⟩
  · exact effects.inputs

/-- Settles O26: the conversion at a `pc` that is no instruction start leaves the inputs, and so does every instruction. -/
theorem frameInputsImmutable : Obligations.FrameInputsImmutable := by
  intro s t h
  obtain ⟨-, ⟨-, rfl⟩ | ⟨i, -, hexec⟩⟩ := step_next h
  · exact ⟨rfl, rfl, rfl, rfl, rfl⟩
  · exact exec_inputs hexec

/-- Settles O24: the counters only fall, and the allotments that bound them stay. -/
theorem stepKeepsGas : Obligations.StepKeepsGas := by
  intro s t h
  obtain ⟨l2_le, da_le⟩ := step_gas_le h
  obtain ⟨-, -, -, l2Allotment, daAllotment⟩ := frameInputsImmutable s t h
  refine ⟨l2_le, da_le, fun hs => ⟨?_, ?_⟩⟩
  · rw [l2Allotment]
    exact l2_le.trans hs.l2
  · rw [daAllotment]
    exact da_le.trans hs.da

/-! ## The start of a frame (10_state.md R38) -/

/-- The invariants at the start of a frame: nothing is written, pushed, spent or reported yet. -/
theorem frameOk_of_fresh {s : State} (memory : s.memory = []) (stack : s.callStack = [])
    (notReverted : s.reverted = false) (err : s.err = noError) (output : s.output = []) (l2 : s.l2Gas = s.l2Allotment)
    (da : s.daGas = s.daAllotment) : FrameOk s where
  memory := by rw [MemoryOk, memory]; rfl
  status := statusOk_of_noError err (fun _ => ⟨notReverted, output⟩) (by simp [notReverted])
  stack := ⟨by simp [stack], by simp [stack]⟩
  gas := ⟨by rw [l2], by rw [da]⟩

/-- Settles O27: each field as `State.start` gives it, the bound on calldata from its type. -/
theorem startResetsFrame : Obligations.StartResetsFrame := fun _ calldata _ _ _ _ =>
  ⟨rfl, rfl, rfl, rfl, rfl, rfl, fun _ => rfl, rfl, rfl, rfl, rfl, rfl, rfl, rfl, calldata.property, rfl,
    frameOk_of_fresh rfl rfl rfl rfl rfl rfl rfl⟩

/-- Settles O28: the state after reset is the start of a frame. -/
theorem resetMeetsInvariants : Obligations.ResetMeetsInvariants :=
  ⟨frameOk_of_fresh rfl rfl rfl rfl rfl rfl rfl, rfl, rfl, rfl, fun _ => rfl⟩

/-! ## The state outside memory (10_state.md R25, R27, R28) -/

theorem Raised.err_ne_noError {s t : State} (h : Raised s t) : t.err ≠ noError := by
  obtain ⟨e, he, rfl⟩ := h
  exact fun noErr => he.isError (congrArg ErrReg.kind noErr)

/-- Settles O35: an instruction that raises leaves the stack and reports an error; one that completes changes only what it
uses. -/
theorem otherStateFrame : Obligations.OtherStateFrame := by
  intro s t i h
  obtain raised | effects := exec_effects h
  · have stack : t.callStack = s.callStack := by obtain ⟨e, -, rfl⟩ := raised; rfl
    exact ⟨fun _ => stack, fun _ noErr => absurd noErr raised.err_ne_noError,
      fun _ noErr => absurd noErr raised.err_ne_noError⟩
  · exact ⟨effects.stack, fun _ _ => effects.host, fun _ _ => effects.status⟩

/-! ## The cached base pointer (20_memory.md R71, R74) -/

theorem bind_congr_of_ok {α β : Type} {x : Checked α} {f g : α → Checked β} (h : ∀ v, x = .ok v → f v = g v) :
    (x >>= f) = (x >>= g) := by
  cases x with
  | error e => rfl
  | ok v => exact h v rfl

/-- The base pointer of a RELATIVE operand: the cached one, or a fresh read when none is cached (R71). -/
def cachedBase (m : Memory) : Option Nat → Checked Nat
  | none => basePointer m
  | some b => .ok b

theorem resolveCached_relative (m : Memory) (base : Option Nat) (off : Nat) (rest : List (AddrMode × Nat)) :
    resolveCached m base ((.relative, off) :: rest) = (do
      let b ← cachedBase m base
      let a ← relativeAddr b off
      let out ← resolveCached m (some b) rest
      .ok (a :: out)) := by
  cases base <;> rfl

theorem resolveCached_indirectRelative (m : Memory) (base : Option Nat) (off : Nat) (rest : List (AddrMode × Nat)) :
    resolveCached m base ((.indirectRelative, off) :: rest) = (do
      let b ← cachedBase m base
      let p ← relativeAddr b off
      let a ← derefPointer m p
      let out ← resolveCached m (some b) rest
      .ok (a :: out)) := by
  cases base <;> rfl

/-- The cache is empty or holds what a fresh read of the base pointer gives. -/
def CacheFresh (m : Memory) (base : Option Nat) : Prop := ∀ b, base = some b → basePointer m = .ok b

theorem cacheFresh_none (m : Memory) : CacheFresh m none := by
  rintro _ ⟨⟩

theorem CacheFresh.of_read {m : Memory} {b : Nat} (h : basePointer m = .ok b) : CacheFresh m (some b) := by
  rintro _ ⟨⟩
  exact h

theorem CacheFresh.cachedBase_eq {m : Memory} {base : Option Nat} (h : CacheFresh m base) :
    cachedBase m base = basePointer m := by
  cases base with
  | none => rfl
  | some b => exact (h b rfl).symm

/-- R75, R35 a: resolution writes nothing, so a fresh cache stays fresh from operand to operand. -/
theorem resolveCached_eq_resolveEach {m : Memory} {base : Option Nat} (fresh : CacheFresh m base)
    (l : List (AddrMode × Nat)) : resolveCached m base l = resolveEach m l := by
  induction l generalizing base with
  | nil => rfl
  | cons operand rest ih =>
    obtain ⟨mode, off⟩ := operand
    cases mode with
    | direct => simp only [resolveCached, resolveEach, resolveOperand, ok_bind, ih fresh]
    | indirect => simp only [resolveCached, resolveEach, resolveOperand, ih fresh]
    | relative =>
      simp only [resolveCached_relative, fresh.cachedBase_eq, resolveEach, resolveOperand, bind_assoc]
      exact bind_congr_of_ok fun b read => by simp only [ih (.of_read read)]
    | indirectRelative =>
      simp only [resolveCached_indirectRelative, fresh.cachedBase_eq, resolveEach, resolveOperand, bind_assoc]
      exact bind_congr_of_ok fun b read => by simp only [ih (.of_read read)]

/-- Settles O30: the algorithm of R74 starts with an empty cache. -/
theorem cachedBaseIsFresh : Obligations.CachedBaseIsFresh := fun m l =>
  resolveCached_eq_resolveEach (cacheFresh_none m) l

/-! ## `GETENVVAR` (45_environment_host.md R280, R281) -/

section GetEnvVar

variable {s : State} {ind : BitVec 8} {dst : BitVec 16} {var : BitVec 8} {pd : Nat}

/-- The register of the table of R281 goes to the destination cell, and the instruction's cost is paid. -/
theorem exec_getEnvVar_of_envCell {c : MemCell} (addr : slotAddr s.memory ind 0 dst = .ok pd)
    (affords : Affords s (.getEnvVar ind dst var) 0) (register : envCell s.env var = some c) :
    exec (.getEnvVar ind dst var) s =
      .next (s.completed (.getEnvVar ind dst var) 0 (writeCell s.memory pd c)) := by
  have flags : instrFlags (.getEnvVar ind dst var) = flagCount ind 1 := instrFlags_slots1 ind dst.toNat
  have charged : chargeFor .getEnvVar ind 1 0 s = .ok (s.chargedFor (.getEnvVar ind dst var) 0) := by
    rw [Affords, flags] at affords
    rw [State.chargedFor, flags]
    exact chargeFor_of_covered affords
  show execGetEnvVar ind dst var s = _
  rw [execGetEnvVar, addr, ok_bind, checkEnvVar_ok.mpr register, ok_bind, charged]
  rfl

/-- R103 b, R343: an index above 12 raises once the destination has resolved. -/
theorem exec_getEnvVar_of_reserved (addr : slotAddr s.memory ind 0 dst = .ok pd) (reserved : 12 < var.toNat) :
    exec (.getEnvVar ind dst var) s = .next (takeFault (kindOnly .invalidImmediate) s) := by
  show execGetEnvVar ind dst var s = _
  rw [execGetEnvVar, addr, ok_bind, checkEnvVar_error.mpr ⟨envCell_none.mpr reserved, rfl⟩]
  rfl

end GetEnvVar

/-- Settles O51: the table of R281 row by row, and its reserved indices. -/
theorem getEnvVarCompletes : Obligations.GetEnvVarCompletes := by
  intro s ind dst pd resolved affords puts
  have addr : slotAddr s.memory ind 0 dst = .ok pd := by
    obtain ⟨p, out, hp, -, hl⟩ := resolveEach_cons.mp (resolved 0)
    cases hl
    exact hp
  have row (var : BitVec 8) (c : MemCell) (register : envCell s.env var = some c) : puts var c :=
    exec_getEnvVar_of_envCell addr (affords var) register
  exact ⟨row 0 _ rfl, row 1 _ rfl, row 2 _ rfl, row 3 _ rfl, row 4 _ rfl, row 5 _ rfl, row 6 _ rfl, row 7 _ rfl,
    row 8 _ rfl, row 9 _ rfl, row 10 _ rfl, row 11 _ rfl, row 12 _ rfl,
    fun _ reserved => exec_getEnvVar_of_reserved addr reserved⟩

/-! ## Who reads the inputs (10_state.md R33)

One update replaces the environment, calldata and both allotments at once (`State.withInputs`). It commutes with every
operation of the state, so with every phase of an instruction that does not read what it replaces; `exec_withInputs` says
so for all instructions, and each clause of the statement is one choice of the replacement. -/

/-- What a host supplies at the start of a frame beside the program. -/
structure FrameInputs where
  env : Environment
  calldata : Calldata
  l2Allotment : Word64
  daAllotment : Word64

/-- The state with other inputs; the counters and everything else stay. -/
def State.withInputs (s : State) (x : FrameInputs) : State :=
  { s with env := x.env, calldata := x.calldata, l2Allotment := x.l2Allotment, daAllotment := x.daAllotment }

section WithInputs

variable (s : State) (x : FrameInputs)

@[simp] theorem withInputs_pc : (s.withInputs x).pc = s.pc := rfl
@[simp] theorem withInputs_callStack : (s.withInputs x).callStack = s.callStack := rfl
@[simp] theorem withInputs_l2Gas : (s.withInputs x).l2Gas = s.l2Gas := rfl
@[simp] theorem withInputs_daGas : (s.withInputs x).daGas = s.daGas := rfl
@[simp] theorem withInputs_memory : (s.withInputs x).memory = s.memory := rfl
@[simp] theorem withInputs_host : (s.withInputs x).host = s.host := rfl
@[simp] theorem withInputs_env : (s.withInputs x).env = x.env := rfl
@[simp] theorem withInputs_calldata : (s.withInputs x).calldata = x.calldata := rfl

/-! ### It commutes with the operations of the state -/

@[simp] theorem setPc_withInputs (v : Word32) : (s.withInputs x).setPc v = (s.setPc v).withInputs x := rfl
@[simp] theorem advance_withInputs (w : Nat) : (s.withInputs x).advance w = (s.advance w).withInputs x := rfl
@[simp] theorem setCell_withInputs (a : Nat) (c : MemCell) :
    (s.withInputs x).setCell a c = (s.setCell a c).withInputs x := rfl
@[simp] theorem setCells_withInputs (a : Nat) (cs : List MemCell) :
    (s.withInputs x).setCells a cs = (s.setCells a cs).withInputs x := rfl
@[simp] theorem setStack_withInputs (st : List CallEntry) :
    (s.withInputs x).setStack st = (s.setStack st).withInputs x := rfl
@[simp] theorem setHost_withInputs (h : HostSide) : (s.withInputs x).setHost h = (s.setHost h).withInputs x := rfl
@[simp] theorem setGas_withInputs (l2 da : Word64) :
    (s.withInputs x).setGas l2 da = (s.setGas l2 da).withInputs x := rfl
@[simp] theorem halt_withInputs (r : Bool) (o : List FieldElem) :
    (s.withInputs x).halt r o = (s.halt r o).withInputs x := rfl

/-! ### It commutes with the phases that every instruction has -/

@[simp] theorem ok_map {α β : Type} (f : α → β) (v : α) : (f <$> (.ok v : Checked α)) = .ok (f v) := rfl
@[simp] theorem error_map {α β : Type} (f : α → β) (e : ErrReg) : (f <$> (.error e : Checked α)) = .error e := rfl

@[simp] theorem charge_withInputs (l2 da : Nat) :
    charge l2 da (s.withInputs x) = (·.withInputs x) <$> charge l2 da s := by
  by_cases hl2 : s.l2Gas.toNat < l2
  · simp [charge, hl2]
  · by_cases hda : s.daGas.toNat < da <;> simp [charge, hl2, hda]

@[simp] theorem chargeFor_withInputs {w : Nat} (f : Family) (d : BitVec w) (n count : Nat) :
    chargeFor f d n count (s.withInputs x) = (·.withInputs x) <$> chargeFor f d n count s :=
  charge_withInputs s x _ _

@[simp] theorem chargeFlat_withInputs (f : Family) :
    chargeFlat f (s.withInputs x) = (·.withInputs x) <$> chargeFlat f s :=
  charge_withInputs s x _ _

@[simp] theorem mapNext_atFrameBoundary (r : Checked State) :
    mapNext (·.withInputs x) (atFrameBoundary s r) =
      atFrameBoundary (s.withInputs x) ((·.withInputs x) <$> r) := by
  cases r <;> rfl

/-! ### It commutes with each meaning that does not read what it replaces -/

theorem arithmetic_withInputs {k : Nat} (f : Family) (width : Nat) (classCheck : Tag → Nat → Checked Unit)
    (op : Tag → Nat → Nat → Checked Nat) (ind : BitVec 8) (a b dst : BitVec k) :
    arithmetic f width classCheck op ind a b dst (s.withInputs x) =
      mapNext (·.withInputs x) (arithmetic f width classCheck op ind a b dst s) := by
  simp [arithmetic]

theorem castCell_withInputs {k : Nat} (width : Nat) (ind : BitVec 8) (src dst : BitVec k) (tag : BitVec 8) :
    castCell width ind src dst tag (s.withInputs x) =
      mapNext (·.withInputs x) (castCell width ind src dst tag s) := by
  simp [castCell]

theorem execToRadixBE_withInputs (ind : BitVec 8) (src radix numLimbs dst : BitVec 16) :
    execToRadixBE ind src radix numLimbs dst (s.withInputs x) =
      mapNext (·.withInputs x) (execToRadixBE ind src radix numLimbs dst s) := by
  simp [execToRadixBE]

theorem setImmediate_withInputs {k : Nat} (width : Nat) (ind : BitVec 8) (dst : BitVec k) (tag : BitVec 8)
    (value : Nat) :
    setImmediate width ind dst tag value (s.withInputs x) =
      mapNext (·.withInputs x) (setImmediate width ind dst tag value s) := by
  simp [setImmediate]

theorem moveCell_withInputs {k : Nat} (width : Nat) (ind : BitVec 8) (src dst : BitVec k) :
    moveCell width ind src dst (s.withInputs x) = mapNext (·.withInputs x) (moveCell width ind src dst s) := by
  simp [moveCell]

theorem execCalldataCopy_withInputs (same : x.calldata = s.calldata) (ind : BitVec 8)
    (cdOffset copySize dst : BitVec 16) :
    execCalldataCopy ind cdOffset copySize dst (s.withInputs x) =
      mapNext (·.withInputs x) (execCalldataCopy ind cdOffset copySize dst s) := by
  simp [execCalldataCopy, same]

theorem execJump_withInputs (target : BitVec 32) :
    execJump target (s.withInputs x) = mapNext (·.withInputs x) (execJump target s) := by
  simp [execJump]

theorem execJumpi_withInputs (ind : BitVec 8) (cond : BitVec 16) (target : BitVec 32) :
    execJumpi ind cond target (s.withInputs x) = mapNext (·.withInputs x) (execJumpi ind cond target s) := by
  simp [execJumpi, apply_ite]

theorem execInternalCall_withInputs (target : BitVec 32) :
    execInternalCall target (s.withInputs x) = mapNext (·.withInputs x) (execInternalCall target s) := by
  simp [execInternalCall]

theorem execInternalReturn_withInputs :
    execInternalReturn (s.withInputs x) = mapNext (·.withInputs x) (execInternalReturn s) := by
  simp [execInternalReturn]

theorem execGetEnvVar_withInputs (same : x.env = s.env) (ind : BitVec 8) (dst : BitVec 16) (var : BitVec 8) :
    execGetEnvVar ind dst var (s.withInputs x) = mapNext (·.withInputs x) (execGetEnvVar ind dst var s) := by
  simp [execGetEnvVar, same]

theorem execSload_withInputs (same : x.env = s.env) (ind : BitVec 8) (slot dst : BitVec 16) :
    execSload ind slot dst (s.withInputs x) = mapNext (·.withInputs x) (execSload ind slot dst s) := by
  simp [execSload, same]

theorem execSstore_withInputs (same : x.env = s.env) (ind : BitVec 8) (src slot : BitVec 16) :
    execSstore ind src slot (s.withInputs x) = mapNext (·.withInputs x) (execSstore ind src slot s) := by
  simp [execSstore, same]

theorem membershipQuery_withInputs (f : Family) (o : Oracle) (ind : BitVec 8) (key existsDst valueDst : BitVec 16) :
    membershipQuery f o ind key existsDst valueDst (s.withInputs x) =
      mapNext (·.withInputs x) (membershipQuery f o ind key existsDst valueDst s) := by
  simp [membershipQuery]

/-- The request of `CALL` with other inputs in the state it carries. -/
def CallRequest.withInputs (q : CallRequest) : CallRequest := { q with charged := q.charged.withInputs x }

theorem callRequest_withInputs (ind l2Gas daGas addr args argsSize ret success retSize : BitVec 16) :
    callRequest ind l2Gas daGas addr args argsSize ret success retSize (s.withInputs x) =
      CallRequest.withInputs x <$> callRequest ind l2Gas daGas addr args argsSize ret success retSize s := by
  simp [callRequest, CallRequest.withInputs]

theorem execCall_withInputs (ind l2Gas daGas addr args argsSize ret success retSize : BitVec 16) :
    execCall ind l2Gas daGas addr args argsSize ret success retSize (s.withInputs x) =
      mapNext (·.withInputs x) (execCall ind l2Gas daGas addr args argsSize ret success retSize s) := by
  unfold execCall
  rw [callRequest_withInputs]
  cases callRequest ind l2Gas daGas addr args argsSize ret success retSize s with
  | error e => rfl
  | ok q =>
    simp only [ok_map, apply_ite (mapNext (·.withInputs x))]
    rfl

theorem haltOutput_withInputs (f : Family) (ind : BitVec 8) (ret size : BitVec 16) :
    haltOutput f ind ret size (s.withInputs x) =
      (fun p => (p.1.withInputs x, p.2)) <$> haltOutput f ind ret size s := by
  simp [haltOutput]

theorem execRet_withInputs (ind : BitVec 8) (ret size : BitVec 16) :
    execRet ind ret size (s.withInputs x) = mapNext (·.withInputs x) (execRet ind ret size s) := by
  simp [execRet, haltOutput_withInputs]

theorem execRevert_withInputs (ind : BitVec 8) (ret size : BitVec 16) :
    execRevert ind ret size (s.withInputs x) = mapNext (·.withInputs x) (execRevert ind ret size s) := by
  simp [execRevert, haltOutput_withInputs]

end WithInputs

/-- An instruction sees of the inputs only what it reads: with others in their place it does the same, and leaves the others
in place (R33, R228). -/
theorem exec_withInputs (i : Instr) (s : State) (x : FrameInputs) (env : readsEnv i = true → x.env = s.env)
    (calldata : readsCalldata i = true → x.calldata = s.calldata) :
    exec i (s.withInputs x) = mapNext (·.withInputs x) (exec i s) := by
  cases i with
  | add8 | add16 | sub8 | sub16 | mul8 | mul16 | div8 | div16 | mod8 | mod16 | fdiv8 | fdiv16 =>
    simp only [exec, execAdd8, execAdd16, execSub8, execSub16, execMul8, execMul16, execDiv8, execDiv16, execMod8,
      execMod16, execFdiv8, execFdiv16, arithmetic_withInputs]
  | cast8 | cast16 => simp only [exec, execCast8, execCast16, castCell_withInputs]
  | toRadixBE => exact execToRadixBE_withInputs s x ..
  | set8 | set16 | set32 | set64 | set128 =>
    simp only [exec, execSet8, execSet16, execSet32, execSet64, execSet128, setImmediate_withInputs]
  | mov8 | mov16 => simp only [exec, execMov8, execMov16, moveCell_withInputs]
  | calldataCopy => exact execCalldataCopy_withInputs s x (calldata rfl) ..
  | jump => exact execJump_withInputs s x ..
  | jumpi => exact execJumpi_withInputs s x ..
  | internalCall => exact execInternalCall_withInputs s x ..
  | internalReturn => exact execInternalReturn_withInputs s x ..
  | getEnvVar => exact execGetEnvVar_withInputs s x (env rfl) ..
  | sload => exact execSload_withInputs s x (env rfl) ..
  | sstore => exact execSstore_withInputs s x (env rfl) ..
  | noteHashExists | nullifierExists | l1ToL2MsgExists =>
    simp only [exec, execNoteHashExists, execNullifierExists, execL1ToL2MsgExists, membershipQuery_withInputs]
  | call => exact execCall_withInputs s x ..
  | ret => exact execRet_withInputs s x ..
  | revert => exact execRevert_withInputs s x ..

theorem mapNext_congr {o : Host.Outcome State Fault Refusal} {f g : State → State} (h : ∀ t, o = .next t → f t = g t) :
    mapNext f o = mapNext g o := by
  cases o with
  | next t => exact congrArg _ (h t rfl)
  | fault r => rfl
  | refused r => rfl

/-- Settles O37: each clause replaces some of the inputs and keeps the others, which no instruction changes
(`exec_inputs`). -/
theorem inputsReadOnlyByReaders : Obligations.InputsReadOnlyByReaders := by
  intro i s
  refine ⟨fun noEnv e => ?_, fun noCalldata c => ?_, fun l2 da => ?_⟩
  · refine (exec_withInputs i s ⟨e, s.calldata, s.l2Allotment, s.daAllotment⟩ (by simp [noEnv]) fun _ => rfl).trans
      (mapNext_congr fun t h => ?_)
    obtain ⟨-, calldata, -, l2Allotment, daAllotment⟩ := exec_inputs h
    rw [← calldata, ← l2Allotment, ← daAllotment]
    rfl
  · refine (exec_withInputs i s ⟨s.env, c, s.l2Allotment, s.daAllotment⟩ (fun _ => rfl) (by simp [noCalldata])).trans
      (mapNext_congr fun t h => ?_)
    obtain ⟨-, -, env, l2Allotment, daAllotment⟩ := exec_inputs h
    rw [← env, ← l2Allotment, ← daAllotment]
    rfl
  · refine (exec_withInputs i s ⟨s.env, s.calldata, l2, da⟩ (fun _ => rfl) fun _ => rfl).trans
      (mapNext_congr fun t h => ?_)
    obtain ⟨-, calldata, env, -, -⟩ := exec_inputs h
    rw [← calldata, ← env]
    rfl

end Sys2Proof.Machine

/-! PROOFS of the statements of 20_memory.md: what the resolver answers, which bits of a descriptor it looks at, what a
store leaves, and which fault phase 4 raises. -/

namespace Sys2Proof.Machine

/-! ## What a store leaves (20_memory.md R57, R137) -/

/-- Settles O25: the conversion leaves the memory, and a completed instruction stores only initialised cells. -/
theorem initializedStaysInitialized : Obligations.InitializedStaysInitialized := by
  intro s t a initialized h
  obtain ⟨-, ⟨e, -, rfl⟩ | ⟨i, -, effects⟩⟩ := step_cases h
  · exact initialized
  · exact effects.init a initialized

/-- Settles O34: the conversion leaves the memory, and the destinations of a completed instruction did resolve. -/
theorem memoryFrame : Obligations.MemoryFrame := by
  intro s t i h
  obtain ⟨e, -, rfl⟩ | effects := exec_effects h
  · exact ⟨fun _ _ _ _ => rfl, fun _ _ => rfl⟩
  · obtain ⟨ranges, stored, frame⟩ := effects.mem
    refine ⟨fun ranges' stored' a outside => ?_, fun e stored' => ?_⟩
    · cases stored.symm.trans stored'
      exact frame a outside
    · cases stored.symm.trans stored'

/-! ## The slots of a descriptor (20_memory.md R70, R76) -/

/-- The code of a mode: bit 0 is the INDIRECT flag, bit 1 the RELATIVE flag (R70, R93). -/
def modeCode : AddrMode → Nat
  | .direct => 0
  | .indirect => 1
  | .relative => 2
  | .indirectRelative => 3

theorem modeCode_inj {x y : AddrMode} : modeCode x = modeCode y ↔ x = y := by
  cases x <;> cases y <;> decide

theorem modeCode_slotMode {w : Nat} (d : BitVec w) (i : Nat) :
    modeCode (slotMode d i) = (d.getLsbD (2 * i)).toNat + 2 * (d.getLsbD (2 * i + 1)).toNat := by
  unfold slotMode
  cases d.getLsbD (2 * i) <;> cases d.getLsbD (2 * i + 1) <;> rfl

/-- The two bits of a number from bit 2i on are its digit i in base 4. -/
theorem testBit_pair_eq_digit (x i : Nat) :
    (x.testBit (2 * i)).toNat + 2 * (x.testBit (2 * i + 1)).toNat = x / 4 ^ i % 4 := by
  have base : (4 : Nat) ^ i = 2 ^ (2 * i) := by rw [Nat.pow_mul]
  rw [Nat.toNat_testBit, Nat.toNat_testBit, Nat.pow_succ, ← Nat.div_div_eq_div_mul, base]
  omega

theorem modeCode_slotMode_eq_digit {w : Nat} (d : BitVec w) (i : Nat) :
    modeCode (slotMode d i) = d.toNat / 4 ^ i % 4 := by
  rw [modeCode_slotMode, BitVec.getLsbD, BitVec.getLsbD, testBit_pair_eq_digit]

/-- Settles O32: a mode is known by its code, and the code of slot i is digit i of the descriptor in base 4. -/
theorem descriptorCodes : Obligations.DescriptorCodes := by
  intro w d i
  simp only [← modeCode_slotMode_eq_digit]
  exact ⟨modeCode_inj.symm, modeCode_inj.symm, modeCode_inj.symm, modeCode_inj.symm⟩

/-- The two descriptors agree on the first n slots. -/
def SameSlots {w : Nat} (n : Nat) (d d' : BitVec w) : Prop := ∀ i < n, slotMode d i = slotMode d' i

/-- A mask whose low 2n bits are set keeps the first n slots. -/
theorem sameSlots_and {w n : Nat} {mask : BitVec w} (ones : ∀ j < 2 * n, mask.getLsbD j = true) (d : BitVec w) :
    SameSlots n (d &&& mask) d := by
  intro i hi
  simp only [slotMode, BitVec.getLsbD_and, ones (2 * i) (by omega), ones (2 * i + 1) (by omega), Bool.and_true]

section SameSlots

variable {n : Nat} {s : State}

theorem SameSlots.slotAddr {w k i : Nat} {d d' : BitVec w} (h : SameSlots n d d') (hi : i < n) (m : Memory)
    (offset : BitVec k) : slotAddr m d i offset = slotAddr m d' i offset := by
  rw [slotAddr_eq, slotAddr_eq, h i hi]

theorem SameSlots.flagCount {w : Nat} {d d' : BitVec w} (h : SameSlots n d d') : flagCount d n = flagCount d' n := by
  induction n with
  | zero => rfl
  | succ n ih =>
    rw [Machine.flagCount, Machine.flagCount, ih fun i hi => h i (by omega), h n (by omega)]

theorem SameSlots.chargeFor {w : Nat} {d d' : BitVec w} (h : SameSlots n d d') (f : Family) (count : Nat) :
    chargeFor f d n count s = chargeFor f d' n count s := by
  rw [Machine.chargeFor, Machine.chargeFor, h.flagCount]

/-! ### Each meaning looks at the slots of its operands only -/

variable {ind ind' : BitVec 8}

theorem SameSlots.arithmetic {k : Nat} (h : SameSlots 3 ind ind') (f : Family) (width : Nat)
    (classCheck : Tag → Nat → Checked Unit) (op : Tag → Nat → Nat → Checked Nat) (a b dst : BitVec k) :
    arithmetic f width classCheck op ind a b dst s = arithmetic f width classCheck op ind' a b dst s := by
  simp (disch := decide) only [Machine.arithmetic, h.slotAddr, h.chargeFor]

theorem SameSlots.castCell {k : Nat} (h : SameSlots 2 ind ind') (width : Nat) (src dst : BitVec k) (tag : BitVec 8) :
    castCell width ind src dst tag s = castCell width ind' src dst tag s := by
  simp (disch := decide) only [Machine.castCell, h.slotAddr, h.chargeFor]

theorem SameSlots.execToRadixBE (h : SameSlots 4 ind ind') (src radix numLimbs dst : BitVec 16) :
    execToRadixBE ind src radix numLimbs dst s = execToRadixBE ind' src radix numLimbs dst s := by
  simp (disch := decide) only [Machine.execToRadixBE, h.slotAddr, h.chargeFor]

theorem SameSlots.setImmediate {k : Nat} (h : SameSlots 1 ind ind') (width : Nat) (dst : BitVec k) (tag : BitVec 8)
    (value : Nat) : setImmediate width ind dst tag value s = setImmediate width ind' dst tag value s := by
  simp (disch := decide) only [Machine.setImmediate, h.slotAddr, h.chargeFor]

theorem SameSlots.moveCell {k : Nat} (h : SameSlots 2 ind ind') (width : Nat) (src dst : BitVec k) :
    moveCell width ind src dst s = moveCell width ind' src dst s := by
  simp (disch := decide) only [Machine.moveCell, h.slotAddr, h.chargeFor]

theorem SameSlots.execCalldataCopy (h : SameSlots 3 ind ind') (cdOffset copySize dst : BitVec 16) :
    execCalldataCopy ind cdOffset copySize dst s = execCalldataCopy ind' cdOffset copySize dst s := by
  simp (disch := decide) only [Machine.execCalldataCopy, h.slotAddr, h.chargeFor]

theorem SameSlots.execJumpi (h : SameSlots 1 ind ind') (cond : BitVec 16) (target : BitVec 32) :
    execJumpi ind cond target s = execJumpi ind' cond target s := by
  simp (disch := decide) only [Machine.execJumpi, h.slotAddr, h.chargeFor]

theorem SameSlots.execGetEnvVar (h : SameSlots 1 ind ind') (dst : BitVec 16) (var : BitVec 8) :
    execGetEnvVar ind dst var s = execGetEnvVar ind' dst var s := by
  simp (disch := decide) only [Machine.execGetEnvVar, h.slotAddr, h.chargeFor]

theorem SameSlots.execSload (h : SameSlots 2 ind ind') (slot dst : BitVec 16) :
    execSload ind slot dst s = execSload ind' slot dst s := by
  simp (disch := decide) only [Machine.execSload, h.slotAddr, h.chargeFor]

theorem SameSlots.execSstore (h : SameSlots 2 ind ind') (src slot : BitVec 16) :
    execSstore ind src slot s = execSstore ind' src slot s := by
  simp (disch := decide) only [Machine.execSstore, h.slotAddr, h.chargeFor]

theorem SameSlots.membershipQuery (h : SameSlots 3 ind ind') (f : Family) (o : Oracle)
    (key existsDst valueDst : BitVec 16) :
    membershipQuery f o ind key existsDst valueDst s = membershipQuery f o ind' key existsDst valueDst s := by
  simp (disch := decide) only [Machine.membershipQuery, h.slotAddr, h.chargeFor]

theorem SameSlots.execCall {d d' : BitVec 16} (h : SameSlots 7 d d')
    (l2Gas daGas addr args argsSize ret success retSize : BitVec 16) :
    execCall d l2Gas daGas addr args argsSize ret success retSize s =
      execCall d' l2Gas daGas addr args argsSize ret success retSize s := by
  simp (disch := decide) only [Machine.execCall, callRequest, h.slotAddr, h.chargeFor]

theorem SameSlots.haltOutput (h : SameSlots 2 ind ind') (f : Family) (ret size : BitVec 16) :
    haltOutput f ind ret size s = haltOutput f ind' ret size s := by
  simp (disch := decide) only [Machine.haltOutput, h.slotAddr, h.chargeFor]

end SameSlots

/-- Settles O33: each mask of `clearIgnored` keeps the slots of the operands, and an instruction looks at no others. -/
theorem ignoredBitsHaveNoEffect : Obligations.IgnoredBitsHaveNoEffect := by
  intro i s
  have one (d : BitVec 8) : SameSlots 1 (d &&& 0x03) d := sameSlots_and (by decide) d
  have two (d : BitVec 8) : SameSlots 2 (d &&& 0x0F) d := sameSlots_and (by decide) d
  have three (d : BitVec 8) : SameSlots 3 (d &&& 0x3F) d := sameSlots_and (by decide) d
  have four (d : BitVec 8) : SameSlots 4 (d &&& 0xFF) d := sameSlots_and (by decide) d
  have seven (d : BitVec 16) : SameSlots 7 (d &&& 0x3FFF) d := sameSlots_and (by decide) d
  cases i with
  | add8 | add16 | sub8 | sub16 | mul8 | mul16 | div8 | div16 | mod8 | mod16 | fdiv8 | fdiv16 =>
    simp only [clearIgnored, exec, execAdd8, execAdd16, execSub8, execSub16, execMul8, execMul16, execDiv8, execDiv16,
      execMod8, execMod16, execFdiv8, execFdiv16, (three _).arithmetic]
  | cast8 | cast16 => simp only [clearIgnored, exec, execCast8, execCast16, (two _).castCell]
  | toRadixBE => simp only [clearIgnored, exec, (four _).execToRadixBE]
  | set8 | set16 | set32 | set64 | set128 =>
    simp only [clearIgnored, exec, execSet8, execSet16, execSet32, execSet64, execSet128, (one _).setImmediate]
  | mov8 | mov16 => simp only [clearIgnored, exec, execMov8, execMov16, (two _).moveCell]
  | calldataCopy => simp only [clearIgnored, exec, (three _).execCalldataCopy]
  | jump | internalCall | internalReturn => rfl
  | jumpi => simp only [clearIgnored, exec, (one _).execJumpi]
  | getEnvVar => simp only [clearIgnored, exec, (one _).execGetEnvVar]
  | sload => simp only [clearIgnored, exec, (two _).execSload]
  | sstore => simp only [clearIgnored, exec, (two _).execSstore]
  | noteHashExists | nullifierExists | l1ToL2MsgExists =>
    simp only [clearIgnored, exec, execNoteHashExists, execNullifierExists, execL1ToL2MsgExists,
      (three _).membershipQuery]
  | call => simp only [clearIgnored, exec, (seven _).execCall]
  | ret => simp only [clearIgnored, exec, execRet, (two _).haltOutput]
  | revert => simp only [clearIgnored, exec, execRevert, (two _).haltOutput]

/-! ## The resolver in each mode (20_memory.md R71 to R77) -/

section Resolver

variable {m : Memory} {mode : AddrMode} {off base p : Nat}

theorem resolveEach_one (m : Memory) (mode : AddrMode) (off : Nat) :
    resolveEach m [(mode, off)] = resolveOperand m mode off >>= fun a => .ok [a] := rfl

theorem resolveEach_direct (m : Memory) (offsets : List Nat) :
    resolveEach m (offsets.map fun o => (.direct, o)) = .ok offsets := by
  induction offsets with
  | nil => rfl
  | cons o offsets ih => rw [List.map_cons, resolveEach, resolveOperand_direct, ok_bind, ih, ok_bind]

theorem relativeAddr_of_lt (h : off + base < 2 ^ 32) : relativeAddr base off = .ok (off + base) :=
  relativeAddr_ok.mpr ⟨Nat.add_comm off base, Nat.add_comm off base ▸ h⟩

theorem resolveOperand_relative_of_base (hbase : readCell m 0 = ⟨.uint32, base⟩) (h : off + base < 2 ^ 32) :
    resolveOperand m .relative off = .ok (off + base) := by
  rw [resolveOperand, basePointer_ok.mpr hbase, ok_bind, relativeAddr_of_lt h]

theorem resolveOperand_indirectRelative_of_base (hbase : readCell m 0 = ⟨.uint32, base⟩) (h : off + base < 2 ^ 32) :
    resolveOperand m .indirectRelative off = derefPointer m (off + base) := by
  rw [resolveOperand, basePointer_ok.mpr hbase, ok_bind, relativeAddr_of_lt h, ok_bind]

/-- The two RELATIVE modes take the RELATIVE step first (R71, R74). -/
theorem resolveOperand_of_relative (hmode : mode ∈ [AddrMode.relative, .indirectRelative]) (m : Memory) (off : Nat) :
    ∃ f : Nat → Checked Nat, resolveOperand m mode off = basePointer m >>= fun b => relativeAddr b off >>= f := by
  simp only [List.mem_cons, List.not_mem_nil, or_false] at hmode
  obtain rfl | rfl := hmode
  · refine ⟨.ok, ?_⟩
    rw [resolveOperand]
    exact congrArg _ (funext fun b => (bind_pure (relativeAddr b off)).symm)
  · exact ⟨derefPointer m, rfl⟩

/-- What a `CheckTag(UINT32, p)` that decides the result of the resolution answers (R59, R72). -/
theorem resolveEach_one_of_checkTag {f : Nat → Checked Nat}
    (h : resolveOperand m mode off = checkTag m .uint32 p >>= f) :
    ((readCell m p).tag = .uninitialized →
      resolveEach m [(mode, off)] = .error ⟨.tagUninitialized, BitVec.ofNat 32 p, 0, 4⟩) ∧
    ((readCell m p).tag ≠ .uninitialized → (readCell m p).tag ≠ .uint32 →
      resolveEach m [(mode, off)] = .error ⟨.tagMismatch, BitVec.ofNat 32 p, tagCode (readCell m p).tag, 4⟩) ∧
    (∀ q, readCell m p = ⟨.uint32, q⟩ → resolveEach m [(mode, off)] = f q >>= fun a => .ok [a]) := by
  rw [resolveEach_one, h]
  refine ⟨fun uninitialized => ?_, fun initialized mismatch => ?_, fun q pointer => ?_⟩
  · rw [checkTag_error.mpr (.inl ⟨uninitialized, rfl⟩)]
    rfl
  · rw [checkTag_error.mpr (.inr ⟨initialized, mismatch, rfl⟩)]
    rfl
  · rw [(checkTag_ok (t := .uint32) nofun).mpr pointer, ok_bind]

/-- A list of operands: the first one's fault, else the fault of the rest, else the addresses in order (R74). -/
theorem resolveEach_cons_of_one (m : Memory) (o : AddrMode × Nat) (l : List (AddrMode × Nat)) :
    (∀ e, resolveEach m [o] = .error e → resolveEach m (o :: l) = .error e) ∧
    (∀ a, resolveEach m [o] = .ok [a] →
      (∀ e, resolveEach m l = .error e → resolveEach m (o :: l) = .error e) ∧
      (∀ out, resolveEach m l = .ok out → resolveEach m (o :: l) = .ok (a :: out))) := by
  obtain ⟨mode, off⟩ := o
  rw [resolveEach_one, resolveEach]
  cases resolveOperand m mode off with
  | error e => exact ⟨fun _ h => h, nofun⟩
  | ok p =>
    refine ⟨nofun, fun a h => ?_⟩
    cases h
    exact ⟨fun e he => by rw [he]; rfl, fun out hout => by rw [hout]; rfl⟩

end Resolver

/-- Settles O31: the caching algorithm resolves operand by operand (`cachedBaseIsFresh`), and each mode is the RELATIVE
step, the INDIRECT step, or the one after the other. -/
theorem resolverProperties : Obligations.ResolverProperties := by
  unfold Obligations.ResolverProperties
  simp only [cachedBaseIsFresh _ _]
  refine ⟨resolveEach_direct, fun m off => ⟨?_, fun mode hmode => ?_, fun base hbase inRange => ⟨?_, ?_⟩⟩,
    resolveEach_cons_of_one⟩
  · exact resolveEach_one_of_checkTag (f := .ok) (bind_pure _).symm
  · obtain ⟨f, hf⟩ := resolveOperand_of_relative hmode m off
    obtain ⟨uninitialized, mismatch, based⟩ := resolveEach_one_of_checkTag hf
    refine ⟨uninitialized, mismatch, fun base hbase tooLarge => ?_⟩
    rw [based base hbase, relativeAddr_error.mpr ⟨Nat.add_comm off base ▸ tooLarge, rfl⟩]
    rfl
  · rw [resolveEach_one, resolveOperand_relative_of_base hbase inRange, ok_bind]
  · refine resolveEach_one_of_checkTag (f := .ok) ?_
    rw [resolveOperand_indirectRelative_of_base hbase inRange]
    exact (bind_pure _).symm

/-! ## The addresses of the operands, slot by slot (20_memory.md R74) -/

section Slots

variable {m : Memory} {w k : Nat} {ind : BitVec w} {a b c d : BitVec k} {i j n l : Nat} {addrs : List Nat}

theorem slotAddr_of_resolveEach (h : resolveEach m [(slotMode ind i, a.toNat)] = .ok addrs) :
    ∃ p, slotAddr m ind i a = .ok p ∧ addrs = [p] := by
  obtain ⟨p, out, hp, hout, rfl⟩ := resolveEach_cons.mp h
  cases resolveEach_nil.mp hout
  exact ⟨p, hp, rfl⟩

theorem slotAddr_of_resolveEach_two
    (h : resolveEach m [(slotMode ind i, a.toNat), (slotMode ind j, b.toNat)] = .ok addrs) :
    ∃ p q, slotAddr m ind i a = .ok p ∧ slotAddr m ind j b = .ok q ∧ addrs = [p, q] := by
  obtain ⟨p, out, hp, hout, rfl⟩ := resolveEach_cons.mp h
  obtain ⟨q, hq, rfl⟩ := slotAddr_of_resolveEach hout
  exact ⟨p, q, hp, hq, rfl⟩

theorem slotAddr_of_resolveEach_three
    (h : resolveEach m [(slotMode ind i, a.toNat), (slotMode ind j, b.toNat), (slotMode ind n, c.toNat)] =
      .ok addrs) :
    ∃ p q r, slotAddr m ind i a = .ok p ∧ slotAddr m ind j b = .ok q ∧ slotAddr m ind n c = .ok r ∧
      addrs = [p, q, r] := by
  obtain ⟨p, out, hp, hout, rfl⟩ := resolveEach_cons.mp h
  obtain ⟨q, r, hq, hr, rfl⟩ := slotAddr_of_resolveEach_two hout
  exact ⟨p, q, r, hp, hq, hr, rfl⟩

theorem slotAddr_of_resolveEach_four
    (h : resolveEach m [(slotMode ind i, a.toNat), (slotMode ind j, b.toNat), (slotMode ind n, c.toNat),
      (slotMode ind l, d.toNat)] = .ok addrs) :
    ∃ p q r t, slotAddr m ind i a = .ok p ∧ slotAddr m ind j b = .ok q ∧ slotAddr m ind n c = .ok r ∧
      slotAddr m ind l d = .ok t ∧ addrs = [p, q, r, t] := by
  obtain ⟨p, out, hp, hout, rfl⟩ := resolveEach_cons.mp h
  obtain ⟨q, r, t, hq, hr, ht, rfl⟩ := slotAddr_of_resolveEach_three hout
  exact ⟨p, q, r, t, hp, hq, hr, ht, rfl⟩

end Slots

/-! ## The first failing check of a list raises (20_memory.md R58 to R62)

`RaisesFirst` is a small logic of phase 4: one rule for each checked read, which puts the demand of that read in front
of the demands of what follows it. -/

/-- `x` raises the error of the first of these checks that fails. -/
def RaisesFirst {α : Type} (m : Memory) (addrs : List Nat) (x : Checked α) (checks : List TagCheck) : Prop :=
  ∀ before c after, checks = before ++ c :: after → (∀ b ∈ before, b.Passes m addrs) → ¬ c.Passes m addrs →
    x = .error (c.error m addrs)

section TagCheck

variable {m : Memory} {addrs : List Nat} {slot other a b : Nat}

theorem passes_initialised (addr : addrs.getD slot 0 = a) :
    TagCheck.Passes m addrs ⟨slot, .initialised⟩ ↔ (readCell m a).tag ≠ .uninitialized := by
  subst addr
  exact and_iff_left trivial

theorem passes_tagged {t : Tag} (addr : addrs.getD slot 0 = a) :
    TagCheck.Passes m addrs ⟨slot, .tagged t⟩ ↔ (readCell m a).tag ≠ .uninitialized ∧ (readCell m a).tag = t := by
  subst addr
  rfl

theorem passes_integral (addr : addrs.getD slot 0 = a) :
    TagCheck.Passes m addrs ⟨slot, .integral⟩ ↔
      (readCell m a).tag ≠ .uninitialized ∧ (readCell m a).tag ≠ .field := by
  subst addr
  rfl

theorem passes_sameTagAs (addr : addrs.getD slot 0 = b) (otherAddr : addrs.getD other 0 = a) :
    TagCheck.Passes m addrs ⟨slot, .sameTagAs other⟩ ↔
      (readCell m b).tag ≠ .uninitialized ∧ (readCell m b).tag = (readCell m a).tag := by
  subst addr otherAddr
  rfl

theorem error_of_uninitialized (need : CellNeed) (addr : addrs.getD slot 0 = a)
    (h : (readCell m a).tag = .uninitialized) : TagCheck.error m addrs ⟨slot, need⟩ =
      tagError .tagUninitialized a .uninitialized (expectedCode m addrs need) := by
  subst addr
  exact if_pos h

theorem error_of_initialized (need : CellNeed) (addr : addrs.getD slot 0 = a)
    (h : (readCell m a).tag ≠ .uninitialized) : TagCheck.error m addrs ⟨slot, need⟩ =
      tagError .tagMismatch a (readCell m a).tag (expectedCode m addrs need) := by
  subst addr
  exact if_neg h

end TagCheck

section RaisesFirst

variable {α β : Type} {m : Memory} {addrs : List Nat} {cs : List TagCheck} {slot other a b : Nat}

theorem raisesFirst_nil (x : Checked α) : RaisesFirst m addrs x [] := by
  intro before c after split
  simp at split

theorem raisesFirst_cons {x : Checked α} {c : TagCheck} (failed : ¬ c.Passes m addrs → x = .error (c.error m addrs))
    (passed : c.Passes m addrs → RaisesFirst m addrs x cs) : RaisesFirst m addrs x (c :: cs) := by
  intro before c' after split pass fail
  cases before with
  | nil =>
    cases split
    exact failed fail
  | cons head before =>
    cases split
    exact passed (pass c (by simp)) before c' after rfl (fun b hb => pass b (by simp [hb])) fail

/-- What follows a computation does not matter once it has raised. -/
theorem RaisesFirst.bind {x : Checked α} (h : RaisesFirst m addrs x cs) (f : α → Checked β) :
    RaisesFirst m addrs (x >>= f) cs := by
  intro before c after split pass fail
  rw [h before c after split pass fail, error_bind]

theorem raisesFirst_readInit {f : MemCell → Checked α} (addr : addrs.getD slot 0 = a)
    (rest : (readCell m a).tag ≠ .uninitialized → RaisesFirst m addrs (f (readCell m a)) cs) :
    RaisesFirst m addrs (readInit m a >>= f) (⟨slot, .initialised⟩ :: cs) := by
  refine raisesFirst_cons (fun fail => ?_) fun pass => ?_
  · have uninitialized := not_not.mp ((passes_initialised addr).not.mp fail)
    rw [readInit_error.mpr ⟨uninitialized, rfl⟩, error_bind, error_of_uninitialized _ addr uninitialized]
    rfl
  · have initialized := (passes_initialised addr).mp pass
    rw [readInit_ok.mpr ⟨rfl, initialized⟩, ok_bind]
    exact rest initialized

theorem raisesFirst_checkTag {t : Tag} {f : Nat → Checked α} (addr : addrs.getD slot 0 = a)
    (rest : ∀ v, RaisesFirst m addrs (f v) cs) :
    RaisesFirst m addrs (checkTag m t a >>= f) (⟨slot, .tagged t⟩ :: cs) := by
  refine raisesFirst_cons (fun fail => ?_) fun pass => ?_
  · by_cases uninitialized : (readCell m a).tag = .uninitialized
    · rw [checkTag_error.mpr (.inl ⟨uninitialized, rfl⟩), error_bind, error_of_uninitialized _ addr uninitialized]
      rfl
    · have mismatch : (readCell m a).tag ≠ t := fun same => fail ((passes_tagged addr).mpr ⟨uninitialized, same⟩)
      rw [checkTag_error.mpr (.inr ⟨uninitialized, mismatch, rfl⟩), error_bind,
        error_of_initialized _ addr uninitialized]
      rfl
  · obtain ⟨initialized, rfl⟩ := (passes_tagged addr).mp pass
    rw [(checkTag_ok initialized).mpr rfl, ok_bind]
    exact rest _

/-- The rejection of a `FIELD` cell is the demand for an integral tag, of a cell that is initialised (R61). -/
theorem raisesFirst_rejectField {f : Unit → Checked α} (addr : addrs.getD slot 0 = a)
    (initialized : (readCell m a).tag ≠ .uninitialized) (rest : RaisesFirst m addrs (f ()) cs) :
    RaisesFirst m addrs (rejectField (readCell m a).tag a >>= f) (⟨slot, .integral⟩ :: cs) := by
  refine raisesFirst_cons (fun fail => ?_) fun pass => ?_
  · have isField : (readCell m a).tag = .field := by
      by_contra notField
      exact fail ((passes_integral addr).mpr ⟨initialized, notField⟩)
    rw [rejectField_error.mpr ⟨isField, rfl⟩, error_bind, error_of_initialized _ addr initialized, isField]
    rfl
  · rw [rejectField_ok.mpr ((passes_integral addr).mp pass).2, ok_bind]
    exact rest

/-- The rejection of every tag but `FIELD` is the demand for that tag, of a cell that is initialised (R181). -/
theorem raisesFirst_requireField {f : Unit → Checked α} (addr : addrs.getD slot 0 = a)
    (initialized : (readCell m a).tag ≠ .uninitialized) (rest : RaisesFirst m addrs (f ()) cs) :
    RaisesFirst m addrs (requireField (readCell m a).tag a >>= f) (⟨slot, .tagged .field⟩ :: cs) := by
  refine raisesFirst_cons (fun fail => ?_) fun pass => ?_
  · have notField : (readCell m a).tag ≠ .field := fun isField =>
      fail ((passes_tagged addr).mpr ⟨initialized, isField⟩)
    rw [requireField_error.mpr ⟨notField, rfl⟩, error_bind, error_of_initialized _ addr initialized]
    rfl
  · rw [requireField_ok.mpr ((passes_tagged addr).mp pass).2, ok_bind]
    exact rest

theorem raisesFirst_checkIntegral {f : MemCell → Checked α} (addr : addrs.getD slot 0 = a)
    (rest : RaisesFirst m addrs (f (readCell m a)) cs) :
    RaisesFirst m addrs (checkIntegral m a >>= f) (⟨slot, .integral⟩ :: cs) := by
  rw [checkIntegral, bind_assoc]
  by_cases h : (readCell m a).tag = .uninitialized
  · refine raisesFirst_cons (fun _ => ?_) fun pass => absurd h ((passes_integral addr).mp pass).1
    rw [readInit_error.mpr ⟨h, rfl⟩, error_bind, error_of_uninitialized _ addr h]
    rfl
  · rw [readInit_ok.mpr ⟨rfl, h⟩, ok_bind, bind_assoc]
    exact raisesFirst_rejectField addr h rest

/-- `CheckSame` makes the three checks of `sameTagChecks` in their order (R60). -/
theorem raisesFirst_checkSame {f : Tag × Nat × Nat → Checked α} (addrA : addrs.getD 0 0 = a)
    (addrB : addrs.getD 1 0 = b)
    (rest : ∀ x y, (readCell m a).tag ≠ .uninitialized → RaisesFirst m addrs (f ((readCell m a).tag, x, y)) cs) :
    RaisesFirst m addrs (checkSame m a b >>= f) (sameTagChecks ++ cs) := by
  rw [checkSame, bind_assoc]
  refine raisesFirst_readInit addrA fun initA => ?_
  rw [bind_assoc]
  refine raisesFirst_readInit addrB fun initB => raisesFirst_cons (fun fail => ?_) fun pass => ?_
  · have differ : (readCell m a).tag ≠ (readCell m b).tag := fun same =>
      fail ((passes_sameTagAs addrB addrA).mpr ⟨initB, same.symm⟩)
    have expected : expectedCode m addrs (.sameTagAs 0) = tagCode (readCell m a).tag := by rw [← addrA]; rfl
    rw [if_pos differ, error_bind, error_of_initialized _ addrB initB, expected]
  · have same := ((passes_sameTagAs addrB addrA).mp pass).2
    rw [if_neg (not_not_intro same.symm), ok_bind]
    exact rest _ _ initA

end RaisesFirst

/-! ## Phase 4 of each meaning (40_step_and_gas.md R135) -/

/-- The check that an arithmetic instruction makes on the common tag, after `CheckSame`, demands `extra` of the first
operand's cell. -/
def ClassCheckDemands (classCheck : Tag → Nat → Checked Unit) (extra : List TagCheck) : Prop :=
  ∀ (m : Memory) (addrs : List Nat) (a : Nat) (f : Unit → Checked State), addrs.getD 0 0 = a →
    (readCell m a).tag ≠ .uninitialized → RaisesFirst m addrs (classCheck (readCell m a).tag a >>= f) extra

theorem anyTag_demands : ClassCheckDemands anyTag [] := fun _ _ _ _ _ _ => raisesFirst_nil _

theorem rejectField_demands : ClassCheckDemands rejectField [⟨0, .integral⟩] := fun _ _ _ _ addr initialized =>
  raisesFirst_rejectField addr initialized (raisesFirst_nil _)

theorem requireField_demands : ClassCheckDemands requireField [⟨0, .tagged .field⟩] := fun _ _ _ _ addr initialized =>
  raisesFirst_requireField addr initialized (raisesFirst_nil _)

/-- The outcome is the conversion of the error of the first of these checks that fails. -/
def FaultsFirst (s : State) (addrs : List Nat) (o : Host.Outcome State Fault Refusal) (checks : List TagCheck) : Prop :=
  ∀ before c after, checks = before ++ c :: after → (∀ b ∈ before, b.Passes s.memory addrs) →
    ¬ c.Passes s.memory addrs → o = .next (takeFault (c.error s.memory addrs) s)

section FaultsFirst

variable {s : State} {addrs : List Nat} {ind : BitVec 8}

theorem RaisesFirst.faultsFirst {x : Checked State} {checks : List TagCheck}
    (h : RaisesFirst s.memory addrs x checks) : FaultsFirst s addrs (atFrameBoundary s x) checks := by
  intro before c after split pass fail
  rw [h before c after split pass fail, atFrameBoundary_error]

theorem faultsFirst_nil (o : Host.Outcome State Fault Refusal) : FaultsFirst s addrs o [] := by
  intro before c after split
  simp at split

theorem arithmetic_faultsFirst {k : Nat} {a b dst : BitVec k} {classCheck : Tag → Nat → Checked Unit}
    {extra : List TagCheck} (demands : ClassCheckDemands classCheck extra) (f : Family) (width : Nat)
    (op : Tag → Nat → Nat → Checked Nat)
    (resolved : resolveEach s.memory
      [(slotMode ind 0, a.toNat), (slotMode ind 1, b.toNat), (slotMode ind 2, dst.toNat)] = .ok addrs) :
    FaultsFirst s addrs (arithmetic f width classCheck op ind a b dst s) (sameTagChecks ++ extra) := by
  obtain ⟨pa, pb, pd, addrA, addrB, addrD, rfl⟩ := slotAddr_of_resolveEach_three resolved
  rw [arithmetic, addrA, ok_bind, addrB, ok_bind, addrD, ok_bind]
  exact (raisesFirst_checkSame rfl rfl fun _ _ initialized => demands _ _ _ _ rfl initialized).faultsFirst

theorem castCell_faultsFirst {k : Nat} {src dst : BitVec k} {tag : BitVec 8} (width : Nat)
    (tagOk : tagImmediateOk tag = true)
    (resolved : resolveEach s.memory [(slotMode ind 0, src.toNat), (slotMode ind 1, dst.toNat)] = .ok addrs) :
    FaultsFirst s addrs (castCell width ind src dst tag s) [⟨0, .initialised⟩] := by
  obtain ⟨ps, pd, addrS, addrD, rfl⟩ := slotAddr_of_resolveEach_two resolved
  obtain ⟨t, tagged⟩ : ∃ t, tagOfImmediate tag = some t := by
    refine Option.ne_none_iff_exists'.mp fun none => ?_
    have := tagOfImmediate_none.mp none
    simp [tagImmediateOk] at tagOk
    omega
  rw [castCell, addrS, ok_bind, addrD, ok_bind, checkTagImmediate_ok.mpr tagged, ok_bind]
  exact (raisesFirst_readInit rfl fun _ => raisesFirst_nil _).faultsFirst

theorem execToRadixBE_faultsFirst {src radix numLimbs dst : BitVec 16}
    (resolved : resolveEach s.memory (operands (.toRadixBE ind src radix numLimbs dst)) = .ok addrs) :
    FaultsFirst s addrs (execToRadixBE ind src radix numLimbs dst s)
      [⟨0, .tagged .field⟩, ⟨1, .tagged .uint32⟩, ⟨2, .tagged .uint32⟩] := by
  obtain ⟨ps, pr, pn, pd, addrS, addrR, addrN, addrD, rfl⟩ := slotAddr_of_resolveEach_four resolved
  rw [execToRadixBE, addrS, ok_bind, addrR, ok_bind, addrN, ok_bind, addrD, ok_bind]
  exact (raisesFirst_checkTag rfl fun _ => raisesFirst_checkTag rfl fun _ => raisesFirst_checkTag rfl fun _ =>
    raisesFirst_nil _).faultsFirst

theorem moveCell_faultsFirst {k : Nat} {src dst : BitVec k} (width : Nat)
    (resolved : resolveEach s.memory [(slotMode ind 0, src.toNat), (slotMode ind 1, dst.toNat)] = .ok addrs) :
    FaultsFirst s addrs (moveCell width ind src dst s) [⟨0, .initialised⟩] := by
  obtain ⟨ps, pd, addrS, addrD, rfl⟩ := slotAddr_of_resolveEach_two resolved
  rw [moveCell, addrS, ok_bind, addrD, ok_bind]
  exact (raisesFirst_readInit rfl fun _ => raisesFirst_nil _).faultsFirst

theorem execCalldataCopy_faultsFirst {cdOffset copySize dst : BitVec 16}
    (resolved : resolveEach s.memory (operands (.calldataCopy ind cdOffset copySize dst)) = .ok addrs) :
    FaultsFirst s addrs (execCalldataCopy ind cdOffset copySize dst s)
      [⟨0, .tagged .uint32⟩, ⟨1, .tagged .uint32⟩] := by
  obtain ⟨po, pk, pd, addrO, addrK, addrD, rfl⟩ := slotAddr_of_resolveEach_three resolved
  rw [execCalldataCopy, addrO, ok_bind, addrK, ok_bind, addrD, ok_bind]
  exact (raisesFirst_checkTag rfl fun _ => raisesFirst_checkTag rfl fun _ => raisesFirst_nil _).faultsFirst

theorem execJumpi_faultsFirst {cond : BitVec 16} {target : BitVec 32}
    (resolved : resolveEach s.memory (operands (.jumpi ind cond target)) = .ok addrs) :
    FaultsFirst s addrs (execJumpi ind cond target s) [⟨0, .integral⟩] := by
  obtain ⟨pc, addrC, rfl⟩ := slotAddr_of_resolveEach resolved
  rw [execJumpi, addrC, ok_bind]
  exact (raisesFirst_checkIntegral rfl (raisesFirst_nil _)).faultsFirst

theorem execSload_faultsFirst {slot dst : BitVec 16}
    (resolved : resolveEach s.memory (operands (.sload ind slot dst)) = .ok addrs) :
    FaultsFirst s addrs (execSload ind slot dst s) [⟨0, .tagged .field⟩] := by
  obtain ⟨pk, pd, addrK, addrD, rfl⟩ := slotAddr_of_resolveEach_two resolved
  rw [execSload, addrK, ok_bind, addrD, ok_bind]
  exact (raisesFirst_checkTag rfl fun _ => raisesFirst_nil _).faultsFirst

theorem execSstore_faultsFirst {src slot : BitVec 16}
    (resolved : resolveEach s.memory (operands (.sstore ind src slot)) = .ok addrs) :
    FaultsFirst s addrs (execSstore ind src slot s) [⟨0, .tagged .field⟩, ⟨1, .tagged .field⟩] := by
  obtain ⟨pv, pk, addrV, addrK, rfl⟩ := slotAddr_of_resolveEach_two resolved
  rw [execSstore, addrV, ok_bind, addrK, ok_bind]
  exact (raisesFirst_checkTag rfl fun _ => raisesFirst_checkTag rfl fun _ => raisesFirst_nil _).faultsFirst

theorem membershipQuery_faultsFirst {key existsDst valueDst : BitVec 16} (f : Family) (o : Oracle)
    (resolved : resolveEach s.memory
      [(slotMode ind 0, key.toNat), (slotMode ind 1, existsDst.toNat), (slotMode ind 2, valueDst.toNat)] = .ok addrs) :
    FaultsFirst s addrs (membershipQuery f o ind key existsDst valueDst s) [⟨0, .tagged .field⟩] := by
  obtain ⟨pk, pe, pv, addrK, addrE, addrV, rfl⟩ := slotAddr_of_resolveEach_three resolved
  rw [membershipQuery, addrK, ok_bind, addrE, ok_bind, addrV, ok_bind]
  exact (raisesFirst_checkTag rfl fun _ => raisesFirst_nil _).faultsFirst

theorem haltOutput_raisesFirst {ret size : BitVec 16} (f : Family)
    (resolved : resolveEach s.memory [(slotMode ind 0, ret.toNat), (slotMode ind 1, size.toNat)] = .ok addrs) :
    RaisesFirst s.memory addrs (haltOutput f ind ret size s) [⟨1, .tagged .uint32⟩] := by
  obtain ⟨pr, pz, addrR, addrZ, rfl⟩ := slotAddr_of_resolveEach_two resolved
  rw [haltOutput, addrR, ok_bind, addrZ, ok_bind]
  exact raisesFirst_checkTag rfl fun _ => raisesFirst_nil _

theorem execRet_faultsFirst {ret size : BitVec 16}
    (resolved : resolveEach s.memory (operands (.ret ind ret size)) = .ok addrs) :
    FaultsFirst s addrs (execRet ind ret size s) [⟨1, .tagged .uint32⟩] :=
  ((haltOutput_raisesFirst .ret resolved).bind _).faultsFirst

theorem execRevert_faultsFirst {ret size : BitVec 16}
    (resolved : resolveEach s.memory (operands (.revert ind ret size)) = .ok addrs) :
    FaultsFirst s addrs (execRevert ind ret size s) [⟨1, .tagged .uint32⟩] :=
  ((haltOutput_raisesFirst .revert resolved).bind _).faultsFirst

/-! ### `CALL` (45_environment_host.md R300) -/

section Call

variable {d l2Gas daGas addr args argsSize ret success retSize : BitVec 16}

/-- `CALL` without its phase 3: what it does once its operands have resolved. -/
def callRequestAt (d retSize : BitVec 16) (pl pd pc pa pn pr po : Nat) (s : State) : Checked CallRequest := do
  let gl ← checkTag s.memory .uint64 pl
  let gd ← checkTag s.memory .uint64 pd
  let c ← checkTag s.memory .field pc
  let n ← checkTag s.memory .uint32 pn
  let charged ← chargeFor .call d 7 n s
  checkSlice pa n
  checkSlice pr retSize.toNat
  let values ← readSlice s.memory pa n
  .ok
    { contract := fieldOfNat c
      args := values.map fieldOfNat
      l2Offer := clampOffer gl charged.l2Gas
      daOffer := clampOffer gd charged.daGas
      retAddr := pr
      successAddr := po
      charged := charged }

theorem callRequest_of_resolved
    (resolved : resolveEach s.memory (operands (.call d l2Gas daGas addr args argsSize ret success retSize)) =
      .ok addrs) :
    ∃ pl pd pc pa pn pr po, addrs = [pl, pd, pc, pa, pn, pr, po] ∧
      callRequest d l2Gas daGas addr args argsSize ret success retSize s =
        callRequestAt d retSize pl pd pc pa pn pr po s := by
  obtain ⟨pl, outL, addrL, restL, rfl⟩ := resolveEach_cons.mp resolved
  obtain ⟨pd, outD, addrD, restD, rfl⟩ := resolveEach_cons.mp restL
  obtain ⟨pc, outC, addrC, restC, rfl⟩ := resolveEach_cons.mp restD
  obtain ⟨pa, pn, pr, po, addrA, addrN, addrR, addrO, rfl⟩ := slotAddr_of_resolveEach_four restC
  refine ⟨pl, pd, pc, pa, pn, pr, po, rfl, ?_⟩
  rw [← slotAddr_eq] at addrL addrD addrC
  rw [callRequest, addrL, ok_bind, addrD, ok_bind, addrC, ok_bind, addrA, ok_bind, addrN, ok_bind, addrR, ok_bind,
    addrO, ok_bind, callRequestAt]

theorem execCall_of_error {e : ErrReg}
    (h : callRequest d l2Gas daGas addr args argsSize ret success retSize s = .error e) :
    execCall d l2Gas daGas addr args argsSize ret success retSize s = .next (takeFault e s) := by
  rw [execCall, h]

theorem execCall_faultsFirst
    (resolved : resolveEach s.memory (operands (.call d l2Gas daGas addr args argsSize ret success retSize)) =
      .ok addrs) :
    FaultsFirst s addrs (execCall d l2Gas daGas addr args argsSize ret success retSize s)
      [⟨0, .tagged .uint64⟩, ⟨1, .tagged .uint64⟩, ⟨2, .tagged .field⟩, ⟨4, .tagged .uint32⟩] := by
  obtain ⟨pl, pd, pc, pa, pn, pr, po, rfl, request⟩ := callRequest_of_resolved resolved
  intro before c after split pass fail
  refine execCall_of_error ?_
  rw [request, callRequestAt]
  exact (raisesFirst_checkTag rfl fun _ => raisesFirst_checkTag rfl fun _ => raisesFirst_checkTag rfl fun _ =>
    raisesFirst_checkTag rfl fun _ => raisesFirst_nil _) before c after split pass fail

end Call

end FaultsFirst

/-- Phase 4 of every instruction raises the error of the first check of its list that fails (R135). -/
theorem exec_faultsFirst {s : State} {i : Instr} {addrs : List Nat}
    (resolved : resolveEach s.memory (operands i) = .ok addrs) (immediates : wellFormed i = true) :
    FaultsFirst s addrs (exec i s) (tagChecks i) := by
  cases i with
  | add8 | add16 | sub8 | sub16 | mul8 | mul16 =>
    simp only [exec, execAdd8, execAdd16, execSub8, execSub16, execMul8, execMul16]
    exact arithmetic_faultsFirst anyTag_demands _ _ _ resolved
  | div8 | div16 | mod8 | mod16 =>
    simp only [exec, execDiv8, execDiv16, execMod8, execMod16]
    exact arithmetic_faultsFirst rejectField_demands _ _ _ resolved
  | fdiv8 | fdiv16 =>
    simp only [exec, execFdiv8, execFdiv16]
    exact arithmetic_faultsFirst requireField_demands _ _ _ resolved
  | cast8 | cast16 => exact castCell_faultsFirst _ immediates resolved
  | toRadixBE => exact execToRadixBE_faultsFirst resolved
  | set8 | set16 | set32 | set64 | set128 | jump | internalCall | internalReturn | getEnvVar =>
    exact faultsFirst_nil _
  | mov8 | mov16 => exact moveCell_faultsFirst _ resolved
  | calldataCopy => exact execCalldataCopy_faultsFirst resolved
  | jumpi => exact execJumpi_faultsFirst resolved
  | sload => exact execSload_faultsFirst resolved
  | sstore => exact execSstore_faultsFirst resolved
  | noteHashExists | nullifierExists | l1ToL2MsgExists => exact membershipQuery_faultsFirst _ _ resolved
  | call => exact execCall_faultsFirst resolved
  | ret => exact execRet_faultsFirst resolved
  | revert => exact execRevert_faultsFirst resolved

/-- Settles O16: the rules of `RaisesFirst`, along the checks of each meaning. -/
theorem operandTagFaults : Obligations.OperandTagFaults := by
  intro s i addrs before after c resolved immediates split pass fail
  exact exec_faultsFirst resolved immediates before c after split pass fail

/-- The arithmetic instructions have no immediate, and start phase 4 with `CheckSame` (R170). -/
theorem arithmetic_tagChecks {i : Instr} (h : familyOf i ∈ [Family.add, .sub, .mul, .div, .mod, .fdiv]) :
    wellFormed i = true ∧ ∃ extra, tagChecks i = sameTagChecks ++ extra := by
  cases i with
  | add8 | add16 | sub8 | sub16 | mul8 | mul16 => exact ⟨rfl, [], rfl⟩
  | div8 | div16 | mod8 | mod16 | fdiv8 | fdiv16 => exact ⟨rfl, _, rfl⟩
  | _ => simp [familyOf] at h

/-- Settles O14: the three checks of `CheckSame` stand first in the list of `tagChecks`, and one clause is about each. -/
theorem arithmeticTagFaults : Obligations.ArithmeticTagFaults := by
  intro s i pa pb pd family resolved
  obtain ⟨immediates, extra, checks⟩ := arithmetic_tagChecks family
  have first := exec_faultsFirst resolved immediates
  have passA (h : (readCell s.memory pa).tag ≠ .uninitialized) :
      TagCheck.Passes s.memory [pa, pb, pd] ⟨0, .initialised⟩ := (passes_initialised rfl).mpr h
  have passB (h : (readCell s.memory pb).tag ≠ .uninitialized) :
      TagCheck.Passes s.memory [pa, pb, pd] ⟨1, .initialised⟩ := (passes_initialised rfl).mpr h
  refine ⟨fun blankA => ?_, fun initA blankB => ?_, fun initA initB differ => ?_⟩
  · refine (first [] ⟨0, .initialised⟩ _ checks (by simp) fun pass => ?_).trans ?_
    · exact (passes_initialised rfl).mp pass blankA
    · rw [error_of_uninitialized _ rfl blankA]
      rfl
  · refine (first [_] ⟨1, .initialised⟩ _ checks (by simpa using passA initA) fun pass => ?_).trans ?_
    · exact (passes_initialised rfl).mp pass blankB
    · rw [error_of_uninitialized _ rfl blankB]
      rfl
  · refine (first [_, _] ⟨1, .sameTagAs 0⟩ _ checks (by simpa using ⟨passA initA, passB initB⟩) fun pass => ?_).trans ?_
    · exact differ ((passes_sameTagAs rfl rfl).mp pass).2.symm
    · rw [error_of_initialized _ rfl initB]
      rfl

/-! ## The checks of `CALL` before its request (45_environment_host.md R300) -/

/-- Phase 6 of `CALL` once phases 3 to 5 have passed: the slices are checked, then the arguments are read. -/
theorem callRequestAt_of_paid {s : State} {d retSize : BitVec 16} {pl pd pc pa pn pr po gl gd c n : Nat}
    (l2Cell : readCell s.memory pl = ⟨.uint64, gl⟩) (daCell : readCell s.memory pd = ⟨.uint64, gd⟩)
    (addrCell : readCell s.memory pc = ⟨.field, c⟩) (sizeCell : readCell s.memory pn = ⟨.uint32, n⟩)
    (covered : Covered s .call (flagCount d 7) n) :
    ∃ finish : List Nat → Checked CallRequest, callRequestAt d retSize pl pd pc pa pn pr po s =
      checkSlice pa n >>= fun _ => checkSlice pr retSize.toNat >>= fun _ => readSlice s.memory pa n >>= finish := by
  rw [callRequestAt, (checkTag_ok (t := .uint64) nofun).mpr l2Cell, ok_bind,
    (checkTag_ok (t := .uint64) nofun).mpr daCell, ok_bind, (checkTag_ok (t := .field) nofun).mpr addrCell, ok_bind,
    (checkTag_ok (t := .uint32) nofun).mpr sizeCell, ok_bind, chargeFor_of_covered covered, ok_bind]
  exact ⟨_, rfl⟩

/-- Settles O57: one clause for each of the three checks of `callRequestAt_of_paid`. -/
theorem callChecksPrecedeRequest : Obligations.CallChecksPrecedeRequest := by
  intro s d l2Gas daGas addr args argsSize ret success retSize pl pd pc pa pn pr po gl gd c n i resolved l2Cell daCell
    addrCell sizeCell affords
  have covered : Covered s .call (flagCount d 7) n := by
    rw [← instrFlags_slots7]
    exact affords
  obtain ⟨pl', pd', pc', pa', pn', pr', po', same, request⟩ := callRequest_of_resolved resolved
  cases same
  obtain ⟨finish, checks⟩ := callRequestAt_of_paid (pa := pa) (pr := pr) (po := po) (retSize := retSize) l2Cell daCell
    addrCell sizeCell covered
  have raises {e : ErrReg} (h : callRequestAt d retSize pl pd pc pa pn pr po s = .error e) :
      exec i s = .next (takeFault e s) := execCall_of_error (request.trans h)
  refine ⟨fun argsTooLong => raises ?_, fun argsFit retTooLong => raises ?_,
    fun j argsFit retFits inArgs blank lowest => raises ?_⟩
  · rw [checks, checkSlice_error.mpr ⟨argsTooLong, rfl⟩, error_bind]
    rfl
  · rw [checks, (checkSlice_ok (u := ())).mpr argsFit, ok_bind, checkSlice_error.mpr ⟨retTooLong, rfl⟩, error_bind]
    rfl
  · rw [checks, (checkSlice_ok (u := ())).mpr argsFit, ok_bind, (checkSlice_ok (u := ())).mpr retFits, ok_bind,
      readSlice_error.mpr ⟨j, inArgs, blank, lowest, rfl⟩, error_bind]
    rfl

end Sys2Proof.Machine

/-! PROOFS of the statements of 30_encoding.md: the codec inverts the encoder, where a load fails, and which
instructions raise for a reserved immediate.

Per format there is one law of its reader, an `↔` with the bytes the encoder writes. Two case splits use them: over the
instructions, decoding reads back what `encode` wrote, and over the opcode bytes, what decodes was written by `encode`.
Everything after that, truncation included, follows from these two and from the recursion of the linear decode. -/

namespace Sys2Proof

/-! ## The formats (30_encoding.md R100) -/

section Formats

variable {bs rest : List Byte} {i : Instr}

/-- Reading a field of whole bytes succeeds exactly on the bytes of a field. -/
theorem takeField_eq_some {w : Nat} (hw : 8 ∣ w) {v : BitVec w} :
    takeField w bs = some (v, rest) ↔ bs = putField w v ++ rest :=
  ⟨putField_of_takeField hw, fun h => h ▸ takeField_putField hw v rest⟩

theorem readI32_eq_some {mk : BitVec 32 → Instr} :
    readI32 mk bs = some (i, rest) ↔ ∃ imm, bs = putField 32 imm ++ rest ∧ mk imm = i := by
  simp [readI32, Option.bind_eq_some_iff, takeField_eq_some]

theorem read2A8_eq_some {mk : BitVec 8 → BitVec 8 → BitVec 8 → Instr} :
    read2A8 mk bs = some (i, rest) ↔
      ∃ ind s0 s1, bs = (putField 8 ind ++ putField 8 s0 ++ putField 8 s1) ++ rest ∧ mk ind s0 s1 = i := by
  simp [read2A8, Option.bind_eq_some_iff, takeField_eq_some]

theorem read3B_eq_some {mk : BitVec 8 → BitVec 8 → BitVec 8 → BitVec 8 → Instr} :
    read3B mk bs = some (i, rest) ↔ ∃ ind f1 f2 f3,
      bs = (putField 8 ind ++ putField 8 f1 ++ putField 8 f2 ++ putField 8 f3) ++ rest ∧ mk ind f1 f2 f3 = i := by
  simp [read3B, Option.bind_eq_some_iff, takeField_eq_some]

theorem readA16I8_eq_some {mk : BitVec 8 → BitVec 16 → BitVec 8 → Instr} :
    readA16I8 mk bs = some (i, rest) ↔
      ∃ ind s0 imm, bs = (putField 8 ind ++ putField 16 s0 ++ putField 8 imm) ++ rest ∧ mk ind s0 imm = i := by
  simp [readA16I8, Option.bind_eq_some_iff, takeField_eq_some]

theorem read2A16_eq_some {mk : BitVec 8 → BitVec 16 → BitVec 16 → Instr} :
    read2A16 mk bs = some (i, rest) ↔
      ∃ ind s0 s1, bs = (putField 8 ind ++ putField 16 s0 ++ putField 16 s1) ++ rest ∧ mk ind s0 s1 = i := by
  simp [read2A16, Option.bind_eq_some_iff, takeField_eq_some]

theorem read2A16T_eq_some {mk : BitVec 8 → BitVec 16 → BitVec 16 → BitVec 8 → Instr} :
    read2A16T mk bs = some (i, rest) ↔ ∃ ind s0 s1 tag,
      bs = (putField 8 ind ++ putField 16 s0 ++ putField 16 s1 ++ putField 8 tag) ++ rest ∧ mk ind s0 s1 tag = i := by
  simp [read2A16T, Option.bind_eq_some_iff, takeField_eq_some]

theorem readA16TI_eq_some {w : Nat} (hw : 8 ∣ w) {mk : BitVec 8 → BitVec 16 → BitVec 8 → BitVec w → Instr} :
    readA16TI w mk bs = some (i, rest) ↔ ∃ ind s0 tag imm,
      bs = (putField 8 ind ++ putField 16 s0 ++ putField 8 tag ++ putField w imm) ++ rest ∧ mk ind s0 tag imm = i := by
  simp [readA16TI, Option.bind_eq_some_iff, takeField_eq_some, hw]

theorem read3A16_eq_some {mk : BitVec 8 → BitVec 16 → BitVec 16 → BitVec 16 → Instr} :
    read3A16 mk bs = some (i, rest) ↔ ∃ ind s0 s1 s2,
      bs = (putField 8 ind ++ putField 16 s0 ++ putField 16 s1 ++ putField 16 s2) ++ rest ∧ mk ind s0 s1 s2 = i := by
  simp [read3A16, Option.bind_eq_some_iff, takeField_eq_some]

theorem readA16I32_eq_some {mk : BitVec 8 → BitVec 16 → BitVec 32 → Instr} :
    readA16I32 mk bs = some (i, rest) ↔
      ∃ ind s0 imm, bs = (putField 8 ind ++ putField 16 s0 ++ putField 32 imm) ++ rest ∧ mk ind s0 imm = i := by
  simp [readA16I32, Option.bind_eq_some_iff, takeField_eq_some]

theorem read4A16_eq_some {mk : BitVec 8 → BitVec 16 → BitVec 16 → BitVec 16 → BitVec 16 → Instr} :
    read4A16 mk bs = some (i, rest) ↔ ∃ ind s0 s1 s2 s3,
      bs = (putField 8 ind ++ putField 16 s0 ++ putField 16 s1 ++ putField 16 s2 ++ putField 16 s3) ++ rest ∧
      mk ind s0 s1 s2 s3 = i := by
  simp [read4A16, Option.bind_eq_some_iff, takeField_eq_some]

theorem read7A16I16_eq_some
    {mk : BitVec 16 → BitVec 16 → BitVec 16 → BitVec 16 → BitVec 16 → BitVec 16 → BitVec 16 → BitVec 16 →
      BitVec 16 → Instr} :
    read7A16I16 mk bs = some (i, rest) ↔ ∃ ind s0 s1 s2 s3 s4 s5 s6 imm,
      bs = (putField 16 ind ++ putField 16 s0 ++ putField 16 s1 ++ putField 16 s2 ++ putField 16 s3 ++
        putField 16 s4 ++ putField 16 s5 ++ putField 16 s6 ++ putField 16 imm) ++ rest ∧
      mk ind s0 s1 s2 s3 s4 s5 s6 imm = i := by
  simp only [read7A16I16, Option.bind_eq_bind, Option.bind_eq_some_iff, Option.some.injEq, Prod.mk.injEq,
    Prod.exists, Nat.reduceDvd, takeField_eq_some, exists_eq_right_right, ↓existsAndEq, true_and, List.append_assoc]

end Formats

/-! ## One instruction (30_encoding.md R94, R97, R98) -/

section OneInstruction

variable {offset : Nat} {op : Byte} {bs rest : List Byte} {i : Instr} {read : List Byte → Option (Instr × List Byte)}

/-- The opcode map has a reader for the 36 bytes 0x00 to 0x23 and no other (R101, R102). -/
theorem operandReader_eq_none {n : Nat} : operandReader n = none ↔ 0x24 ≤ n := by
  have assigned : ∀ n < 0x24, operandReader n ≠ none := by decide
  refine ⟨fun h => Nat.le_of_not_lt fun lt => assigned n lt h, fun h => ?_⟩
  obtain ⟨m, rfl⟩ := Nat.exists_eq_add_of_le' h
  rfl

theorem decodeOne_of_read (assigned : operandReader op.toNat = some read) (reads : read bs = some (i, rest)) :
    decodeOne offset (op :: bs) = .ok (i, rest) := by
  simp only [decodeOne, assigned, reads]

theorem decodeOne_ok (h : decodeOne offset bs = .ok (i, rest)) :
    ∃ op operands read, bs = op :: operands ∧ operandReader op.toNat = some read ∧
      read operands = some (i, rest) := by
  unfold decodeOne at h
  split at h
  · cases h
  · split at h
    · cases h
    · split at h
      · cases h
      · rename_i reads
        cases h
        exact ⟨_, _, _, rfl, ‹_›, reads⟩

/-- R98: the decoder reads back what the encoder wrote, and leaves what follows it. -/
theorem decodeOne_encode (offset : Nat) (i : Instr) (rest : List Byte) :
    decodeOne offset (encode i ++ rest) = .ok (i, rest) := by
  cases i with
  | add8 | sub8 | mul8 | div8 | mod8 | fdiv8 | cast8 | set8 =>
    exact decodeOne_of_read rfl (read3B_eq_some.mpr ⟨_, _, _, _, rfl, rfl⟩)
  | add16 | sub16 | mul16 | div16 | mod16 | fdiv16 | calldataCopy | noteHashExists | nullifierExists
  | l1ToL2MsgExists => exact decodeOne_of_read rfl (read3A16_eq_some.mpr ⟨_, _, _, _, rfl, rfl⟩)
  | mov16 | sload | sstore | ret | revert =>
    exact decodeOne_of_read rfl (read2A16_eq_some.mpr ⟨_, _, _, rfl, rfl⟩)
  | set16 | set32 | set64 | set128 =>
    exact decodeOne_of_read rfl ((readA16TI_eq_some (by decide)).mpr ⟨_, _, _, _, rfl, rfl⟩)
  | jump | internalCall => exact decodeOne_of_read rfl (readI32_eq_some.mpr ⟨_, rfl, rfl⟩)
  | cast16 => exact decodeOne_of_read rfl (read2A16T_eq_some.mpr ⟨_, _, _, _, rfl, rfl⟩)
  | toRadixBE => exact decodeOne_of_read rfl (read4A16_eq_some.mpr ⟨_, _, _, _, _, rfl, rfl⟩)
  | mov8 => exact decodeOne_of_read rfl (read2A8_eq_some.mpr ⟨_, _, _, rfl, rfl⟩)
  | jumpi => exact decodeOne_of_read rfl (readA16I32_eq_some.mpr ⟨_, _, _, rfl, rfl⟩)
  | internalReturn => rfl
  | getEnvVar => exact decodeOne_of_read rfl (readA16I8_eq_some.mpr ⟨_, _, _, rfl, rfl⟩)
  | call => exact decodeOne_of_read rfl (read7A16I16_eq_some.mpr ⟨_, _, _, _, _, _, _, _, _, rfl, rfl⟩)

/-- What an opcode's reader reads is what the encoder writes after that opcode. -/
theorem encode_of_read {n : Nat} (assigned : operandReader n = some read) (reads : read bs = some (i, rest)) :
    BitVec.ofNat 8 n :: bs = encode i ++ rest := by
  match n, assigned with
  | 0x00, h | 0x02, h | 0x04, h | 0x06, h | 0x08, h | 0x0A, h | 0x0C, h | 0x0F, h =>
    cases h
    obtain ⟨_, _, _, _, rfl, rfl⟩ := read3B_eq_some.mp reads
    rfl
  | 0x01, h | 0x03, h | 0x05, h | 0x07, h | 0x09, h | 0x0B, h | 0x16, h | 0x1E, h | 0x1F, h | 0x20, h =>
    cases h
    obtain ⟨_, _, _, _, rfl, rfl⟩ := read3A16_eq_some.mp reads
    rfl
  | 0x15, h | 0x1C, h | 0x1D, h | 0x22, h | 0x23, h =>
    cases h
    obtain ⟨_, _, _, rfl, rfl⟩ := read2A16_eq_some.mp reads
    rfl
  | 0x10, h | 0x11, h | 0x12, h | 0x13, h =>
    cases h
    obtain ⟨_, _, _, _, rfl, rfl⟩ := (readA16TI_eq_some (by decide)).mp reads
    rfl
  | 0x17, h | 0x19, h =>
    cases h
    obtain ⟨_, rfl, rfl⟩ := readI32_eq_some.mp reads
    rfl
  | 0x0D, h =>
    cases h
    obtain ⟨_, _, _, _, rfl, rfl⟩ := read2A16T_eq_some.mp reads
    rfl
  | 0x0E, h =>
    cases h
    obtain ⟨_, _, _, _, _, rfl, rfl⟩ := read4A16_eq_some.mp reads
    rfl
  | 0x14, h =>
    cases h
    obtain ⟨_, _, _, rfl, rfl⟩ := read2A8_eq_some.mp reads
    rfl
  | 0x18, h =>
    cases h
    obtain ⟨_, _, _, rfl, rfl⟩ := readA16I32_eq_some.mp reads
    rfl
  | 0x1A, h =>
    cases h
    cases reads
    rfl
  | 0x1B, h =>
    cases h
    obtain ⟨_, _, _, rfl, rfl⟩ := readA16I8_eq_some.mp reads
    rfl
  | 0x21, h =>
    cases h
    obtain ⟨_, _, _, _, _, _, _, _, _, rfl, rfl⟩ := read7A16I16_eq_some.mp reads
    rfl
  | n + 0x24, h => cases h

/-- A buffer decodes to an instruction exactly when it starts with the encoding of it. -/
theorem decodeOne_eq_ok : decodeOne offset bs = .ok (i, rest) ↔ bs = encode i ++ rest := by
  refine ⟨fun h => ?_, fun h => h ▸ decodeOne_encode offset i rest⟩
  obtain ⟨op, operands, read, rfl, assigned, reads⟩ := decodeOne_ok h
  simpa using encode_of_read assigned reads

theorem encode_eq_cons (i : Instr) : ∃ op operands, encode i = op :: operands ∧ op.toNat < 0x24 := by
  obtain ⟨op, operands, read, bytes, assigned, -⟩ := decodeOne_ok (decodeOne_encode 0 i [])
  refine ⟨op, operands, by simpa using bytes, Nat.lt_of_not_le fun unassigned => ?_⟩
  rw [operandReader_eq_none.mpr unassigned] at assigned
  cases assigned

@[simp] theorem encode_ne_nil (i : Instr) : encode i ≠ [] := by
  obtain ⟨op, operands, bytes, -⟩ := encode_eq_cons i
  simp [bytes]

theorem decodeOne_of_unassigned (unassigned : 0x24 ≤ op.toNat) :
    decodeOne offset (op :: bs) = .error (.unknownOpcode offset op) := by
  simp only [decodeOne, operandReader_eq_none.mpr unassigned]

/-- The two load errors of one instruction, both at its own offset (R95, R96). -/
theorem decodeOne_error {e : CodecError} (h : decodeOne offset bs = .error e) :
    e = .truncatedBytecode offset ∨ ∃ op, bs.head? = some op ∧ 0x24 ≤ op.toNat ∧ e = .unknownOpcode offset op := by
  unfold decodeOne at h
  split at h
  · cases h
    exact .inl rfl
  · split at h
    · rename_i unassigned
      cases h
      exact .inr ⟨_, rfl, operandReader_eq_none.mp unassigned, rfl⟩
    · split at h
      · cases h
        exact .inl rfl
      · cases h

/-- A cut encoding decodes to nothing (R96): the instruction read would be i itself, because i decodes from the whole,
and would leave nothing of it. -/
theorem decodeOne_take_encode {k : Nat} (pos : 0 < k) (short : k < (encode i).length) :
    decodeOne offset ((encode i).take k) = .error (.truncatedBytecode offset) := by
  cases h : decodeOne offset ((encode i).take k) with
  | ok r =>
    obtain ⟨j, rest⟩ := r
    have whole : encode i ++ [] = encode j ++ (rest ++ (encode i).drop k) := by
      rw [← List.append_assoc, ← decodeOne_eq_ok.mp h, List.take_append_drop, List.append_nil]
    have same := (decodeOne_encode offset i []).symm.trans (decodeOne_eq_ok.mpr whole)
    simp at same
    omega
  | error e =>
    obtain rfl | ⟨op, first, unassigned, rfl⟩ := decodeOne_error h
    · rfl
    · obtain ⟨op', operands, bytes, assigned⟩ := encode_eq_cons i
      rw [bytes, List.head?_take, if_neg (by omega)] at first
      cases first
      omega

open Laws in
/-- Every encoding is as long as the opcode map says (R91, R105). -/
@[simp] theorem encode_length : ∀ i : Instr, (encode i).length = instrWidth i
  | .add8 .. => EncodedWidth.add8 ..
  | .add16 .. => EncodedWidth.add16 ..
  | .sub8 .. => EncodedWidth.sub8 ..
  | .sub16 .. => EncodedWidth.sub16 ..
  | .mul8 .. => EncodedWidth.mul8 ..
  | .mul16 .. => EncodedWidth.mul16 ..
  | .div8 .. => EncodedWidth.div8 ..
  | .div16 .. => EncodedWidth.div16 ..
  | .mod8 .. => EncodedWidth.mod8 ..
  | .mod16 .. => EncodedWidth.mod16 ..
  | .fdiv8 .. => EncodedWidth.fdiv8 ..
  | .fdiv16 .. => EncodedWidth.fdiv16 ..
  | .cast8 .. => EncodedWidth.cast8 ..
  | .cast16 .. => EncodedWidth.cast16 ..
  | .toRadixBE .. => EncodedWidth.toRadixBE ..
  | .set8 .. => EncodedWidth.set8 ..
  | .set16 .. => EncodedWidth.set16 ..
  | .set32 .. => EncodedWidth.set32 ..
  | .set64 .. => EncodedWidth.set64 ..
  | .set128 .. => EncodedWidth.set128 ..
  | .mov8 .. => EncodedWidth.mov8 ..
  | .mov16 .. => EncodedWidth.mov16 ..
  | .calldataCopy .. => EncodedWidth.calldataCopy ..
  | .jump .. => EncodedWidth.jump ..
  | .jumpi .. => EncodedWidth.jumpi ..
  | .internalCall .. => EncodedWidth.internalCall ..
  | .internalReturn => EncodedWidth.internalReturn
  | .getEnvVar .. => EncodedWidth.getEnvVar ..
  | .sload .. => EncodedWidth.sload ..
  | .sstore .. => EncodedWidth.sstore ..
  | .noteHashExists .. => EncodedWidth.noteHashExists ..
  | .nullifierExists .. => EncodedWidth.nullifierExists ..
  | .l1ToL2MsgExists .. => EncodedWidth.l1ToL2MsgExists ..
  | .call .. => EncodedWidth.call ..
  | .ret .. => EncodedWidth.ret ..
  | .revert .. => EncodedWidth.revert ..

end OneInstruction

/-! ## A whole buffer (30_encoding.md R90, R94) -/

section Programs

variable {offset : Nat} {bs bytes : List Byte} {is : List Instr} {prog : Program}

@[simp] theorem encodeProgram_nil : encodeProgram [] = [] := rfl

@[simp] theorem encodeProgram_cons (i : Instr) (is : List Instr) :
    encodeProgram (i :: is) = encode i ++ encodeProgram is := rfl

@[simp] theorem encodeProgram_append (is js : List Instr) :
    encodeProgram (is ++ js) = encodeProgram is ++ encodeProgram js := by
  simp [encodeProgram]

@[simp] theorem map_snd_layoutFrom (offset : Nat) (is : List Instr) : (layoutFrom offset is).map Prod.snd = is := by
  induction is generalizing offset with
  | nil => rfl
  | cons i is ih => simp [layoutFrom, ih]

@[simp] theorem decodeFrom_nil (fuel offset : Nat) : decodeFrom fuel offset [] = .ok [] := by
  cases fuel <;> rfl

theorem decodeFrom_encode_append (fuel offset : Nat) (i : Instr) (bs : List Byte) :
    decodeFrom (fuel + 1) offset (encode i ++ bs) =
      (decodeFrom fuel (offset + instrWidth i) bs).map ((offset, i) :: ·) := by
  obtain ⟨op, operands, bytes, -⟩ := encode_eq_cons i
  have first := decodeOne_encode offset i bs
  rw [bytes, List.cons_append] at first ⊢
  rw [decodeFrom, first]
  cases h : decodeFrom fuel (offset + instrWidth i) bs <;> simp [h, Except.map]

/-- The linear decode reads the encodings at the front of a buffer one after another, and goes on after them. -/
theorem decodeFrom_encodeProgram_append {fuel : Nat} (enough : (encodeProgram is ++ bs).length ≤ fuel) :
    ∃ fuel', bs.length ≤ fuel' ∧ decodeFrom fuel offset (encodeProgram is ++ bs) =
      (decodeFrom fuel' (offset + (encodeProgram is).length) bs).map (layoutFrom offset is ++ ·) := by
  induction is generalizing offset fuel with
  | nil => exact ⟨fuel, enough, by cases h : decodeFrom fuel offset bs <;> simp [h, layoutFrom, Except.map]⟩
  | cons i is ih =>
    have nonempty := List.length_pos_of_ne_nil (encode_ne_nil i)
    rw [encodeProgram_cons, List.append_assoc, List.length_append] at enough
    obtain ⟨fuel, rfl⟩ := Nat.exists_eq_add_of_lt (show 0 < fuel by omega)
    obtain ⟨fuel', enough', rest⟩ := ih (offset := offset + instrWidth i) (fuel := fuel) (by omega)
    refine ⟨fuel', enough', ?_⟩
    rw [encodeProgram_cons, List.append_assoc, Nat.zero_add, decodeFrom_encode_append, rest, List.length_append,
      encode_length, Nat.add_assoc]
    cases decodeFrom fuel' (offset + (instrWidth i + (encodeProgram is).length)) bs <;> rfl

theorem decodeProgram_encodeProgram (is : List Instr) : decodeProgram (encodeProgram is) = .ok (layoutFrom 0 is) := by
  obtain ⟨fuel, -, h⟩ := decodeFrom_encodeProgram_append (is := is) (bs := []) (offset := 0) (Nat.le_refl _)
  simpa [decodeProgram, Except.map] using h

/-- A buffer fails to load with the error of the first place where no instruction decodes. -/
theorem decodeProgram_append_error {e : CodecError} (nonempty : bs ≠ [])
    (stuck : decodeOne (encodeProgram is).length bs = .error e) :
    decodeProgram (encodeProgram is ++ bs) = .error e := by
  obtain ⟨fuel, enough, h⟩ := decodeFrom_encodeProgram_append (is := is) (bs := bs) (offset := 0) (Nat.le_refl _)
  obtain ⟨b, bs, rfl⟩ := List.exists_cons_of_ne_nil nonempty
  obtain ⟨fuel, rfl⟩ := Nat.exists_eq_add_of_lt (show 0 < fuel from Nat.lt_of_lt_of_le (by simp) enough)
  rw [decodeProgram, h, Nat.zero_add, Nat.zero_add, decodeFrom, stuck]
  rfl

/-- Every buffer is encodings, one after another, up to a place where no encoding starts (its end, perhaps). -/
theorem exists_encodeProgram_append (bytes : List Byte) :
    ∃ is bs, bytes = encodeProgram is ++ bs ∧ ∀ i rest, bs ≠ encode i ++ rest := by
  by_cases starts : ∃ i rest, bytes = encode i ++ rest
  · obtain ⟨i, rest, rfl⟩ := starts
    have shorter : rest.length < (encode i ++ rest).length := by
      have := List.length_pos_of_ne_nil (encode_ne_nil i)
      rw [List.length_append]
      omega
    obtain ⟨is, bs, rfl, ends⟩ := exists_encodeProgram_append rest
    exact ⟨i :: is, bs, by simp, ends⟩
  · exact ⟨[], bytes, rfl, fun i rest h => starts ⟨i, rest, h⟩⟩
termination_by bytes.length

theorem exists_decodeOne_error (h : ∀ i rest, bs ≠ encode i ++ rest) (offset : Nat) :
    ∃ e, decodeOne offset bs = .error e := by
  cases result : decodeOne offset bs with
  | error e => exact ⟨e, rfl⟩
  | ok r => exact absurd (decodeOne_eq_ok.mp result) (h r.1 r.2)

/-- The two ends of a decode: the buffer is a program's encoding, or it is stuck at an offset with the error of it. -/
theorem decodeProgram_cases (bytes : List Byte) :
    (∃ is, bytes = encodeProgram is ∧ decodeProgram bytes = .ok (layoutFrom 0 is)) ∨
    ∃ is bs e, bytes = encodeProgram is ++ bs ∧ decodeOne (encodeProgram is).length bs = .error e ∧
      decodeProgram bytes = .error e := by
  obtain ⟨is, bs, rfl, ends⟩ := exists_encodeProgram_append bytes
  by_cases empty : bs = []
  · subst empty
    exact .inl ⟨is, by simp, by simpa using decodeProgram_encodeProgram is⟩
  · obtain ⟨e, stuck⟩ := exists_decodeOne_error ends (encodeProgram is).length
    exact .inr ⟨is, bs, e, rfl, stuck, decodeProgram_append_error empty stuck⟩

theorem decodeProgram_ok (h : decodeProgram bytes = .ok prog) :
    ∃ is, bytes = encodeProgram is ∧ prog = layoutFrom 0 is := by
  obtain ⟨is, bytes_eq, result⟩ | ⟨_, _, _, _, _, result⟩ := decodeProgram_cases bytes
  · cases result.symm.trans h
    exact ⟨is, bytes_eq, rfl⟩
  · cases result.symm.trans h

end Programs

/-- Settles O1: `decodeOne_encode`, and a buffer that decodes is the encoding of a program. -/
theorem codecRoundTrip : Obligations.CodecRoundTrip := by
  refine ⟨decodeOne_encode, fun bytes prog h => ?_⟩
  obtain ⟨is, rfl, rfl⟩ := decodeProgram_ok h
  rw [map_snd_layoutFrom]

/-- Settles O2. -/
theorem programRoundTrip : Obligations.ProgramRoundTrip := decodeProgram_encodeProgram

end Sys2Proof

namespace Sys2Proof.Machine

/-! ## The load port (30_encoding.md R95, R96, R111) -/

theorem State.load_of_error {s : State} {buffer : Buffer} {e : CodecError} (h : decodeProgram buffer.val = .error e) :
    s.load buffer = .error e := by
  rw [State.load, h]

/-- Settles O3: the decode is stuck at the byte, and where it is stuck with this error such a byte stands. -/
theorem unknownOpcodeRejected : Obligations.UnknownOpcodeRejected := by
  refine ⟨fun is op rest s buffer unassigned bytes => State.load_of_error ?_, fun bytes offset b h => ?_⟩
  · rw [bytes]
    exact decodeProgram_append_error (by simp) (decodeOne_of_unassigned unassigned)
  · obtain ⟨_, _, result⟩ | ⟨is, bs, e, rfl, stuck, result⟩ := decodeProgram_cases bytes
    · cases result.symm.trans h
    · cases result.symm.trans h
      obtain truncated | ⟨op, first, unassigned, same⟩ := decodeOne_error stuck
      · cases truncated
      · cases same
        refine ⟨unassigned, ?_⟩
        rw [List.getElem?_append_right (Nat.le_refl _), Nat.sub_self, ← List.head?_eq_getElem?, first]

/-- Settles O4: `decodeOne_take_encode`, and the round trip of a program that ends in `INTERNALRETURN`. -/
theorem truncationRejected : Obligations.TruncationRejected := by
  refine ⟨fun is i k s buffer pos short bytes => State.load_of_error ?_, fun is => ?_⟩
  · rw [bytes]
    refine decodeProgram_append_error ?_ (decodeOne_take_encode pos (by simpa using short))
    simpa using Nat.ne_of_gt pos
  · have bytes : encodeProgram is ++ [0x1A] = encodeProgram (is ++ [.internalReturn]) := by simp [encode]
    rw [bytes, decodeProgram_encodeProgram]

/-! ## The instruction starts (30_encoding.md R107) -/

/-- An instruction of a laid-out program starts where the encodings of those before it end. -/
theorem instrAt_layoutFrom {is : List Instr} {offset p : Nat} {i : Instr}
    (h : instrAt (layoutFrom offset is) p = some i) :
    ∃ before after, is = before ++ i :: after ∧ p = offset + (encodeProgram before).length := by
  induction is generalizing offset with
  | nil => cases h
  | cons j is ih =>
    rw [layoutFrom, instrAt] at h
    split at h
    · rename_i here
      cases h
      exact ⟨[], is, rfl, here.symm⟩
    · obtain ⟨before, after, rfl, rfl⟩ := ih h
      exact ⟨j :: before, after, rfl, by simp [Nat.add_assoc]⟩

/-- Settles O5: a buffer that decodes is a program's encoding, and a start is where the encoding of a part of
it ends. -/
theorem instructionStarts : Obligations.InstructionStarts := by
  intro bytes prog h
  obtain ⟨is, rfl, rfl⟩ := decodeProgram_ok h
  refine ⟨fun nonempty => ?_, fun empty => ?_, fun p i start => ?_⟩
  · cases is with
    | nil => exact absurd rfl nonempty
    | cons i is => simp [layoutFrom, instrAt]
  · cases is with
    | nil => rfl
    | cons i is => simp at empty
  · obtain ⟨before, after, rfl, rfl⟩ := instrAt_layoutFrom start
    rw [Nat.zero_add]
    have within : (encodeProgram before).length + instrWidth i ≤ (encodeProgram (before ++ i :: after)).length := by
      simp [← Nat.add_assoc]
    refine ⟨within, ?_, fun presentable => within.trans (by simpa [bufferOk, Config.maxLength] using presentable)⟩
    rw [encodeProgram_append, encodeProgram_cons, List.drop_left, ← encode_length, List.take_left]

/-- Settles O6: the decoder runs on the six buffers. -/
theorem encodedWordsDecode : Obligations.EncodedWordsDecode :=
  ⟨by decide, by decide, by decide, by decide, by decide, by decide⟩

/-! ## Reserved immediates (30_encoding.md R103, 60_exceptions.md R343)

`Spares post x` says what a computation can answer: a value that meets `post`, or an error other than
`InvalidImmediate`. Every checked operation spares, the two checks of an immediate on one that is not reserved; so does
every meaning, and the state of a completed instruction has the error register of the state before. -/

theorem tagOfImmediate_eq_none {x : BitVec 8} : tagOfImmediate x = none ↔ tagImmediateOk x = false := by
  rw [tagOfImmediate_none]
  simp [tagImmediateOk]
  omega

theorem varImmediateOk_eq_false {x : BitVec 8} : varImmediateOk x = false ↔ 12 < x.toNat := by
  simp [varImmediateOk]

/-- The computation answers a value with this property, or an error other than `InvalidImmediate`. -/
def Spares {α : Type} (post : α → Prop) : Checked α → Prop
  | .ok v => post v
  | .error e => e.kind ≠ .invalidImmediate

/-- The computation raises no `InvalidImmediate`. -/
abbrev NoReserved {α : Type} (x : Checked α) : Prop := Spares (fun _ => True) x

section Spares

variable {α β : Type} {post : α → Prop} {post' : β → Prop} {x : Checked α} {f : α → Checked β} {s : State}

theorem Spares.bind (hx : Spares post x) (hf : ∀ v, post v → Spares post' (f v)) : Spares post' (x >>= f) := by
  cases x with
  | ok v => exact hf v hx
  | error e => exact hx

theorem NoReserved.bind (hx : NoReserved x) (hf : ∀ v, Spares post' (f v)) : Spares post' (x >>= f) :=
  Spares.bind hx fun v _ => hf v

theorem noReserved_of_error (h : ∀ e, x = .error e → e.kind ≠ .invalidImmediate) : NoReserved x := by
  cases x with
  | ok v => trivial
  | error e => exact h e rfl

theorem noReserved_ok (v : α) : NoReserved (.ok v) := trivial

theorem noReserved_readInit (m : Memory) (a : Nat) : NoReserved (readInit m a) := noReserved_of_error fun e h => by
  obtain ⟨-, rfl⟩ := readInit_error.mp h
  nofun

theorem noReserved_checkTag (m : Memory) (t : Tag) (a : Nat) : NoReserved (checkTag m t a) :=
  noReserved_of_error fun e h => by
    obtain ⟨-, rfl⟩ | ⟨-, -, rfl⟩ := checkTag_error.mp h <;> nofun

theorem noReserved_checkSame (m : Memory) (a b : Nat) : NoReserved (checkSame m a b) :=
  noReserved_of_error fun e h => by
    obtain ⟨-, rfl⟩ | ⟨-, -, rfl⟩ | ⟨-, -, -, rfl⟩ := checkSame_error.mp h <;> nofun

theorem noReserved_rejectField (t : Tag) (a : Nat) : NoReserved (rejectField t a) := noReserved_of_error fun e h => by
  obtain ⟨-, rfl⟩ := rejectField_error.mp h
  nofun

theorem noReserved_requireField (t : Tag) (a : Nat) : NoReserved (requireField t a) :=
  noReserved_of_error fun e h => by
    obtain ⟨-, rfl⟩ := requireField_error.mp h
    nofun

theorem noReserved_checkIntegral (m : Memory) (a : Nat) : NoReserved (checkIntegral m a) :=
  noReserved_of_error fun e h => by
    obtain ⟨-, rfl⟩ | ⟨-, rfl⟩ := checkIntegral_error.mp h <;> nofun

theorem noReserved_checkSlice (a n : Nat) : NoReserved (checkSlice a n) := noReserved_of_error fun e h => by
  obtain ⟨-, rfl⟩ := checkSlice_error.mp h
  nofun

theorem noReserved_readSlice (m : Memory) (a n : Nat) : NoReserved (readSlice m a n) :=
  noReserved_of_error fun e h => by
    obtain ⟨-, -, -, -, rfl⟩ := readSlice_error.mp h
    nofun

theorem noReserved_divIn (x y : Nat) : NoReserved (divIn x y) := noReserved_of_error fun e h => by
  obtain ⟨-, rfl⟩ := divIn_error.mp h
  nofun

theorem noReserved_modIn (x y : Nat) : NoReserved (modIn x y) := noReserved_of_error fun e h => by
  obtain ⟨-, rfl⟩ := modIn_error.mp h
  nofun

theorem noReserved_fdivIn (x y : Nat) : NoReserved (fdivIn x y) := noReserved_of_error fun e h => by
  obtain ⟨-, rfl⟩ := fdivIn_error.mp h
  nofun

theorem noReserved_checkRadix (r : Nat) : NoReserved (checkRadix r) := noReserved_of_error fun e h => by
  obtain ⟨-, rfl⟩ := checkRadix_error.mp h
  nofun

theorem noReserved_pushEntry (x : CallEntry) (st : List CallEntry) : NoReserved (pushEntry x st) :=
  noReserved_of_error fun e h => by
    obtain ⟨-, rfl⟩ := pushEntry_error.mp h
    nofun

theorem noReserved_popEntry (st : List CallEntry) : NoReserved (popEntry st) := noReserved_of_error fun e h => by
  obtain ⟨-, rfl⟩ := popEntry_error.mp h
  nofun

theorem noReserved_relativeAddr (base off : Nat) : NoReserved (relativeAddr base off) :=
  noReserved_of_error fun e h => by
    obtain ⟨-, rfl⟩ := relativeAddr_error.mp h
    nofun

theorem noReserved_slotAddr {n k : Nat} (m : Memory) (d : BitVec n) (i : Nat) (offset : BitVec k) :
    NoReserved (slotAddr m d i offset) := by
  unfold slotAddr
  cases slotMode d i with
  | direct => exact noReserved_ok _
  | indirect => exact noReserved_checkTag _ _ _
  | relative => exact (noReserved_checkTag _ _ _).bind fun _ => noReserved_relativeAddr _ _
  | indirectRelative =>
    exact (noReserved_checkTag _ _ _).bind fun _ => (noReserved_relativeAddr _ _).bind fun _ =>
      noReserved_checkTag _ _ _

theorem noReserved_checkTagImmediate {x : BitVec 8} (admitted : tagImmediateOk x = true) :
    NoReserved (checkTagImmediate x) := noReserved_of_error fun e h => by
  obtain ⟨none, -⟩ := checkTagImmediate_error.mp h
  rw [tagOfImmediate_eq_none.mp none] at admitted
  cases admitted

theorem noReserved_checkEnvVar {env : Environment} {x : BitVec 8} (admitted : varImmediateOk x = true) :
    NoReserved (checkEnvVar env x) := noReserved_of_error fun e h => by
  obtain ⟨none, -⟩ := checkEnvVar_error.mp h
  rw [varImmediateOk_eq_false.mpr (envCell_none.mp none)] at admitted
  cases admitted

theorem spares_charge (l2 da : Nat) (s : State) : Spares (fun u => u.err = s.err) (charge l2 da s) := by
  cases h : charge l2 da s with
  | ok u =>
    obtain ⟨-, -, rfl⟩ := charge_ok.mp h
    rfl
  | error e => obtain ⟨-, rfl⟩ | ⟨-, -, rfl⟩ := charge_error.mp h <;> nofun

theorem spares_chargeFor {w : Nat} (f : Family) (d : BitVec w) (n c : Nat) (s : State) :
    Spares (fun u => u.err = s.err) (chargeFor f d n c s) :=
  spares_charge _ _ _

/-! ### The meanings -/

/-- A next state has the error register of the state before, or an error other than `InvalidImmediate`. -/
def NoImmediateFault (s : State) (o : Host.Outcome State Fault Refusal) : Prop :=
  ∀ t, o = .next t → t.err = s.err ∨ t.err.kind ≠ .invalidImmediate

theorem Spares.noImmediateFault {x : Checked State} (h : Spares (fun u => u.err = s.err) x) :
    NoImmediateFault s (atFrameBoundary s x) := by
  intro t ends
  cases x with
  | ok u =>
    cases ends
    exact .inl h
  | error e =>
    cases ends
    exact .inr h

theorem arithmetic_noImmediateFault {k : Nat} {classCheck : Tag → Nat → Checked Unit}
    {op : Tag → Nat → Nat → Checked Nat} (hc : ∀ t p, NoReserved (classCheck t p)) (ho : ∀ t x y, NoReserved (op t x y))
    (f : Family) (width : Nat) (ind : BitVec 8) (a b dst : BitVec k) (s : State) :
    NoImmediateFault s (arithmetic f width classCheck op ind a b dst s) :=
  Spares.noImmediateFault <| (noReserved_slotAddr _ _ _ _).bind fun _ => (noReserved_slotAddr _ _ _ _).bind fun _ =>
    (noReserved_slotAddr _ _ _ _).bind fun _ => (noReserved_checkSame _ _ _).bind fun _ => (hc _ _).bind fun _ =>
    (spares_chargeFor _ _ _ _ _).bind fun _ paid => (ho _ _ _).bind fun _ => paid

theorem castCell_noImmediateFault {k : Nat} {tag : BitVec 8} (admitted : tagImmediateOk tag = true) (width : Nat)
    (ind : BitVec 8) (src dst : BitVec k) (s : State) : NoImmediateFault s (castCell width ind src dst tag s) :=
  Spares.noImmediateFault <| (noReserved_slotAddr _ _ _ _).bind fun _ => (noReserved_slotAddr _ _ _ _).bind fun _ =>
    (noReserved_checkTagImmediate admitted).bind fun _ => (noReserved_readInit _ _).bind fun _ =>
    (spares_chargeFor _ _ _ _ _).bind fun _ paid => paid

theorem execToRadixBE_noImmediateFault (ind : BitVec 8) (src radix numLimbs dst : BitVec 16) (s : State) :
    NoImmediateFault s (execToRadixBE ind src radix numLimbs dst s) :=
  Spares.noImmediateFault <| (noReserved_slotAddr _ _ _ _).bind fun _ => (noReserved_slotAddr _ _ _ _).bind fun _ =>
    (noReserved_slotAddr _ _ _ _).bind fun _ => (noReserved_slotAddr _ _ _ _).bind fun _ =>
    (noReserved_checkTag _ _ _).bind fun _ => (noReserved_checkTag _ _ _).bind fun _ =>
    (noReserved_checkTag _ _ _).bind fun _ => (spares_chargeFor _ _ _ _ _).bind fun _ paid =>
    (noReserved_checkRadix _).bind fun _ => (noReserved_checkSlice _ _).bind fun _ => paid

theorem setImmediate_noImmediateFault {k : Nat} {tag : BitVec 8} (admitted : tagImmediateOk tag = true) (width : Nat)
    (ind : BitVec 8) (dst : BitVec k) (value : Nat) (s : State) :
    NoImmediateFault s (setImmediate width ind dst tag value s) :=
  Spares.noImmediateFault <| (noReserved_slotAddr _ _ _ _).bind fun _ =>
    (noReserved_checkTagImmediate admitted).bind fun _ => (spares_chargeFor _ _ _ _ _).bind fun _ paid => paid

theorem moveCell_noImmediateFault {k : Nat} (width : Nat) (ind : BitVec 8) (src dst : BitVec k) (s : State) :
    NoImmediateFault s (moveCell width ind src dst s) :=
  Spares.noImmediateFault <| (noReserved_slotAddr _ _ _ _).bind fun _ => (noReserved_slotAddr _ _ _ _).bind fun _ =>
    (noReserved_readInit _ _).bind fun _ => (spares_chargeFor _ _ _ _ _).bind fun _ paid => paid

theorem execCalldataCopy_noImmediateFault (ind : BitVec 8) (cdOffset copySize dst : BitVec 16) (s : State) :
    NoImmediateFault s (execCalldataCopy ind cdOffset copySize dst s) :=
  Spares.noImmediateFault <| (noReserved_slotAddr _ _ _ _).bind fun _ => (noReserved_slotAddr _ _ _ _).bind fun _ =>
    (noReserved_slotAddr _ _ _ _).bind fun _ => (noReserved_checkTag _ _ _).bind fun _ =>
    (noReserved_checkTag _ _ _).bind fun _ => (spares_chargeFor _ _ _ _ _).bind fun _ paid =>
    (noReserved_checkSlice _ _).bind fun _ => paid

theorem execJump_noImmediateFault (target : BitVec 32) (s : State) : NoImmediateFault s (execJump target s) :=
  Spares.noImmediateFault <| (spares_charge _ _ _).bind fun _ paid => paid

theorem execJumpi_noImmediateFault (ind : BitVec 8) (cond : BitVec 16) (target : BitVec 32) (s : State) :
    NoImmediateFault s (execJumpi ind cond target s) :=
  Spares.noImmediateFault <| (noReserved_slotAddr _ _ _ _).bind fun _ => (noReserved_checkIntegral _ _).bind fun _ =>
    (spares_chargeFor _ _ _ _ _).bind fun u paid => by
      show State.err (ite _ _ _) = _
      split <;> exact paid

theorem execInternalCall_noImmediateFault (target : BitVec 32) (s : State) :
    NoImmediateFault s (execInternalCall target s) :=
  Spares.noImmediateFault <| (spares_charge _ _ _).bind fun _ paid => (noReserved_pushEntry _ _).bind fun _ => paid

theorem execInternalReturn_noImmediateFault (s : State) : NoImmediateFault s (execInternalReturn s) :=
  Spares.noImmediateFault <| (spares_charge _ _ _).bind fun _ paid => (noReserved_popEntry _).bind fun _ => paid

theorem execGetEnvVar_noImmediateFault {var : BitVec 8} (admitted : varImmediateOk var = true) (ind : BitVec 8)
    (dst : BitVec 16) (s : State) : NoImmediateFault s (execGetEnvVar ind dst var s) :=
  Spares.noImmediateFault <| (noReserved_slotAddr _ _ _ _).bind fun _ =>
    (noReserved_checkEnvVar admitted).bind fun _ => (spares_chargeFor _ _ _ _ _).bind fun _ paid => paid

theorem execSload_noImmediateFault (ind : BitVec 8) (slot dst : BitVec 16) (s : State) :
    NoImmediateFault s (execSload ind slot dst s) :=
  Spares.noImmediateFault <| (noReserved_slotAddr _ _ _ _).bind fun _ => (noReserved_slotAddr _ _ _ _).bind fun _ =>
    (noReserved_checkTag _ _ _).bind fun _ => (spares_chargeFor _ _ _ _ _).bind fun _ paid => paid

theorem execSstore_noImmediateFault (ind : BitVec 8) (src slot : BitVec 16) (s : State) :
    NoImmediateFault s (execSstore ind src slot s) :=
  Spares.noImmediateFault <| (noReserved_slotAddr _ _ _ _).bind fun _ => (noReserved_slotAddr _ _ _ _).bind fun _ =>
    (noReserved_checkTag _ _ _).bind fun _ => (noReserved_checkTag _ _ _).bind fun _ =>
    (spares_chargeFor _ _ _ _ _).bind fun _ paid => paid

theorem membershipQuery_noImmediateFault (f : Family) (o : Oracle) (ind : BitVec 8)
    (key existsDst valueDst : BitVec 16) (s : State) :
    NoImmediateFault s (membershipQuery f o ind key existsDst valueDst s) :=
  Spares.noImmediateFault <| (noReserved_slotAddr _ _ _ _).bind fun _ => (noReserved_slotAddr _ _ _ _).bind fun _ =>
    (noReserved_slotAddr _ _ _ _).bind fun _ => (noReserved_checkTag _ _ _).bind fun _ =>
    (spares_chargeFor _ _ _ _ _).bind fun _ paid => paid

theorem spares_haltOutput (f : Family) (ind : BitVec 8) (ret size : BitVec 16) (s : State) :
    Spares (fun out => out.1.err = s.err) (haltOutput f ind ret size s) :=
  (noReserved_slotAddr _ _ _ _).bind fun _ => (noReserved_slotAddr _ _ _ _).bind fun _ =>
    (noReserved_checkTag _ _ _).bind fun _ => (spares_chargeFor _ _ _ _ _).bind fun _ paid =>
    (noReserved_checkSlice _ _).bind fun _ => (noReserved_readSlice _ _ _).bind fun _ => paid

theorem execRet_noImmediateFault (ind : BitVec 8) (ret size : BitVec 16) (s : State) :
    NoImmediateFault s (execRet ind ret size s) :=
  Spares.noImmediateFault <| (spares_haltOutput _ _ _ _ _).bind fun _ paid => paid

theorem execRevert_noImmediateFault (ind : BitVec 8) (ret size : BitVec 16) (s : State) :
    NoImmediateFault s (execRevert ind ret size s) :=
  Spares.noImmediateFault <| (spares_haltOutput _ _ _ _ _).bind fun _ paid => paid

theorem spares_callRequest (ind l2Gas daGas addr args argsSize ret success retSize : BitVec 16) (s : State) :
    Spares (fun q => q.charged.err = s.err) (callRequest ind l2Gas daGas addr args argsSize ret success retSize s) :=
  (noReserved_slotAddr _ _ _ _).bind fun _ => (noReserved_slotAddr _ _ _ _).bind fun _ =>
    (noReserved_slotAddr _ _ _ _).bind fun _ => (noReserved_slotAddr _ _ _ _).bind fun _ =>
    (noReserved_slotAddr _ _ _ _).bind fun _ => (noReserved_slotAddr _ _ _ _).bind fun _ =>
    (noReserved_slotAddr _ _ _ _).bind fun _ => (noReserved_checkTag _ _ _).bind fun _ =>
    (noReserved_checkTag _ _ _).bind fun _ => (noReserved_checkTag _ _ _).bind fun _ =>
    (noReserved_checkTag _ _ _).bind fun _ => (spares_chargeFor _ _ _ _ _).bind fun _ paid =>
    (noReserved_checkSlice _ _).bind fun _ => (noReserved_checkSlice _ _).bind fun _ =>
    (noReserved_readSlice _ _ _).bind fun _ => paid

theorem execCall_noImmediateFault (ind l2Gas daGas addr args argsSize ret success retSize : BitVec 16) (s : State) :
    NoImmediateFault s (execCall ind l2Gas daGas addr args argsSize ret success retSize s) := by
  intro t ends
  have spares := spares_callRequest ind l2Gas daGas addr args argsSize ret success retSize s
  unfold execCall at ends
  split at ends
  · rename_i e raised
    cases ends
    rw [raised] at spares
    exact .inr spares
  · rename_i q ready
    rw [ready] at spares
    dsimp only at ends
    split at ends
    · cases ends
      exact .inl spares
    · cases ends

end Spares

/-- Without a reserved immediate no instruction raises `InvalidImmediate`. -/
theorem exec_noImmediateFault {i : Instr} (admitted : wellFormed i = true) (s : State) :
    NoImmediateFault s (exec i s) := by
  cases i with
  | add8 | add16 | sub8 | sub16 | mul8 | mul16 =>
    exact arithmetic_noImmediateFault (fun _ _ => noReserved_ok _) (fun _ _ _ => noReserved_ok _) _ _ _ _ _ _ _
  | div8 | div16 =>
    exact arithmetic_noImmediateFault noReserved_rejectField (fun _ => noReserved_divIn) _ _ _ _ _ _ _
  | mod8 | mod16 =>
    exact arithmetic_noImmediateFault noReserved_rejectField (fun _ => noReserved_modIn) _ _ _ _ _ _ _
  | fdiv8 | fdiv16 =>
    exact arithmetic_noImmediateFault noReserved_requireField (fun _ => noReserved_fdivIn) _ _ _ _ _ _ _
  | cast8 | cast16 => exact castCell_noImmediateFault admitted _ _ _ _ _
  | toRadixBE => exact execToRadixBE_noImmediateFault _ _ _ _ _ _
  | set8 | set16 | set32 | set64 | set128 => exact setImmediate_noImmediateFault admitted _ _ _ _ _
  | mov8 | mov16 => exact moveCell_noImmediateFault _ _ _ _ _
  | calldataCopy => exact execCalldataCopy_noImmediateFault _ _ _ _ _
  | jump => exact execJump_noImmediateFault _ _
  | jumpi => exact execJumpi_noImmediateFault _ _ _ _
  | internalCall => exact execInternalCall_noImmediateFault _ _
  | internalReturn => exact execInternalReturn_noImmediateFault _
  | getEnvVar => exact execGetEnvVar_noImmediateFault admitted _ _ _
  | sload => exact execSload_noImmediateFault _ _ _ _
  | sstore => exact execSstore_noImmediateFault _ _ _ _
  | noteHashExists | nullifierExists | l1ToL2MsgExists => exact membershipQuery_noImmediateFault _ _ _ _ _ _ _
  | call => exact execCall_noImmediateFault _ _ _ _ _ _ _ _ _ _
  | ret => exact execRet_noImmediateFault _ _ _ _
  | revert => exact execRevert_noImmediateFault _ _ _ _

section Reserved

variable {s : State} {k width : Nat} {ind : BitVec 8} {src dst : BitVec k} {tag : BitVec 8} {addrs : List Nat}

theorem castCell_of_reserved (reserved : tagImmediateOk tag = false)
    (resolved : resolveEach s.memory [(slotMode ind 0, src.toNat), (slotMode ind 1, dst.toNat)] = .ok addrs) :
    castCell width ind src dst tag s = .next (takeFault (kindOnly .invalidImmediate) s) := by
  obtain ⟨ps, pd, addrS, addrD, -⟩ := slotAddr_of_resolveEach_two resolved
  rw [castCell, addrS, ok_bind, addrD, ok_bind, checkTagImmediate_error.mpr ⟨tagOfImmediate_eq_none.mpr reserved, rfl⟩]
  rfl

theorem setImmediate_of_reserved (reserved : tagImmediateOk tag = false) (value : Nat)
    (resolved : resolveEach s.memory [(slotMode ind 0, dst.toNat)] = .ok addrs) :
    setImmediate width ind dst tag value s = .next (takeFault (kindOnly .invalidImmediate) s) := by
  obtain ⟨pd, addrD, -⟩ := slotAddr_of_resolveEach resolved
  rw [setImmediate, addrD, ok_bind, checkTagImmediate_error.mpr ⟨tagOfImmediate_eq_none.mpr reserved, rfl⟩]
  rfl

end Reserved

/-- The instructions that carry a reserved immediate are forms of `CAST`, `SET` and `GETENVVAR`; each checks it first
after phase 3 (R346). -/
theorem exec_of_reserved {s : State} {i : Instr} {addrs : List Nat}
    (resolved : resolveEach s.memory (operands i) = .ok addrs) (reserved : wellFormed i = false) :
    exec i s = .next (takeFault (kindOnly .invalidImmediate) s) := by
  cases i with
  | cast8 | cast16 => exact castCell_of_reserved reserved resolved
  | set8 | set16 | set32 | set64 | set128 => exact setImmediate_of_reserved reserved _ resolved
  | getEnvVar ind dst var =>
    obtain ⟨pd, addr, -⟩ := slotAddr_of_resolveEach resolved
    exact exec_getEnvVar_of_reserved addr (varImmediateOk_eq_false.mp reserved)
  | _ => cases reserved

/-- Settles O13: `exec_of_reserved`, and an instruction without a reserved immediate leaves no such error. -/
theorem reservedImmediateFaults : Obligations.ReservedImmediateFaults := by
  refine ⟨fun s i addrs resolved reserved => exec_of_reserved resolved reserved, fun s t i clean ends raised => ?_⟩
  refine Bool.eq_false_iff.mpr fun admitted => ?_
  obtain same | other := exec_noImmediateFault admitted s t ends
  · rw [same, clean] at raised
    cases raised
  · exact other raised

end Sys2Proof.Machine

/-! PROOFS of the statements of 40_step_and_gas.md: what a step fetches and how it ends, which phase raises first, what
an instruction pays, and where `pc` goes.

The claims about completed instructions are read off `Effects`. The claims about phases 3 and 5 each have a small logic
of their own, with one rule for each operation and one case for each instruction. -/

namespace Sys2Proof.Machine

/-! ## Fetch (40_step_and_gas.md R132, R133) -/

theorem step_of_fetch {s : State} {i : Instr} (running : s.halted = false) (fetched : fetch s = some i) :
    step s = exec i s := by
  simp [step, running, fetched]

theorem step_of_no_fetch {s : State} (running : s.halted = false) (fetched : fetch s = none) :
    step s = .next (takeFault (kindOnly .invalidProgramCounter) s) := by
  simp [step, running, fetched]

theorem step_of_halted {s : State} (halted : s.halted = true) : step s = .fault .frameHalted := by
  simp [step, halted]

/-- A laid-out program holds each instruction where the encodings of those before it end: the converse of
`instrAt_layoutFrom`. -/
theorem instrAt_layoutFrom_append (offset : Nat) (before after : List Instr) (i : Instr) :
    instrAt (layoutFrom offset (before ++ i :: after)) (offset + (encodeProgram before).length) = some i := by
  induction before generalizing offset with
  | nil => simp [layoutFrom, instrAt]
  | cons j before ih =>
    have nonempty : 0 < instrWidth j := encode_length j ▸ List.length_pos_of_ne_nil (encode_ne_nil j)
    have further : offset ≠ offset + (encodeProgram (j :: before)).length := by simp; omega
    rw [List.cons_append, layoutFrom, instrAt, if_neg further, encodeProgram_cons, List.length_append, encode_length,
      ← Nat.add_assoc, ih]

/-- The load of an encoded program leaves its layout in the store. -/
theorem program_of_load {s t : State} {is : List Instr} {buffer : Buffer} (bytes : buffer.val = encodeProgram is)
    (loaded : s.load buffer = .ok t) : t.program = layoutFrom 0 is := by
  rw [State.load, bytes, decodeProgram_encodeProgram] at loaded
  cases loaded
  rfl

/-- Settles O7: the second clause is the first at the layout of the loaded program. -/
theorem stepRunsLoadedInstruction : Obligations.StepRunsLoadedInstruction := by
  refine ⟨fun s i => step_of_fetch, fun s t before after i buffer bytes loaded running atStart => ?_⟩
  refine step_of_fetch running ?_
  rw [fetch, program_of_load bytes loaded, atStart]
  simpa using instrAt_layoutFrom_append 0 before after i

/-- Settles O8: in a laid-out program an instruction is found only where the encodings of a part of it end. -/
theorem invalidProgramCounter : Obligations.InvalidProgramCounter := by
  intro s t is buffer bytes loaded running noStart
  refine step_of_no_fetch running ?_
  rw [fetch, program_of_load bytes loaded, Option.eq_none_iff_forall_ne_some]
  intro i found
  obtain ⟨before, after, split, place⟩ := instrAt_layoutFrom found
  exact noStart before after i split (by simpa using place)

/-! ## The outcomes of a step (40_step_and_gas.md R130, R139, R142) -/

theorem isCall_iff {i : Instr} : isCall i = true ↔ ∃ ind l2Gas daGas addr args argsSize ret success retSize,
    i = .call ind l2Gas daGas addr args argsSize ret success retSize := by
  cases i <;> simp [isCall]

/-- An answer breaks the host's precondition in one of three ways (R273 c). -/
theorem callAnswerOk_eq_false {a : CallAnswer} {l2Offer daOffer : Word64} :
    callAnswerOk a l2Offer daOffer = false ↔ l2Offer.toNat < a.l2Used.toNat ∨ daOffer.toNat < a.daUsed.toNat ∨
      2 ^ 32 - 1 < a.output.length := by
  simp only [callAnswerOk, Bool.and_eq_false_iff, decide_eq_false_iff_not, Nat.not_le, or_assoc]
  rfl

/-- The host breaks its precondition only by a scripted answer: a free one meets it (log entry 3). -/
theorem childRuns_of_nestedCall_not_ok {c : FieldElem} {args : List FieldElem} {l2 da : Word64} {h : HostSide}
    (bad : callAnswerOk (nestedCall c args l2 da h).1 l2 da = false) :
    ∃ r rest, h.childRuns = r :: rest ∧ callAnswerOk r.answer l2 da = false := by
  obtain ⟨r, rest, scripted, answer⟩ | ⟨-, answer⟩ := nestedCall_cases c args l2 da h
  · rw [answer] at bad
    exact ⟨r, rest, scripted, bad⟩
  · rw [answer, freeChildRun_answer, freeCallAnswer_ok] at bad
    cases bad

theorem callRequest_of_execCall_refused {s : State} {r : Refusal}
    {ind l2Gas daGas addr args argsSize ret success retSize : BitVec 16}
    (h : execCall ind l2Gas daGas addr args argsSize ret success retSize s = .refused r) :
    ∃ q, callRequest ind l2Gas daGas addr args argsSize ret success retSize s = .ok q ∧
      callAnswerOk (nestedCall q.contract q.args q.l2Offer q.daOffer s.host).1 q.l2Offer q.daOffer = false := by
  unfold execCall at h
  split at h
  · cases h
  · rename_i q ready
    dsimp only at h
    split at h
    · cases h
    · rename_i bad
      exact ⟨q, ready, Bool.eq_false_iff.mpr bad⟩

/-- Settles O9: only `CALL` is refused (`exec_outcomes`), and only for a scripted answer. -/
theorem stepOutcomes : Obligations.StepOutcomes := by
  refine ⟨fun s running => ?_, fun s => step_of_halted⟩
  cases fetched : fetch s with
  | none => exact .inl ⟨_, step_of_no_fetch running fetched⟩
  | some i =>
    rw [step_of_fetch running fetched]
    obtain next | ⟨refused, call⟩ := exec_outcomes i s
    · exact .inl next
    · obtain ⟨ind, l2Gas, daGas, addr, args, argsSize, ret, success, retSize, rfl⟩ := isCall_iff.mp call
      obtain ⟨q, ready, bad⟩ := callRequest_of_execCall_refused refused
      obtain ⟨r, rest, scripted, breaks⟩ := childRuns_of_nestedCall_not_ok bad
      exact .inr ⟨refused, ind, l2Gas, daGas, addr, args, argsSize, ret, success, retSize, q, r, rest, rfl, ready,
        scripted, callAnswerOk_eq_false.mp breaks⟩

/-! ## Phase 3 (40_step_and_gas.md R134) -/

/-- `x` raises the error of the resolver for these operands. -/
def ResolvesFirst {α : Type} (m : Memory) (ops : List (AddrMode × Nat)) (x : Checked α) : Prop :=
  ∀ e, resolveEach m ops = .error e → x = .error e

section ResolvesFirst

variable {α β : Type} {m : Memory} {ops : List (AddrMode × Nat)}

theorem resolvesFirst_nil (x : Checked α) : ResolvesFirst m [] x := nofun

theorem resolvesFirst_slotAddr {w k i : Nat} {d : BitVec w} {offset : BitVec k} {f : Nat → Checked α}
    (rest : ∀ p, ResolvesFirst m ops (f p)) :
    ResolvesFirst m ((slotMode d i, offset.toNat) :: ops) (slotAddr m d i offset >>= f) := by
  intro e raised
  rw [resolveEach, ← slotAddr_eq] at raised
  cases addr : slotAddr m d i offset with
  | error e' =>
    rw [addr] at raised
    cases raised
    rfl
  | ok p =>
    rw [addr, ok_bind] at raised
    refine rest p e ?_
    obtain raised | ⟨_, _, ⟨⟩⟩ := bind_error.mp raised
    exact raised

theorem ResolvesFirst.bind {x : Checked α} (h : ResolvesFirst m ops x) (f : α → Checked β) :
    ResolvesFirst m ops (x >>= f) := by
  intro e raised
  rw [h e raised, error_bind]

theorem ResolvesFirst.atFrameBoundary {s : State} {x : Checked State} {e : ErrReg} (h : ResolvesFirst m ops x)
    (raised : resolveEach m ops = .error e) : atFrameBoundary s x = .next (takeFault e s) := by
  rw [h e raised, atFrameBoundary_error]

end ResolvesFirst

/-- Every instruction starts with phase 3: the resolution of its operands, in wire order. -/
theorem exec_of_resolver_error {s : State} {i : Instr} {e : ErrReg}
    (raised : resolveEach s.memory (operands i) = .error e) : exec i s = .next (takeFault e s) := by
  cases i with
  | add8 | add16 | sub8 | sub16 | mul8 | mul16 | div8 | div16 | mod8 | mod16 | fdiv8 | fdiv16 | calldataCopy
  | noteHashExists | nullifierExists | l1ToL2MsgExists =>
    exact (resolvesFirst_slotAddr fun _ => resolvesFirst_slotAddr fun _ => resolvesFirst_slotAddr fun _ =>
      resolvesFirst_nil _).atFrameBoundary raised
  | cast8 | cast16 | mov8 | mov16 | sload | sstore =>
    exact (resolvesFirst_slotAddr fun _ => resolvesFirst_slotAddr fun _ => resolvesFirst_nil _).atFrameBoundary raised
  | toRadixBE =>
    exact (resolvesFirst_slotAddr fun _ => resolvesFirst_slotAddr fun _ => resolvesFirst_slotAddr fun _ =>
      resolvesFirst_slotAddr fun _ => resolvesFirst_nil _).atFrameBoundary raised
  | set8 | set16 | set32 | set64 | set128 | jumpi | getEnvVar =>
    exact (resolvesFirst_slotAddr fun _ => resolvesFirst_nil _).atFrameBoundary raised
  | jump | internalCall | internalReturn => cases raised
  | call =>
    refine execCall_of_error ((?_ : ResolvesFirst _ _ _) e raised)
    exact resolvesFirst_slotAddr fun _ => resolvesFirst_slotAddr fun _ => resolvesFirst_slotAddr fun _ =>
      resolvesFirst_slotAddr fun _ => resolvesFirst_slotAddr fun _ => resolvesFirst_slotAddr fun _ =>
      resolvesFirst_slotAddr fun _ => resolvesFirst_nil _
  | ret | revert =>
    exact ((resolvesFirst_slotAddr fun _ => resolvesFirst_slotAddr fun _ => resolvesFirst_nil _).bind _).atFrameBoundary
      raised

/-- Settles O12: the resolver's algorithm resolves operand by operand (`cachedBaseIsFresh`), and so does phase 3. -/
theorem resolverFaultsFirst : Obligations.ResolverFaultsFirst := by
  intro s i e raised
  rw [cachedBaseIsFresh] at raised
  exact exec_of_resolver_error raised

/-! ## The charge and the cost tables (40_step_and_gas.md R146 to R156) -/

/-- Settles O17: `charge_ok` and `charge_error` say when each answer is given. -/
theorem chargeRule : Obligations.ChargeRule := by
  intro l2 da s
  refine ⟨fun short => charge_error.mpr (.inl ⟨short, rfl⟩),
    fun enough short => charge_error.mpr (.inr ⟨enough, short, rfl⟩), fun enoughL2 enoughDA => ?_⟩
  refine ⟨_, _, ?_, ?_, charge_ok.mpr ⟨enoughL2, enoughDA, rfl⟩⟩
  · rw [sub_charge_toNat enoughL2, Nat.sub_add_cancel enoughL2]
  · rw [sub_charge_toNat enoughDA, Nat.sub_add_cancel enoughDA]

theorem modeFlags_le_two (mode : AddrMode) : modeFlags mode ≤ 2 := by
  cases mode <;> decide

theorem operands_length_le (i : Instr) : (operands i).length ≤ 7 := by
  cases i <;> simp [operands]

/-- R148, R153: at most two flags for each of at most seven operands. -/
theorem instrFlags_le (i : Instr) : instrFlags i ≤ 14 := by
  have perOperand : instrFlags i ≤ ((operands i).map fun o => modeFlags o.1).length • 2 :=
    List.sum_le_card_nsmul _ 2 (List.forall_mem_map.mpr fun o _ => modeFlags_le_two o.1)
  have := operands_length_le i
  rw [List.length_map, smul_eq_mul] at perOperand
  omega

theorem baseL2_le (f : Family) : baseL2 f ≤ 300 := by
  cases f <;> decide

theorem baseDA_le (f : Family) : baseDA f ≤ 32 := by
  cases f <;> decide

theorem dynL2_le_one (f : Family) : dynL2 f ≤ 1 := by
  cases f <;> decide

/-- Settles O18: the bounds of the four tables, and 14 flags at most. -/
theorem costTableInvariant : Obligations.CostTableInvariant := by
  refine ⟨fun i => ⟨instrFlags_le i, ?_, ?_, three_le_costL2 _ _ _⟩, fun f count small => ⟨?_, ?_⟩⟩
  · have := instrFlags_le i
    have := baseL2_le (familyOf i)
    simp only [costL2, addrPenaltyL2]
    omega
  · have := baseDA_le (familyOf i)
    simp only [costDA, addrPenaltyDA]
    omega
  · calc
      dynL2 f * count ≤ 1 * count := Nat.mul_le_mul_right count (dynL2_le_one f)
      _ ≤ 2 ^ 32 - 1 := by rwa [Nat.one_mul]
  · simp [dynDA]

/-- Settles O19: the charge of `Effects.count`, deducted from counters that cover it. -/
theorem completedStepPaysCost : Obligations.CompletedStepPaysCost := by
  intro s t i _ h clean
  obtain raised | effects := exec_effects h
  · exact absurd clean raised.err_ne_noError
  · obtain ⟨count, size, affords, paid_exactly, paid_at_least⟩ := effects.count
    have l2 := chargedFor_l2Gas_toNat affords
    have da := chargedFor_daGas_toNat affords
    refine ⟨count, size, affords, fun notCall => ?_, fun call => ?_⟩
    · obtain ⟨sameL2, sameDA⟩ := paid_exactly notCall
      rw [sameL2, sameDA]
      exact ⟨l2, da⟩
    · obtain ⟨leL2, leDA⟩ := paid_at_least call
      omega

/-! ## Out of gas (40_step_and_gas.md R136, R146, 60_exceptions.md R342)

Three layers. `SparesGas` says of a computation that it raises no out-of-gas error, as no check but the charge does.
`ChargeFirst` says of a computation that it raises the error of the charge, or spares gas when the charge is covered.
`ChargeDecides` says the same of an outcome, and `exec_chargeDecides` of every instruction whose phases 3 and 4 pass. -/

/-- The error is neither of the two that a charge raises (R342). -/
structure NotOutOfGas (e : ErrReg) : Prop where
  notL2 : e.kind ≠ .outOfGasL2
  notDA : e.kind ≠ .outOfGasDA

theorem notOutOfGas_noError : NotOutOfGas noError := ⟨nofun, nofun⟩

/-- The computation answers a value with this property, or an error other than out-of-gas. -/
def SparesGas {α : Type} (post : α → Prop) : Checked α → Prop
  | .ok v => post v
  | .error e => NotOutOfGas e

/-- The computation raises no out-of-gas error. -/
abbrev NoGasFault {α : Type} (x : Checked α) : Prop := SparesGas (fun _ => True) x

section SparesGas

variable {α β : Type} {post : α → Prop} {post' : β → Prop} {x : Checked α}

theorem NoGasFault.bind {f : α → Checked β} (hx : NoGasFault x) (hf : ∀ v, SparesGas post' (f v)) :
    SparesGas post' (x >>= f) := by
  cases x with
  | ok v => exact hf v
  | error e => exact hx

theorem noGasFault_of_error (h : ∀ e, x = .error e → NotOutOfGas e) : NoGasFault x := by
  cases x with
  | ok v => trivial
  | error e => exact h e rfl

theorem NoGasFault.error {e : ErrReg} (hx : NoGasFault x) (raised : x = .error e) : NotOutOfGas e := by
  subst raised
  exact hx

theorem noGasFault_ok (v : α) : NoGasFault (.ok v) := trivial

theorem noGasFault_checkTag (m : Memory) (t : Tag) (a : Nat) : NoGasFault (checkTag m t a) :=
  noGasFault_of_error fun e h => by
    obtain ⟨-, rfl⟩ | ⟨-, -, rfl⟩ := checkTag_error.mp h <;> exact ⟨nofun, nofun⟩

theorem noGasFault_checkSlice (a n : Nat) : NoGasFault (checkSlice a n) := noGasFault_of_error fun e h => by
  obtain ⟨-, rfl⟩ := checkSlice_error.mp h
  exact ⟨nofun, nofun⟩

theorem noGasFault_readSlice (m : Memory) (a n : Nat) : NoGasFault (readSlice m a n) :=
  noGasFault_of_error fun e h => by
    obtain ⟨-, -, -, -, rfl⟩ := readSlice_error.mp h
    exact ⟨nofun, nofun⟩

theorem noGasFault_divIn (x y : Nat) : NoGasFault (divIn x y) := noGasFault_of_error fun e h => by
  obtain ⟨-, rfl⟩ := divIn_error.mp h
  exact ⟨nofun, nofun⟩

theorem noGasFault_modIn (x y : Nat) : NoGasFault (modIn x y) := noGasFault_of_error fun e h => by
  obtain ⟨-, rfl⟩ := modIn_error.mp h
  exact ⟨nofun, nofun⟩

theorem noGasFault_fdivIn (x y : Nat) : NoGasFault (fdivIn x y) := noGasFault_of_error fun e h => by
  obtain ⟨-, rfl⟩ := fdivIn_error.mp h
  exact ⟨nofun, nofun⟩

theorem noGasFault_checkRadix (r : Nat) : NoGasFault (checkRadix r) := noGasFault_of_error fun e h => by
  obtain ⟨-, rfl⟩ := checkRadix_error.mp h
  exact ⟨nofun, nofun⟩

theorem noGasFault_pushEntry (entry : CallEntry) (st : List CallEntry) : NoGasFault (pushEntry entry st) :=
  noGasFault_of_error fun e h => by
    obtain ⟨-, rfl⟩ := pushEntry_error.mp h
    exact ⟨nofun, nofun⟩

theorem noGasFault_popEntry (st : List CallEntry) : NoGasFault (popEntry st) := noGasFault_of_error fun e h => by
  obtain ⟨-, rfl⟩ := popEntry_error.mp h
  exact ⟨nofun, nofun⟩

theorem noGasFault_relativeAddr (base off : Nat) : NoGasFault (relativeAddr base off) :=
  noGasFault_of_error fun e h => by
    obtain ⟨-, rfl⟩ := relativeAddr_error.mp h
    exact ⟨nofun, nofun⟩

theorem noGasFault_resolveOperand (m : Memory) (mode : AddrMode) (off : Nat) :
    NoGasFault (resolveOperand m mode off) := by
  cases mode with
  | direct => exact noGasFault_ok _
  | indirect => exact noGasFault_checkTag _ _ _
  | relative => exact (noGasFault_checkTag _ _ _).bind fun _ => noGasFault_relativeAddr _ _
  | indirectRelative =>
    exact (noGasFault_checkTag _ _ _).bind fun _ => (noGasFault_relativeAddr _ _).bind fun _ =>
      noGasFault_checkTag _ _ _

theorem noGasFault_resolveEach (m : Memory) (ops : List (AddrMode × Nat)) : NoGasFault (resolveEach m ops) := by
  induction ops with
  | nil => exact noGasFault_ok _
  | cons o ops ih => exact (noGasFault_resolveOperand _ _ _).bind fun _ => NoGasFault.bind ih fun _ => noGasFault_ok _

end SparesGas

/-! ### The immediates and the runtime count -/

section Immediates

variable {m : Memory}

theorem checkTagImmediate_of_admitted {x : BitVec 8} (admitted : tagImmediateOk x = true) :
    ∃ t, checkTagImmediate x = .ok t := by
  cases result : checkTagImmediate x with
  | ok t => exact ⟨t, rfl⟩
  | error e =>
    rw [tagOfImmediate_eq_none.mp (checkTagImmediate_error.mp result).1] at admitted
    cases admitted

theorem checkEnvVar_of_admitted {env : Environment} {x : BitVec 8} (admitted : varImmediateOk x = true) :
    ∃ c, checkEnvVar env x = .ok c := by
  cases result : checkEnvVar env x with
  | ok c => exact ⟨c, rfl⟩
  | error e =>
    rw [varImmediateOk_eq_false.mpr (envCell_none.mp (checkEnvVar_error.mp result).1)] at admitted
    cases admitted

theorem slotValue_of_slotAddr {n k i p : Nat} {d : BitVec n} {offset : BitVec k}
    (addr : slotAddr m d i offset = .ok p) : slotValue m d i offset = .ok (readCell m p).value := by
  rw [slotValue, addr, ok_bind]

/-- The runtime count of `CALL` is the value of its fifth operand (R151, R300). -/
theorem slotValue_of_resolved_call {d l2Gas daGas addr args argsSize ret success retSize : BitVec 16}
    {addrs : List Nat}
    (resolved : resolveEach m (operands (.call d l2Gas daGas addr args argsSize ret success retSize)) = .ok addrs) :
    slotValue m d 4 argsSize = .ok (readCell m (addrs.getD 4 0)).value := by
  obtain ⟨_, _, -, afterL2, rfl⟩ := resolveEach_cons.mp resolved
  obtain ⟨_, _, -, afterDA, rfl⟩ := resolveEach_cons.mp afterL2
  obtain ⟨_, _, -, afterAddr, rfl⟩ := resolveEach_cons.mp afterDA
  obtain ⟨_, _, _, _, -, sizeAddr, -, -, rfl⟩ := slotAddr_of_resolveEach_four afterAddr
  exact slotValue_of_slotAddr sizeAddr

end Immediates

/-! ### The charge, and what follows it -/

/-- `x` raises the error of the charge, or else spares gas. -/
structure ChargeFirst {α : Type} (charge : Checked State) (post : α → Prop) (x : Checked α) : Prop where
  raises : ∀ e, charge = .error e → x = .error e
  spares : ∀ u, charge = .ok u → SparesGas post x

/-- The outcome is the conversion of the charge's error, or else reports no new out-of-gas error. -/
structure ChargeDecides (s : State) (charge : Checked State) (o : Host.Outcome State Fault Refusal) : Prop where
  raises : ∀ e, charge = .error e → o = .next (takeFault e s)
  spares : ∀ u, charge = .ok u → ∀ t, o = .next t → t.err = s.err ∨ NotOutOfGas t.err

section ChargeFirst

variable {α β : Type} {post : α → Prop} {post' : β → Prop} {s : State} {c : Checked State}

theorem chargeFirst_charge {l2 da : Nat} {f : State → Checked α}
    (spares : ∀ u, u.err = s.err → SparesGas post (f u)) :
    ChargeFirst (charge l2 da s) post (charge l2 da s >>= f) := by
  refine ⟨fun e short => by rw [short, error_bind], fun u paid => ?_⟩
  obtain ⟨-, -, rfl⟩ := charge_ok.mp paid
  rw [paid, ok_bind]
  exact spares _ rfl

theorem chargeFirst_chargeFor {w n count : Nat} {f : Family} {d : BitVec w} {g : State → Checked α}
    (spares : ∀ u, u.err = s.err → SparesGas post (g u)) :
    ChargeFirst (chargeFor f d n count s) post (chargeFor f d n count s >>= g) :=
  chargeFirst_charge spares

theorem ChargeFirst.bind {x : Checked α} {f : α → Checked β} (h : ChargeFirst c post x)
    (hf : ∀ v, post v → SparesGas post' (f v)) : ChargeFirst c post' (x >>= f) := by
  refine ⟨fun e short => by rw [h.raises e short, error_bind], fun u paid => ?_⟩
  have spares := h.spares u paid
  cases x with
  | ok v => exact hf v spares
  | error e => exact spares

theorem ChargeDecides.of_checked {x : Checked State} (h : ChargeFirst c (fun u => u.err = s.err) x) :
    ChargeDecides s c (atFrameBoundary s x) := by
  refine ⟨fun e short => by rw [h.raises e short, atFrameBoundary_error], fun u paid t ends => ?_⟩
  have spares := h.spares u paid
  cases x with
  | ok v =>
    cases ends
    exact .inl spares
  | error e =>
    cases ends
    exact .inr spares

/-! ### A check of phase 4 that passes is followed by the rest -/

section PassingChecks

variable {m : Memory} {addrs : List Nat} {slot a b : Nat}

theorem chargeFirst_readInit {f : MemCell → Checked α} (addr : addrs.getD slot 0 = a)
    (pass : TagCheck.Passes m addrs ⟨slot, .initialised⟩) (rest : ChargeFirst c post (f (readCell m a))) :
    ChargeFirst c post (readInit m a >>= f) := by
  rwa [readInit_ok.mpr ⟨rfl, (passes_initialised addr).mp pass⟩, ok_bind]

theorem chargeFirst_checkTag {t : Tag} {f : Nat → Checked α} (addr : addrs.getD slot 0 = a)
    (pass : TagCheck.Passes m addrs ⟨slot, .tagged t⟩) (rest : ChargeFirst c post (f (readCell m a).value)) :
    ChargeFirst c post (checkTag m t a >>= f) := by
  obtain ⟨initialized, rfl⟩ := (passes_tagged addr).mp pass
  rwa [(checkTag_ok initialized).mpr rfl, ok_bind]

theorem chargeFirst_checkIntegral {f : MemCell → Checked α} (addr : addrs.getD slot 0 = a)
    (pass : TagCheck.Passes m addrs ⟨slot, .integral⟩) (rest : ChargeFirst c post (f (readCell m a))) :
    ChargeFirst c post (checkIntegral m a >>= f) := by
  rwa [checkIntegral_ok.mpr ⟨rfl, (passes_integral addr).mp pass⟩, ok_bind]

theorem chargeFirst_checkSame {f : Tag × Nat × Nat → Checked α} (addrA : addrs.getD 0 0 = a)
    (addrB : addrs.getD 1 0 = b) (pass : ∀ k ∈ sameTagChecks, k.Passes m addrs)
    (rest : ∀ x y, ChargeFirst c post (f ((readCell m a).tag, x, y))) :
    ChargeFirst c post (checkSame m a b >>= f) := by
  simp only [sameTagChecks, List.forall_mem_cons] at pass
  obtain ⟨passA, -, passSame, -⟩ := pass
  have initialized := (passes_initialised addrA).mp passA
  obtain ⟨-, same⟩ := (passes_sameTagAs addrB addrA).mp passSame
  rw [checkSame_ok.mpr ⟨rfl, congrArg (MemCell.mk · _) same, initialized⟩, ok_bind]
  exact rest _ _

/-- The check that an arithmetic instruction makes on the common tag answers when these checks pass. -/
def ClassCheckPasses (classCheck : Tag → Nat → Checked Unit) (extra : List TagCheck) : Prop :=
  ∀ (m : Memory) (addrs : List Nat) (a : Nat), addrs.getD 0 0 = a → (∀ c ∈ extra, c.Passes m addrs) →
    classCheck (readCell m a).tag a = .ok ()

theorem anyTag_passes : ClassCheckPasses anyTag [] := fun _ _ _ _ _ => rfl

theorem rejectField_passes : ClassCheckPasses rejectField [⟨0, .integral⟩] := fun _ _ _ addr pass =>
  rejectField_ok.mpr ((passes_integral addr).mp (pass _ (.head _))).2

theorem requireField_passes : ClassCheckPasses requireField [⟨0, .tagged .field⟩] := fun _ _ _ addr pass =>
  requireField_ok.mpr ((passes_tagged addr).mp (pass _ (.head _))).2

theorem chargeFirst_classCheck {classCheck : Tag → Nat → Checked Unit} {extra : List TagCheck}
    {f : Unit → Checked α} (passes : ClassCheckPasses classCheck extra) (addr : addrs.getD 0 0 = a)
    (pass : ∀ k ∈ extra, k.Passes m addrs) (rest : ChargeFirst c post (f ())) :
    ChargeFirst c post (classCheck (readCell m a).tag a >>= f) := by
  rwa [passes m addrs a addr pass, ok_bind]

end PassingChecks

end ChargeFirst

/-! ### Each meaning -/

section ChargeDecides

variable {s : State} {addrs : List Nat} {ind : BitVec 8}

theorem arithmetic_chargeDecides {k : Nat} {a b dst : BitVec k} {classCheck : Tag → Nat → Checked Unit}
    {op : Tag → Nat → Nat → Checked Nat} {extra : List TagCheck} (classPasses : ClassCheckPasses classCheck extra)
    (opSpares : ∀ t x y, NoGasFault (op t x y)) (f : Family) (width : Nat)
    (resolved : resolveEach s.memory
      [(slotMode ind 0, a.toNat), (slotMode ind 1, b.toNat), (slotMode ind 2, dst.toNat)] = .ok addrs)
    (pass : ∀ c ∈ sameTagChecks ++ extra, c.Passes s.memory addrs) :
    ChargeDecides s (chargeFor f ind 3 0 s) (arithmetic f width classCheck op ind a b dst s) := by
  obtain ⟨pa, pb, pd, addrA, addrB, addrD, rfl⟩ := slotAddr_of_resolveEach_three resolved
  obtain ⟨passSame, passExtra⟩ := List.forall_mem_append.mp pass
  rw [arithmetic, addrA, ok_bind, addrB, ok_bind, addrD, ok_bind]
  exact .of_checked <| chargeFirst_checkSame rfl rfl passSame fun _ _ =>
    chargeFirst_classCheck classPasses rfl passExtra <|
    chargeFirst_chargeFor fun _ clean => (opSpares _ _ _).bind fun _ => clean

theorem castCell_chargeDecides {k : Nat} {src dst : BitVec k} {tag : BitVec 8} (width : Nat)
    (admitted : tagImmediateOk tag = true)
    (resolved : resolveEach s.memory [(slotMode ind 0, src.toNat), (slotMode ind 1, dst.toNat)] = .ok addrs)
    (pass : TagCheck.Passes s.memory addrs ⟨0, .initialised⟩) :
    ChargeDecides s (chargeFor .cast ind 2 0 s) (castCell width ind src dst tag s) := by
  obtain ⟨ps, pd, addrS, addrD, rfl⟩ := slotAddr_of_resolveEach_two resolved
  obtain ⟨t, tagged⟩ := checkTagImmediate_of_admitted admitted
  rw [castCell, addrS, ok_bind, addrD, ok_bind, tagged, ok_bind]
  exact .of_checked <| chargeFirst_readInit rfl pass <| chargeFirst_chargeFor fun _ clean => clean

theorem execToRadixBE_chargeDecides {src radix numLimbs dst : BitVec 16} {count : Nat}
    (resolved : resolveEach s.memory (operands (.toRadixBE ind src radix numLimbs dst)) = .ok addrs)
    (size : slotValue s.memory ind 2 numLimbs = .ok count)
    (pass : ∀ c ∈ tagChecks (.toRadixBE ind src radix numLimbs dst), c.Passes s.memory addrs) :
    ChargeDecides s (chargeFor .toRadixBE ind 4 count s) (execToRadixBE ind src radix numLimbs dst s) := by
  obtain ⟨ps, pr, pn, pd, addrS, addrR, addrN, addrD, rfl⟩ := slotAddr_of_resolveEach_four resolved
  simp only [tagChecks, List.forall_mem_cons] at pass
  obtain ⟨passS, passR, passN, -⟩ := pass
  cases (slotValue_of_slotAddr addrN).symm.trans size
  rw [execToRadixBE, addrS, ok_bind, addrR, ok_bind, addrN, ok_bind, addrD, ok_bind]
  exact .of_checked <| chargeFirst_checkTag rfl passS <| chargeFirst_checkTag rfl passR <|
    chargeFirst_checkTag rfl passN <| chargeFirst_chargeFor fun _ clean => (noGasFault_checkRadix _).bind fun _ =>
    (noGasFault_checkSlice _ _).bind fun _ => clean

theorem setImmediate_chargeDecides {k : Nat} {dst : BitVec k} {tag : BitVec 8} (width value : Nat)
    (admitted : tagImmediateOk tag = true)
    (resolved : resolveEach s.memory [(slotMode ind 0, dst.toNat)] = .ok addrs) :
    ChargeDecides s (chargeFor .set ind 1 0 s) (setImmediate width ind dst tag value s) := by
  obtain ⟨pd, addrD, rfl⟩ := slotAddr_of_resolveEach resolved
  obtain ⟨t, tagged⟩ := checkTagImmediate_of_admitted admitted
  rw [setImmediate, addrD, ok_bind, tagged, ok_bind]
  exact .of_checked <| chargeFirst_chargeFor fun _ clean => clean

theorem moveCell_chargeDecides {k : Nat} {src dst : BitVec k} (width : Nat)
    (resolved : resolveEach s.memory [(slotMode ind 0, src.toNat), (slotMode ind 1, dst.toNat)] = .ok addrs)
    (pass : TagCheck.Passes s.memory addrs ⟨0, .initialised⟩) :
    ChargeDecides s (chargeFor .mov ind 2 0 s) (moveCell width ind src dst s) := by
  obtain ⟨ps, pd, addrS, addrD, rfl⟩ := slotAddr_of_resolveEach_two resolved
  rw [moveCell, addrS, ok_bind, addrD, ok_bind]
  exact .of_checked <| chargeFirst_readInit rfl pass <| chargeFirst_chargeFor fun _ clean => clean

theorem execCalldataCopy_chargeDecides {cdOffset copySize dst : BitVec 16} {count : Nat}
    (resolved : resolveEach s.memory (operands (.calldataCopy ind cdOffset copySize dst)) = .ok addrs)
    (size : slotValue s.memory ind 1 copySize = .ok count)
    (pass : ∀ c ∈ tagChecks (.calldataCopy ind cdOffset copySize dst), c.Passes s.memory addrs) :
    ChargeDecides s (chargeFor .calldataCopy ind 3 count s) (execCalldataCopy ind cdOffset copySize dst s) := by
  obtain ⟨po, pk, pd, addrO, addrK, addrD, rfl⟩ := slotAddr_of_resolveEach_three resolved
  simp only [tagChecks, List.forall_mem_cons] at pass
  obtain ⟨passO, passK, -⟩ := pass
  cases (slotValue_of_slotAddr addrK).symm.trans size
  rw [execCalldataCopy, addrO, ok_bind, addrK, ok_bind, addrD, ok_bind]
  exact .of_checked <| chargeFirst_checkTag rfl passO <| chargeFirst_checkTag rfl passK <|
    chargeFirst_chargeFor fun _ clean => (noGasFault_checkSlice _ _).bind fun _ => clean

theorem execJumpi_chargeDecides {cond : BitVec 16} {target : BitVec 32}
    (resolved : resolveEach s.memory (operands (.jumpi ind cond target)) = .ok addrs)
    (pass : TagCheck.Passes s.memory addrs ⟨0, .integral⟩) :
    ChargeDecides s (chargeFor .jumpi ind 1 0 s) (execJumpi ind cond target s) := by
  obtain ⟨pc, addrC, rfl⟩ := slotAddr_of_resolveEach resolved
  rw [execJumpi, addrC, ok_bind]
  refine .of_checked <| chargeFirst_checkIntegral rfl pass <| chargeFirst_chargeFor fun u clean => ?_
  show (ite _ _ _ : State).err = s.err
  split <;> exact clean

theorem execGetEnvVar_chargeDecides {dst : BitVec 16} {var : BitVec 8} (admitted : varImmediateOk var = true)
    (resolved : resolveEach s.memory (operands (.getEnvVar ind dst var)) = .ok addrs) :
    ChargeDecides s (chargeFor .getEnvVar ind 1 0 s) (execGetEnvVar ind dst var s) := by
  obtain ⟨pd, addrD, rfl⟩ := slotAddr_of_resolveEach resolved
  obtain ⟨c, register⟩ := checkEnvVar_of_admitted admitted
  rw [execGetEnvVar, addrD, ok_bind, register, ok_bind]
  exact .of_checked <| chargeFirst_chargeFor fun _ clean => clean

theorem execSload_chargeDecides {slot dst : BitVec 16}
    (resolved : resolveEach s.memory (operands (.sload ind slot dst)) = .ok addrs)
    (pass : TagCheck.Passes s.memory addrs ⟨0, .tagged .field⟩) :
    ChargeDecides s (chargeFor .sload ind 2 0 s) (execSload ind slot dst s) := by
  obtain ⟨pk, pd, addrK, addrD, rfl⟩ := slotAddr_of_resolveEach_two resolved
  rw [execSload, addrK, ok_bind, addrD, ok_bind]
  exact .of_checked <| chargeFirst_checkTag rfl pass <| chargeFirst_chargeFor fun _ clean => clean

theorem execSstore_chargeDecides {src slot : BitVec 16}
    (resolved : resolveEach s.memory (operands (.sstore ind src slot)) = .ok addrs)
    (pass : ∀ c ∈ tagChecks (.sstore ind src slot), c.Passes s.memory addrs) :
    ChargeDecides s (chargeFor .sstore ind 2 0 s) (execSstore ind src slot s) := by
  obtain ⟨pv, pk, addrV, addrK, rfl⟩ := slotAddr_of_resolveEach_two resolved
  simp only [tagChecks, List.forall_mem_cons] at pass
  obtain ⟨passV, passK, -⟩ := pass
  rw [execSstore, addrV, ok_bind, addrK, ok_bind]
  exact .of_checked <| chargeFirst_checkTag rfl passV <| chargeFirst_checkTag rfl passK <|
    chargeFirst_chargeFor fun _ clean => clean

theorem membershipQuery_chargeDecides {key existsDst valueDst : BitVec 16} (f : Family) (o : Oracle)
    (resolved : resolveEach s.memory
      [(slotMode ind 0, key.toNat), (slotMode ind 1, existsDst.toNat), (slotMode ind 2, valueDst.toNat)] = .ok addrs)
    (pass : TagCheck.Passes s.memory addrs ⟨0, .tagged .field⟩) :
    ChargeDecides s (chargeFor f ind 3 0 s) (membershipQuery f o ind key existsDst valueDst s) := by
  obtain ⟨pk, pe, pv, addrK, addrE, addrV, rfl⟩ := slotAddr_of_resolveEach_three resolved
  rw [membershipQuery, addrK, ok_bind, addrE, ok_bind, addrV, ok_bind]
  exact .of_checked <| chargeFirst_checkTag rfl pass <| chargeFirst_chargeFor fun _ clean => clean

theorem haltOutput_chargeFirst {ret size : BitVec 16} {count : Nat} (f : Family)
    (resolved : resolveEach s.memory [(slotMode ind 0, ret.toNat), (slotMode ind 1, size.toNat)] = .ok addrs)
    (sizeValue : slotValue s.memory ind 1 size = .ok count)
    (pass : TagCheck.Passes s.memory addrs ⟨1, .tagged .uint32⟩) :
    ChargeFirst (chargeFor f ind 2 count s) (fun out => out.1.err = s.err) (haltOutput f ind ret size s) := by
  obtain ⟨pr, pz, addrR, addrZ, rfl⟩ := slotAddr_of_resolveEach_two resolved
  cases (slotValue_of_slotAddr addrZ).symm.trans sizeValue
  rw [haltOutput, addrR, ok_bind, addrZ, ok_bind]
  exact chargeFirst_checkTag rfl pass <| chargeFirst_chargeFor fun _ clean => (noGasFault_checkSlice _ _).bind fun _ =>
    (noGasFault_readSlice _ _ _).bind fun _ => clean

section Call

variable {d l2Gas daGas addr args argsSize ret success retSize : BitVec 16}

theorem callRequest_chargeFirst {count : Nat}
    (resolved : resolveEach s.memory (operands (.call d l2Gas daGas addr args argsSize ret success retSize)) =
      .ok addrs)
    (size : slotValue s.memory d 4 argsSize = .ok count)
    (pass : ∀ c ∈ tagChecks (.call d l2Gas daGas addr args argsSize ret success retSize), c.Passes s.memory addrs) :
    ChargeFirst (chargeFor .call d 7 count s) (fun q => q.charged.err = s.err)
      (callRequest d l2Gas daGas addr args argsSize ret success retSize s) := by
  obtain ⟨pl, pd, pc, pa, pn, pr, po, rfl, request⟩ := callRequest_of_resolved resolved
  simp only [tagChecks, List.forall_mem_cons] at pass
  obtain ⟨passL, passD, passC, passN, -⟩ := pass
  cases (slotValue_of_resolved_call resolved).symm.trans size
  rw [request, callRequestAt]
  exact chargeFirst_checkTag rfl passL <| chargeFirst_checkTag rfl passD <| chargeFirst_checkTag rfl passC <|
    chargeFirst_checkTag rfl passN <| chargeFirst_chargeFor fun _ clean => (noGasFault_checkSlice _ _).bind fun _ =>
    (noGasFault_checkSlice _ _).bind fun _ => (noGasFault_readSlice _ _ _).bind fun _ => clean

/-- Once the request is ready `CALL` raises nothing, whatever the host answers. -/
theorem ChargeFirst.execCall_chargeDecides {c : Checked State}
    (h : ChargeFirst c (fun q => q.charged.err = s.err)
      (callRequest d l2Gas daGas addr args argsSize ret success retSize s)) :
    ChargeDecides s c (execCall d l2Gas daGas addr args argsSize ret success retSize s) := by
  refine ⟨fun e short => execCall_of_error (h.raises e short), fun u paid t ends => ?_⟩
  have spares := h.spares u paid
  unfold execCall at ends
  split at ends
  · rename_i e raised
    cases ends
    rw [raised] at spares
    exact .inr spares
  · rename_i q ready
    rw [ready] at spares
    dsimp only at ends
    split at ends
    · cases ends
      exact .inl spares
    · cases ends

end Call

end ChargeDecides

/-! ### All instructions -/

/-- The charge of phase 5, of the cost of the instruction with this runtime count (R136, R147). -/
def chargeOf (i : Instr) (count : Nat) (s : State) : Checked State :=
  charge (costL2 (familyOf i) (instrFlags i) count) (costDA (familyOf i) (instrFlags i) count) s

theorem ChargeDecides.of_flags {w n count : Nat} {i : Instr} {d : BitVec w} {s : State}
    {o : Host.Outcome State Fault Refusal} (flags : instrFlags i = flagCount d n)
    (h : ChargeDecides s (chargeFor (familyOf i) d n count s) o) : ChargeDecides s (chargeOf i count s) o := by
  rwa [chargeOf, flags]

/-- Once phases 3 and 4 have passed, the charge of phase 5 decides whether an instruction raises out-of-gas (R136). -/
theorem exec_chargeDecides {s : State} {i : Instr} {addrs : List Nat} {count : Nat} (phases : PhasesPass s i addrs)
    (size : sizeCount s.memory i = .ok count) : ChargeDecides s (chargeOf i count s) (exec i s) := by
  obtain ⟨resolved, admitted, pass⟩ := phases
  cases i with
  | add8 | add16 | sub8 | sub16 | mul8 | mul16 =>
    cases size
    exact .of_flags (instrFlags_slots3 ..) <|
      arithmetic_chargeDecides anyTag_passes (fun _ _ _ => noGasFault_ok _) _ _ resolved pass
  | div8 | div16 =>
    cases size
    exact .of_flags (instrFlags_slots3 ..) <|
      arithmetic_chargeDecides rejectField_passes (fun _ => noGasFault_divIn) _ _ resolved pass
  | mod8 | mod16 =>
    cases size
    exact .of_flags (instrFlags_slots3 ..) <|
      arithmetic_chargeDecides rejectField_passes (fun _ => noGasFault_modIn) _ _ resolved pass
  | fdiv8 | fdiv16 =>
    cases size
    exact .of_flags (instrFlags_slots3 ..) <|
      arithmetic_chargeDecides requireField_passes (fun _ => noGasFault_fdivIn) _ _ resolved pass
  | cast8 | cast16 =>
    cases size
    exact .of_flags (instrFlags_slots2 ..) <| castCell_chargeDecides _ admitted resolved (pass _ (.head _))
  | toRadixBE =>
    exact .of_flags (instrFlags_slots4 ..) <| execToRadixBE_chargeDecides resolved size pass
  | set8 | set16 | set32 | set64 | set128 =>
    cases size
    exact .of_flags (instrFlags_slots1 ..) <| setImmediate_chargeDecides _ _ admitted resolved
  | mov8 | mov16 =>
    cases size
    exact .of_flags (instrFlags_slots2 ..) <| moveCell_chargeDecides _ resolved (pass _ (.head _))
  | calldataCopy =>
    exact .of_flags (instrFlags_slots3 ..) <| execCalldataCopy_chargeDecides resolved size pass
  | jump =>
    cases size
    exact .of_checked <| chargeFirst_charge fun _ clean => clean
  | jumpi =>
    cases size
    exact .of_flags (instrFlags_slots1 ..) <| execJumpi_chargeDecides resolved (pass _ (.head _))
  | internalCall =>
    cases size
    exact .of_checked <| chargeFirst_charge fun _ clean => (noGasFault_pushEntry _ _).bind fun _ => clean
  | internalReturn =>
    cases size
    exact .of_checked <| chargeFirst_charge fun _ clean => (noGasFault_popEntry _).bind fun _ => clean
  | getEnvVar =>
    cases size
    exact .of_flags (instrFlags_slots1 ..) <| execGetEnvVar_chargeDecides admitted resolved
  | sload =>
    cases size
    exact .of_flags (instrFlags_slots2 ..) <| execSload_chargeDecides resolved (pass _ (.head _))
  | sstore =>
    cases size
    exact .of_flags (instrFlags_slots2 ..) <| execSstore_chargeDecides resolved pass
  | noteHashExists | nullifierExists | l1ToL2MsgExists =>
    cases size
    exact .of_flags (instrFlags_slots3 ..) <| membershipQuery_chargeDecides _ _ resolved (pass _ (.head _))
  | call =>
    exact .of_flags (instrFlags_slots7 ..) <| (callRequest_chargeFirst resolved size pass).execCall_chargeDecides
  | ret | revert =>
    exact .of_flags (instrFlags_slots2 ..) <| .of_checked <|
      ChargeFirst.bind (haltOutput_chargeFirst _ resolved size (pass _ (.head _))) fun _ clean => clean

theorem sizeCount_of_resolved {m : Memory} {i : Instr} {addrs : List Nat}
    (resolved : resolveEach m (operands i) = .ok addrs) : ∃ count, sizeCount m i = .ok count := by
  cases i with
  | toRadixBE =>
    obtain ⟨_, _, _, _, -, -, addr, -, -⟩ := slotAddr_of_resolveEach_four resolved
    exact ⟨_, slotValue_of_slotAddr addr⟩
  | calldataCopy =>
    obtain ⟨_, _, _, -, addr, -, -⟩ := slotAddr_of_resolveEach_three resolved
    exact ⟨_, slotValue_of_slotAddr addr⟩
  | call => exact ⟨_, slotValue_of_resolved_call resolved⟩
  | ret | revert =>
    obtain ⟨_, _, -, addr, -⟩ := slotAddr_of_resolveEach_two resolved
    exact ⟨_, slotValue_of_slotAddr addr⟩
  | _ => exact ⟨0, rfl⟩

/-! ### Before the charge -/

theorem TagCheck.error_notOutOfGas (m : Memory) (addrs : List Nat) (c : TagCheck) : NotOutOfGas (c.error m addrs) := by
  unfold TagCheck.error
  split <;> exact ⟨nofun, nofun⟩

/-- Checks that do not all pass have a first one that fails. -/
theorem exists_first_failing {m : Memory} {addrs : List Nat} {checks : List TagCheck}
    (h : ¬ ∀ c ∈ checks, c.Passes m addrs) :
    ∃ before c after, checks = before ++ c :: after ∧ (∀ b ∈ before, b.Passes m addrs) ∧ ¬ c.Passes m addrs := by
  induction checks with
  | nil => simp at h
  | cons c checks ih =>
    by_cases pass : c.Passes m addrs
    · obtain ⟨before, c', after, rfl, passBefore, fail⟩ := ih fun all => h (List.forall_mem_cons.mpr ⟨pass, all⟩)
      exact ⟨c :: before, c', after, rfl, List.forall_mem_cons.mpr ⟨pass, passBefore⟩, fail⟩
    · exact ⟨[], c, checks, rfl, by simp, pass⟩

/-- Phases 3 and 4 pass, or raise an error other than out-of-gas (R346). -/
theorem phasesPass_or_raises (s : State) (i : Instr) :
    (∃ addrs, PhasesPass s i addrs) ∨ ∃ e, NotOutOfGas e ∧ exec i s = .next (takeFault e s) := by
  cases resolved : resolveEach s.memory (operands i) with
  | error e => exact .inr ⟨e, (noGasFault_resolveEach _ _).error resolved, exec_of_resolver_error resolved⟩
  | ok addrs =>
    cases admitted : wellFormed i with
    | false => exact .inr ⟨kindOnly .invalidImmediate, ⟨nofun, nofun⟩, exec_of_reserved resolved admitted⟩
    | true =>
      by_cases pass : ∀ c ∈ tagChecks i, c.Passes s.memory addrs
      · exact .inl ⟨addrs, resolved, admitted, pass⟩
      · obtain ⟨before, c, after, split, passBefore, fail⟩ := exists_first_failing pass
        exact .inr ⟨_, c.error_notOutOfGas _ _,
          exec_faultsFirst resolved admitted before c after split passBefore fail⟩

/-- An out-of-gas error is the error of the charge of phase 5 (R342). -/
theorem chargeOf_of_outOfGas {s t : State} {i : Instr} (clean : s.err = noError) (h : exec i s = .next t)
    (outOfGas : ¬ NotOutOfGas t.err) :
    ∃ count, sizeCount s.memory i = .ok count ∧ chargeOf i count s = .error t.err := by
  obtain ⟨addrs, phases⟩ | ⟨e, other, raised⟩ := phasesPass_or_raises s i
  · obtain ⟨count, size⟩ := sizeCount_of_resolved phases.resolved
    obtain ⟨raises, spares⟩ := exec_chargeDecides phases size
    refine ⟨count, size, ?_⟩
    cases result : chargeOf i count s with
    | error e =>
      cases (raises e result).symm.trans h
      rfl
    | ok u =>
      obtain same | other := spares u result t h
      · exact absurd (by rw [same, clean]; exact notOutOfGas_noError) outOfGas
      · exact absurd other outOfGas
  · cases raised.symm.trans h
    exact absurd other outOfGas

/-- Only `SSTORE` has a DA cost (R150). -/
theorem family_of_costDA_pos {f : Family} {flags count : Nat} (h : 0 < costDA f flags count) : f = .sstore := by
  cases f <;> simp [costDA, baseDA, addrPenaltyDA, dynDA] at h ⊢

/-- Settles O20: the charge decides (`exec_chargeDecides`), and nothing else raises these errors. -/
theorem outOfGasOnlyWhenShort : Obligations.OutOfGasOnlyWhenShort := by
  refine ⟨fun s i addrs count phases size => ?_, fun s t i clean h => ⟨fun l2 => ?_, fun da => ?_⟩⟩
  · obtain ⟨raises, -⟩ := exec_chargeDecides phases size
    exact ⟨fun short => raises _ (charge_error.mpr (.inl ⟨short, rfl⟩)),
      fun enough short => raises _ (charge_error.mpr (.inr ⟨enough, short, rfl⟩))⟩
  · obtain ⟨count, size, raised⟩ := chargeOf_of_outOfGas clean h fun other => other.notL2 l2
    obtain ⟨short, -⟩ | ⟨-, -, err⟩ := charge_error.mp raised
    · exact ⟨count, size, short⟩
    · simp [err, kindOnly] at l2
  · obtain ⟨count, size, raised⟩ := chargeOf_of_outOfGas clean h fun other => other.notDA da
    obtain ⟨-, err⟩ | ⟨enough, short, -⟩ := charge_error.mp raised
    · simp [err, kindOnly] at da
    · exact ⟨family_of_costDA_pos (Nat.zero_lt_of_lt short), count, size, enough, short⟩

/-! ## Where `pc` goes (40_step_and_gas.md R138) -/

/-- Settles O36: the conversion leaves `pc` and reports an error, a completed instruction reports none. -/
theorem pcAdvance : Obligations.PcAdvance := by
  intro s t i clean h
  obtain raised | effects := exec_effects h
  · have pc : t.pc = s.pc := by obtain ⟨e, -, rfl⟩ := raised; rfl
    exact ⟨fun _ => pc, fun noErr => absurd noErr raised.err_ne_noError⟩
  · exact ⟨fun err => absurd (effects.err.trans clean) err, fun _ => effects.pc⟩

end Sys2Proof.Machine

/-! PROOFS of the statements of 41_arithmetic.md: in which order a division checks, and the state in which each of the
twelve instructions completes.

Phases 3 and 4 read two cells of one tag, whichever the instruction is. `exec_arithmetic` says once what the twelve do from
there on: a check on the tag, the charge, the operation on the two values. `ArithmeticRule` names the check and the operation
of each family, so a claim about a family is a claim about these two. -/

namespace Sys2Proof.Machine

/-! ## The twelve instructions, from the check on the common tag on (41_arithmetic.md R170) -/

/-- The check on the common tag and the operation of each arithmetic family. -/
inductive ArithmeticRule : Family → (Tag → Nat → Checked Unit) → (Tag → Nat → Nat → Checked Nat) → Prop
  | add : ArithmeticRule .add anyTag fun t x y => .ok (addIn t x y)
  | sub : ArithmeticRule .sub anyTag fun t x y => .ok (subIn t x y)
  | mul : ArithmeticRule .mul anyTag fun t x y => .ok (mulIn t x y)
  | div : ArithmeticRule .div rejectField fun _ x y => divIn x y
  | mod : ArithmeticRule .mod rejectField fun _ x y => modIn x y
  | fdiv : ArithmeticRule .fdiv requireField fun _ x y => fdivIn x y

/-- The operands of the instruction resolve to two cells of one initialised tag and a destination. -/
structure TwoCells (s : State) (i : Instr) (pa pb pd : Nat) (t : Tag) (x y : Nat) : Prop where
  resolved : resolveEach s.memory (operands i) = .ok [pa, pb, pd]
  cellA : readCell s.memory pa = ⟨t, x⟩
  cellB : readCell s.memory pb = ⟨t, y⟩
  initialized : t ≠ .uninitialized

/-- What is left of an arithmetic instruction after `CheckSame`: the check on the tag, the charge of phase 5, the result,
and its store. -/
def arithmeticTail (classChecked : Checked Unit) (charged : Checked State) (result : Checked Nat) (pd : Nat) (t : Tag)
    (width : Nat) : Checked State := do
  classChecked
  let c ← charged
  let r ← result
  .ok ((c.setCell pd ⟨t, r⟩).advance width)

section Arithmetic

variable {s : State} {i : Instr} {f : Family} {pa pb pd x y : Nat} {t : Tag} {classCheck : Tag → Nat → Checked Unit}
  {op : Tag → Nat → Nat → Checked Nat}

theorem chargeOf_of_affords {count : Nat} (affords : Affords s i count) :
    chargeOf i count s = .ok (s.chargedFor i count) := charge_ok.mpr ⟨affords.l2, affords.da, rfl⟩

/-- Each of the twelve is the template of R170, with three operand slots and the rule of its family. -/
theorem exec_eq_arithmetic (rule : ArithmeticRule (familyOf i) classCheck op) (s : State) :
    ∃ (k : Nat) (ind : BitVec 8) (a b dst : BitVec k),
      operands i = [(slotMode ind 0, a.toNat), (slotMode ind 1, b.toNat), (slotMode ind 2, dst.toNat)] ∧
      exec i s = arithmetic (familyOf i) (instrWidth i) classCheck op ind a b dst s := by
  cases i with
  | add8 | add16 | sub8 | sub16 | mul8 | mul16 | div8 | div16 | mod8 | mod16 | fdiv8 | fdiv16 =>
    cases rule
    exact ⟨_, _, _, _, _, rfl, rfl⟩
  | _ => cases rule

theorem exec_arithmetic (family : familyOf i = f) (rule : ArithmeticRule f classCheck op)
    (cells : TwoCells s i pa pb pd t x y) :
    exec i s = atFrameBoundary s
      (arithmeticTail (classCheck t pa) (chargeOf i 0 s) (op t x y) pd t (instrWidth i)) := by
  subst family
  obtain ⟨resolved, cellA, cellB, initialized⟩ := cells
  obtain ⟨_, ind, _, _, _, slots, meaning⟩ := exec_eq_arithmetic rule s
  obtain ⟨_, _, _, addrA, addrB, addrD, addrs⟩ := slotAddr_of_resolveEach_three (slots ▸ resolved)
  cases addrs
  have same := checkSame_ok.mpr ⟨cellA, cellB, initialized⟩
  have charged : chargeOf i 0 s = chargeFor (familyOf i) ind 3 0 s := by
    rw [chargeOf, instrFlags, slots, instrFlags_slots3, chargeFor]
  rw [meaning, arithmetic, addrA, ok_bind, addrB, ok_bind, addrD, ok_bind, same, ok_bind, arithmeticTail, charged]

/-- Every check passes and the operation has a result: the instruction completes with it. -/
theorem exec_arithmetic_completed {r : Nat} (family : familyOf i = f) (rule : ArithmeticRule f classCheck op)
    (cells : TwoCells s i pa pb pd t x y) (affords : Affords s i 0) (class_ok : classCheck t pa = .ok ())
    (result : op t x y = .ok r) : exec i s = .next (s.completed i 0 (writeCell s.memory pd ⟨t, r⟩)) := by
  rw [exec_arithmetic family rule cells, arithmeticTail, class_ok, chargeOf_of_affords affords, result]
  rfl

/-! ### The three faults after `CheckSame`, in their order (60_exceptions.md R346) -/

theorem exec_arithmetic_class_error {e : ErrReg} (family : familyOf i = f) (rule : ArithmeticRule f classCheck op)
    (cells : TwoCells s i pa pb pd t x y) (class_error : classCheck t pa = .error e) :
    exec i s = .next (takeFault e s) := by
  rw [exec_arithmetic family rule cells, arithmeticTail, class_error]
  rfl

theorem exec_arithmetic_outOfGas (family : familyOf i = f) (rule : ArithmeticRule f classCheck op)
    (cells : TwoCells s i pa pb pd t x y) (class_ok : classCheck t pa = .ok ())
    (short : s.l2Gas.toNat < costL2 (familyOf i) (instrFlags i) 0) :
    exec i s = .next (takeFault (kindOnly .outOfGasL2) s) := by
  have charged : chargeOf i 0 s = .error (kindOnly .outOfGasL2) := charge_error.mpr (.inl ⟨short, rfl⟩)
  rw [exec_arithmetic family rule cells, arithmeticTail, class_ok, charged]
  rfl

theorem exec_arithmetic_result_error {e : ErrReg} (family : familyOf i = f) (rule : ArithmeticRule f classCheck op)
    (cells : TwoCells s i pa pb pd t x y) (affords : Affords s i 0) (class_ok : classCheck t pa = .ok ())
    (result : op t x y = .error e) : exec i s = .next (takeFault e s) := by
  rw [exec_arithmetic family rule cells, arithmeticTail, class_ok, chargeOf_of_affords affords, result]
  rfl

end Arithmetic

/-! ## The order of the checks of a division (41_arithmetic.md R177, R179, R181, 60_exceptions.md R346) -/

/-- The check and the operation of a division family: integral tags for `DIV` and `MOD`, `FIELD` for `FDIV`, and no result
for a zero divisor. -/
structure DivisionRule (f : Family) (classCheck : Tag → Nat → Checked Unit) (op : Tag → Nat → Nat → Checked Nat) :
    Prop where
  rule : ArithmeticRule f classCheck op
  rejects (a : Nat) : f ≠ .fdiv → classCheck .field a = .error (tagError .tagMismatch a .field 0)
  requires (t : Tag) (a : Nat) : f = .fdiv → t ≠ .field →
    classCheck t a = .error (tagError .tagMismatch a t (tagCode .field))
  admits (t : Tag) (a : Nat) : (f = .fdiv ↔ t = .field) → classCheck t a = .ok ()
  zero (t : Tag) (x : Nat) : op t x 0 = .error (kindOnly .divisionByZero)

theorem exists_divisionRule {f : Family} (h : f ∈ [Family.div, .mod, .fdiv]) :
    ∃ classCheck op, DivisionRule f classCheck op := by
  have integral (g : Family) (notFdiv : g ≠ .fdiv) (t : Tag) (a : Nat) (right : g = .fdiv ↔ t = .field) :
      rejectField t a = .ok () := rejectField_ok.mpr fun isField => notFdiv (right.mpr isField)
  simp only [List.mem_cons, List.not_mem_nil, or_false] at h
  obtain rfl | rfl | rfl := h
  · exact ⟨_, _, .div, fun _ _ => rfl, nofun, integral _ nofun, fun _ _ => rfl⟩
  · exact ⟨_, _, .mod, fun _ _ => rfl, nofun, integral _ nofun, fun _ _ => rfl⟩
  · exact ⟨_, _, .fdiv, fun _ h => absurd rfl h, fun _ _ _ notField => requireField_error.mpr ⟨notField, rfl⟩,
      fun _ _ right => requireField_ok.mpr (right.mp rfl), fun _ _ => rfl⟩

/-- Settles O15: the three faults of `exec_arithmetic`, in its order. -/
theorem divisionFaultPriority : Obligations.DivisionFaultPriority := by
  intro s i pa pb pd x y t family resolved cellA cellB initialized
  have cells : TwoCells s i pa pb pd t x y := ⟨resolved, cellA, cellB, initialized⟩
  obtain ⟨classCheck, op, division⟩ := exists_divisionRule family
  refine ⟨fun notFdiv isField => ?_, fun isFdiv notField => ?_, fun right => ⟨fun short => ?_, fun affords isZero => ?_⟩⟩
  · subst isField
    exact exec_arithmetic_class_error rfl division.rule cells (division.rejects pa notFdiv)
  · exact exec_arithmetic_class_error rfl division.rule cells (division.requires t pa isFdiv notField)
  · exact exec_arithmetic_outOfGas rfl division.rule cells (division.admits t pa right) short
  · subst isZero
    exact exec_arithmetic_result_error rfl division.rule cells affords (division.admits t pa right) (division.zero t x)

/-! ## The results (41_arithmetic.md R171 to R184) -/

/-- Settles O38: the three operations accept every tag and always have a result; that of `SUB` is read off `subIn_eq`. -/
theorem addSubMulComplete : Obligations.AddSubMulComplete := by
  intro s i pa pb pd x y t wf resolved cellA cellB initialized affords
  have cells : TwoCells s i pa pb pd t x y := ⟨resolved, cellA, cellB, initialized⟩
  refine ⟨fun isAdd => ?_, fun isSub => ?_, fun isMul => ?_⟩
  · exact exec_arithmetic_completed isAdd .add cells affords rfl rfl
  · rw [← subIn_eq (wf_cell_lt wf cellA) (wf_cell_lt wf cellB)]
    exact exec_arithmetic_completed isSub .sub cells affords rfl rfl
  · exact exec_arithmetic_completed isMul .mul cells affords rfl rfl

/-- Settles O39: the quotient and the remainder are those of the division law. -/
theorem divModComplete : Obligations.DivModComplete := by
  intro s i pa pb pd x y t resolved cellA cellB initialized notField nonzero affords
  have cells : TwoCells s i pa pb pd t x y := ⟨resolved, cellA, cellB, initialized⟩
  have integral : rejectField t pa = .ok () := rejectField_ok.mpr notField
  have law : x = x / y * y + x % y := (Nat.div_add_mod' x y).symm
  have small : x % y < y := Nat.mod_lt x (Nat.pos_of_ne_zero nonzero)
  refine ⟨fun isDiv => ⟨x / y, x % y, law, small, ?_⟩, fun isMod => ⟨x / y, x % y, law, small, ?_⟩⟩
  · exact exec_arithmetic_completed isDiv .div cells affords integral (divIn_ok.mpr ⟨nonzero, rfl⟩)
  · exact exec_arithmetic_completed isMod .mod cells affords integral (modIn_ok.mpr ⟨nonzero, rfl⟩)

/-! ## Division in the field (41_arithmetic.md R181, R182) -/

theorem fieldInverse_eq (y : Nat) : fieldInverse y = y ^ (Config.fieldModulus - 2) % Config.fieldModulus :=
  powModFuel_eq _ _ _ _ (by decide)

theorem coprime_fieldModulus {y : Nat} (nonzero : y ≠ 0) (lt : y < Config.fieldModulus) :
    Config.fieldModulus.Coprime y := Nat.coprime_of_lt_prime nonzero lt fieldModulus_prime

/-- Fermat's little theorem makes the power that the model computes an inverse. -/
theorem fieldInverse_mul_modEq_one {y : Nat} (nonzero : y ≠ 0) (lt : y < Config.fieldModulus) :
    fieldInverse y * y ≡ 1 [MOD Config.fieldModulus] := by
  have exponent : Config.fieldModulus - 2 + 1 = Config.fieldModulus - 1 := rfl
  calc fieldInverse y * y
    _ ≡ y ^ (Config.fieldModulus - 2) * y [MOD Config.fieldModulus] := by
      rw [fieldInverse_eq]
      exact (Nat.mod_modEq _ _).mul_right y
    _ = y ^ (Config.fieldModulus - 1) := by rw [← Nat.pow_succ, Nat.succ_eq_add_one, exponent]
    _ ≡ 1 [MOD Config.fieldModulus] :=
      Nat.ModEq.pow_card_sub_one_eq_one fieldModulus_prime (coprime_fieldModulus nonzero lt).symm

theorem fieldQuotient_mul_mod {x y : Nat} (x_lt : x < Config.fieldModulus) (nonzero : y ≠ 0)
    (y_lt : y < Config.fieldModulus) :
    x * fieldInverse y % Config.fieldModulus * y % Config.fieldModulus = x := by
  have inverse : x * (fieldInverse y * y) ≡ x * 1 [MOD Config.fieldModulus] :=
    (fieldInverse_mul_modEq_one nonzero y_lt).mul_left x
  rw [Nat.mod_mul_mod, Nat.mul_assoc, inverse, Nat.mul_one, Nat.mod_eq_of_lt x_lt]

/-- A factor that is not 0 cancels in the field. -/
theorem eq_of_mul_mod_fieldModulus_eq {q r y : Nat} (nonzero : y ≠ 0) (y_lt : y < Config.fieldModulus)
    (q_lt : q < Config.fieldModulus) (r_lt : r < Config.fieldModulus)
    (h : q * y % Config.fieldModulus = r * y % Config.fieldModulus) : q = r :=
  (Nat.ModEq.cancel_right_of_coprime (coprime_fieldModulus nonzero y_lt) h).eq_of_lt_of_lt q_lt r_lt

/-- Settles O40: the numerator times the inverse is a quotient, and the denominator cancels, so it is the only one. -/
theorem fdivComplete : Obligations.FdivComplete := by
  intro s i pa pb pd x y wf isFdiv resolved cellA cellB nonzero affords
  have cells : TwoCells s i pa pb pd .field x y := ⟨resolved, cellA, cellB, nofun⟩
  have x_lt : x < Config.fieldModulus := wf_cell_lt wf cellA
  have y_lt : y < Config.fieldModulus := wf_cell_lt wf cellB
  have quotient := fieldQuotient_mul_mod x_lt nonzero y_lt
  have quotient_lt : x * fieldInverse y % Config.fieldModulus < Config.fieldModulus :=
    Nat.mod_lt _ fieldModulus_prime.pos
  exact ⟨_, quotient_lt, quotient,
    fun q q_lt hq => eq_of_mul_mod_fieldModulus_eq nonzero y_lt q_lt quotient_lt (hq.trans quotient.symm),
    exec_arithmetic_completed isFdiv .fdiv cells affords rfl (fdivIn_ok.mpr ⟨nonzero, rfl⟩)⟩

end Sys2Proof.Machine

/-! PROOFS of the statements of 42_conversion.md: the states in which `CAST_8`, `CAST_16` and `TORADIXBE` complete, and
what two casts, or the digits in memory, say of the value.

That a conversion completes is shown from its operands (`exec_cast_completed`, `exec_toRadixBE_of_affords`). What a
completed conversion leaves is read off the inversion lemmas `castCell_next` and `execToRadixBE_next`. -/

namespace Sys2Proof.Machine

/-! ## The casts complete (42_conversion.md R201, R202) -/

/-- Both casts are the template of R201, with two operand slots and the tag immediate. -/
theorem exec_eq_castCell {i : Instr} (isCast : familyOf i = .cast) (s : State) :
    ∃ (k : Nat) (ind : BitVec 8) (src dst : BitVec k) (code : BitVec 8),
      operands i = [(slotMode ind 0, src.toNat), (slotMode ind 1, dst.toNat)] ∧ tagField i = some code ∧
      exec i s = castCell (instrWidth i) ind src dst code s := by
  cases i with
  | cast8 | cast16 => exact ⟨_, _, _, _, _, rfl, rfl, rfl⟩
  | _ => cases isCast

theorem exec_cast_completed {s : State} {i : Instr} {ps pd : Nat} {code : BitVec 8} {t : Tag}
    (isCast : familyOf i = .cast) (resolved : resolveEach s.memory (operands i) = .ok [ps, pd])
    (immediate : tagField i = some code) (tagged : tagOfImmediate code = some t)
    (initialized : (readCell s.memory ps).tag ≠ .uninitialized) (affords : Affords s i 0) :
    exec i s = .next (s.completed i 0 (writeCell s.memory pd ⟨t, (readCell s.memory ps).value % domOf t⟩)) := by
  obtain ⟨_, ind, _, _, _, slots, field, meaning⟩ := exec_eq_castCell isCast s
  obtain ⟨_, _, addrS, addrD, addrs⟩ := slotAddr_of_resolveEach_two (slots ▸ resolved)
  cases addrs
  cases field.symm.trans immediate
  have charged : chargeFor .cast ind 2 0 s = .ok (s.chargedFor i 0) := by
    rw [← chargeOf_of_affords affords, chargeOf, instrFlags, slots, instrFlags_slots2, isCast, chargeFor]
  rw [meaning, castCell, addrS, ok_bind, addrD, ok_bind, checkTagImmediate_ok.mpr tagged, ok_bind,
    readInit_ok.mpr ⟨rfl, initialized⟩, ok_bind, charged]
  rfl

/-- Settles O41: `exec_cast_completed`, and a value below the domain is its own residue. -/
theorem castComplete : Obligations.CastComplete := by
  intro s i ps pd code t isCast resolved immediate tagged initialized affords
  have completed := exec_cast_completed isCast resolved immediate tagged initialized affords
  refine ⟨completed, fun fits => ?_⟩
  rwa [Nat.mod_eq_of_lt fits] at completed

/-! ## A cast and back (42_conversion.md R204 b) -/

theorem slotAddr_direct {k : Nat} (m : Memory) (i : Nat) (offset : BitVec k) :
    slotAddr m 0#8 i offset = .ok offset.toNat := by
  rw [slotAddr, slotMode_zero, resolveOperand_direct]

/-- What a cast between cells named directly leaves when it ends without an error. -/
theorem readCell_of_cast16_direct {s t : State} {src dst : BitVec 16} {code : BitVec 8} {tag : Tag}
    (ends : exec (.cast16 0 src dst code) s = .next t) (clean : t.err = noError)
    (tagged : tagOfImmediate code = some tag) :
    s.err = noError ∧ readCell t.memory dst.toNat = ⟨tag, (readCell s.memory src.toNat).value % domOf tag⟩ := by
  obtain ⟨ps, pd, tag', addrS, addrD, tagged', -, -, rfl⟩ | raised := castCell_next ends
  · cases (slotAddr_direct ..).symm.trans addrS
    cases (slotAddr_direct ..).symm.trans addrD
    cases tagged.symm.trans tagged'
    exact ⟨clean, readCell_writeCell_same ..⟩
  · exact absurd clean raised.err_ne_noError

/-- Settles O42: neither cast changes the value, since it is below the smaller of the two domains. -/
theorem castBackIsIdentity : Obligations.CastBackIsIdentity := by
  intro s t u src mid dst code back wide narrow wf _ toWide toNarrow found smaller there home clean
  obtain ⟨cleanMid, atDst⟩ := readCell_of_cast16_direct home clean toNarrow
  obtain ⟨-, atMid⟩ := readCell_of_cast16_direct there cleanMid toWide
  have small : (readCell s.memory src.toNat).value < domOf narrow := found ▸ wf_value_lt wf src.toNat
  rw [atDst, atMid, Nat.mod_eq_of_lt (small.trans_le smaller), Nat.mod_eq_of_lt small, ← found]

/-! ## `TORADIXBE` (42_conversion.md R203) -/

section ToRadixBE

variable {s t : State} {ind : BitVec 8} {src radix numLimbs dst : BitVec 16} {ps pr pn pd x r k : Nat}

/-- The operands of `TORADIXBE` resolve to a value, a radix, a count and a destination. -/
structure RadixCells (s : State) (i : Instr) (ps pr pn pd x r k : Nat) : Prop where
  resolved : resolveEach s.memory (operands i) = .ok [ps, pr, pn, pd]
  value : readCell s.memory ps = ⟨.field, x⟩
  radix : readCell s.memory pr = ⟨.uint32, r⟩
  count : readCell s.memory pn = ⟨.uint32, k⟩

/-- The cells that `TORADIXBE` stores are those of the rule, the most significant digit first. -/
theorem digitsBE_cells (x r k : Nat) : ((digitsBE x r k).map fun v => (⟨.uint32, v⟩ : MemCell)) =
    (List.range k).map fun j => ⟨.uint32, x / r ^ (k - 1 - j) % r⟩ := by
  rw [digitsBE_eq, List.map_map]
  rfl

/-- With its cost covered, `TORADIXBE` is the check of the radix, then that of the slice, then the store. -/
theorem exec_toRadixBE_of_affords
    (cells : RadixCells s (.toRadixBE ind src radix numLimbs dst) ps pr pn pd x r k)
    (affords : Affords s (.toRadixBE ind src radix numLimbs dst) k) :
    exec (.toRadixBE ind src radix numLimbs dst) s = atFrameBoundary s (do
      checkRadix r
      checkSlice pd k
      .ok (s.completed (.toRadixBE ind src radix numLimbs dst) k
        (writeCells s.memory pd ((List.range k).map fun j => ⟨.uint32, x / r ^ (k - 1 - j) % r⟩)))) := by
  obtain ⟨resolved, value, radixCell, count⟩ := cells
  obtain ⟨_, _, _, _, addrS, addrR, addrN, addrD, addrs⟩ := slotAddr_of_resolveEach_four resolved
  cases addrs
  have charged : chargeFor .toRadixBE ind 4 k s = .ok (s.chargedFor (.toRadixBE ind src radix numLimbs dst) k) := by
    rw [← chargeOf_of_affords affords, chargeOf, instrFlags, operands, instrFlags_slots4, familyOf, chargeFor]
  rw [exec, execToRadixBE, addrS, ok_bind, addrR, ok_bind, addrN, ok_bind, addrD, ok_bind,
    (checkTag_ok (t := .field) nofun).mpr value, ok_bind, (checkTag_ok (t := .uint32) nofun).mpr radixCell, ok_bind,
    (checkTag_ok (t := .uint32) nofun).mpr count, ok_bind, charged, ok_bind, digitsBE_cells]
  rfl

/-- What `TORADIXBE` leaves in memory when it ends without an error. -/
theorem memory_of_toRadixBE (cells : RadixCells s (.toRadixBE ind src radix numLimbs dst) ps pr pn pd x r k)
    (ends : exec (.toRadixBE ind src radix numLimbs dst) s = .next t) (clean : t.err = noError) :
    t.memory = writeCells s.memory pd ((List.range k).map fun j => ⟨.uint32, x / r ^ (k - 1 - j) % r⟩) := by
  obtain ⟨resolved, value, radixCell, count⟩ := cells
  obtain ⟨_, _, _, _, addrS, addrR, addrN, addrD, addrs⟩ := slotAddr_of_resolveEach_four resolved
  cases addrs
  obtain ⟨_, _, _, _, _, _, _, addrS', addrR', addrN', addrD', value', radixCell', count', -, -, -, rfl⟩ | raised :=
    execToRadixBE_next ends
  · cases addrS.symm.trans addrS'
    cases addrR.symm.trans addrR'
    cases addrN.symm.trans addrN'
    cases addrD.symm.trans addrD'
    cases value.symm.trans value'
    cases radixCell.symm.trans radixCell'
    cases count.symm.trans count'
    rw [← digitsBE_cells]
    rfl
  · exact absurd clean raised.err_ne_noError

end ToRadixBE

/-- Settles O43: the two checks of `exec_toRadixBE_of_affords`, in its order. -/
theorem toRadixCompletes : Obligations.ToRadixCompletes := by
  intro s ind src radix numLimbs dst ps pr pn pd x r k resolved value radixCell count affords
  rw [exec_toRadixBE_of_affords ⟨resolved, value, radixCell, count⟩ affords]
  refine ⟨fun zero => ?_, fun nonzero beyond => ?_, fun nonzero fits => ?_⟩
  · rw [checkRadix_error.mpr ⟨zero, rfl⟩]
    rfl
  · rw [(checkRadix_ok (u := ())).mpr nonzero, ok_bind, checkSlice_error.mpr ⟨beyond, rfl⟩]
    rfl
  · rw [(checkRadix_ok (u := ())).mpr nonzero, ok_bind, (checkSlice_ok (u := ())).mpr fits, ok_bind,
      atFrameBoundary_ok]

/-! ## The digits add up (42_conversion.md R204 c) -/

/-- The k low digits of a value, the least significant first, weighed by the powers of the radix. -/
theorem sum_digits_eq_mod_pow (x r k : Nat) : ∑ j ∈ Finset.range k, x / r ^ j % r * r ^ j = x % r ^ k := by
  induction k with
  | zero => rw [Finset.sum_range_zero, Nat.pow_zero, Nat.mod_one]
  | succ k ih => rw [Finset.sum_range_succ, ih, Nat.mod_pow_succ, Nat.mul_comm]

/-- Settles O44: cell j of the slice holds digit k - 1 - j, and `sum_digits_eq_mod_pow` sums them in the other order. -/
theorem toRadixDigitsAddUp : Obligations.ToRadixDigitsAddUp := by
  intro s t ind src radix numLimbs dst ps pr pn pd x r k resolved value radixCell count _ ends clean
  have memory := memory_of_toRadixBE ⟨resolved, value, radixCell, count⟩ ends clean
  have digit : ∀ j ∈ Finset.range k, (readCell t.memory (pd + j)).value = x / r ^ (k - 1 - j) % r := fun j hj => by
    rw [memory, readCell_writeCells_inside (by simpa using hj), List.getElem_map, List.getElem_range]
  calc ∑ j ∈ Finset.range k, (readCell t.memory (pd + j)).value * r ^ (k - 1 - j)
    _ = ∑ j ∈ Finset.range k, x / r ^ (k - 1 - j) % r * r ^ (k - 1 - j) :=
      Finset.sum_congr rfl fun j hj => by rw [digit j hj]
    _ = ∑ j ∈ Finset.range k, x / r ^ j % r * r ^ j := Finset.sum_range_reflect (fun j => x / r ^ j % r * r ^ j) k
    _ = x % r ^ k := sum_digits_eq_mod_pow x r k

end Sys2Proof.Machine

/-! PROOFS of the statements of 43_memory_ops.md: the states in which the forms of `SET` and `MOV` and `CALLDATACOPY`
complete, and the two faults that the statements name.

Each proof runs the template of its rule on the operands. -/

namespace Sys2Proof.Machine

/-- Phase 5 of an instruction that can pay its cost (40_step_and_gas.md R136, R147). -/
theorem chargeFor_of_affords {s : State} {i : Instr} {w n count : Nat} {d : BitVec w}
    (flags : instrFlags i = flagCount d n) (affords : Affords s i count) :
    chargeFor (familyOf i) d n count s = .ok (s.chargedFor i count) := by
  rw [Affords, flags] at affords
  rw [State.chargedFor, flags]
  exact chargeFor_of_covered affords

/-! ## `SET` (43_memory_ops.md R220 to R225) -/

/-- The five forms are the template of R220, with one operand slot and two immediates. -/
theorem exec_eq_setImmediate {i : Instr} (isSet : familyOf i = .set) (s : State) :
    ∃ (k : Nat) (ind : BitVec 8) (dst : BitVec k) (code : BitVec 8),
      operands i = [(slotMode ind 0, dst.toNat)] ∧ tagField i = some code ∧
      exec i s = setImmediate (instrWidth i) ind dst code (valueField i) s := by
  cases i with
  | set8 | set16 | set32 | set64 | set128 => exact ⟨_, _, _, _, rfl, rfl, rfl⟩
  | _ => cases isSet

/-- Settles O45: nothing after phase 3 can fail but the tag immediate and the charge. -/
theorem setCompletes : Obligations.SetCompletes := by
  intro s i pd code t isSet resolved immediate tagged affords
  obtain ⟨_, ind, _, _, slots, field, meaning⟩ := exec_eq_setImmediate isSet s
  obtain ⟨_, addrD, addrs⟩ := slotAddr_of_resolveEach (slots ▸ resolved)
  cases addrs
  cases field.symm.trans immediate
  have charged : chargeFor .set ind 1 0 s = .ok (s.chargedFor i 0) :=
    isSet ▸ chargeFor_of_affords (by rw [instrFlags, slots, instrFlags_slots1]) affords
  rw [meaning, setImmediate, addrD, ok_bind, checkTagImmediate_ok.mpr tagged, ok_bind, charged]
  rfl

/-! ## `MOV` (43_memory_ops.md R226, R227) -/

/-- Both forms are the template of R226, with two operand slots. -/
theorem exec_eq_moveCell {i : Instr} (isMov : familyOf i = .mov) (s : State) :
    ∃ (k : Nat) (ind : BitVec 8) (src dst : BitVec k),
      operands i = [(slotMode ind 0, src.toNat), (slotMode ind 1, dst.toNat)] ∧
      exec i s = moveCell (instrWidth i) ind src dst s := by
  cases i with
  | mov8 | mov16 => exact ⟨_, _, _, _, rfl, rfl⟩
  | _ => cases isMov

/-- Settles O46: after phase 3 the source is read first, and only then charged for. -/
theorem movCompletes : Obligations.MovCompletes := by
  intro s i ps pd isMov resolved
  obtain ⟨_, ind, _, _, slots, meaning⟩ := exec_eq_moveCell isMov s
  obtain ⟨_, _, addrS, addrD, addrs⟩ := slotAddr_of_resolveEach_two (slots ▸ resolved)
  cases addrs
  rw [meaning, moveCell, addrS, ok_bind, addrD, ok_bind]
  refine ⟨fun initialized affords => ?_, fun uninitialized => ?_⟩
  · have charged : chargeFor .mov ind 2 0 s = .ok (s.chargedFor i 0) :=
      isMov ▸ chargeFor_of_affords (by rw [instrFlags, slots, instrFlags_slots2]) affords
    rw [readInit_ok.mpr ⟨rfl, initialized⟩, ok_bind, charged]
    rfl
  · rw [readInit_error.mpr ⟨uninitialized, rfl⟩]
    rfl

/-! ## `CALLDATACOPY` (43_memory_ops.md R228) -/

/-- Settles O47: with the cost covered, only the check of the slice is left before the store. -/
theorem calldataCopyCompletes : Obligations.CalldataCopyCompletes := by
  intro s ind cdOffset copySize dst po pk pd o k resolved index count affords
  obtain ⟨_, _, _, addrO, addrK, addrD, addrs⟩ := slotAddr_of_resolveEach_three resolved
  cases addrs
  have charged : chargeFor .calldataCopy ind 3 k s = .ok (s.chargedFor (.calldataCopy ind cdOffset copySize dst) k) :=
    chargeFor_of_affords (i := .calldataCopy ..) (instrFlags_slots3 ..) affords
  rw [exec, execCalldataCopy, addrO, ok_bind, addrK, ok_bind, addrD, ok_bind,
    (checkTag_ok (t := .uint32) nofun).mpr index, ok_bind, (checkTag_ok (t := .uint32) nofun).mpr count, ok_bind,
    charged, ok_bind, calldataCells_eq]
  refine ⟨fun fits => ?_, fun beyond => ?_⟩
  · rw [(checkSlice_ok (u := ())).mpr fits]
    rfl
  · rw [checkSlice_error.mpr ⟨beyond, rfl⟩]
    rfl

end Sys2Proof.Machine

/-! PROOFS of the statements of 44_control_flow.md: the states in which the four instructions that set `pc` complete, the
faults that the statements name, and a call that comes straight back.

Each instruction is first run through its checks, with its cost covered or its condition read. For R255 the completed
`INTERNALCALL` and the completed `INTERNALRETURN` are read as steps, and the two steps are chained. -/

namespace Sys2Proof.Machine

/-- Phase 5 of an instruction without address operands that can pay its cost (40_step_and_gas.md R136, R147). -/
theorem chargeFlat_of_affords {s : State} {i : Instr} (slots : operands i = []) (affords : Affords s i 0) :
    chargeFlat (familyOf i) s = .ok (s.chargedFor i 0) := by
  have flags : instrFlags i = 0 := by rw [instrFlags, slots, List.map_nil, List.sum_nil]
  rw [Affords, flags] at affords
  rw [State.chargedFor, flags]
  exact chargeFlat_covered.mpr ⟨affords, rfl⟩

/-! ## `JUMP` (44_control_flow.md R251) -/

theorem exec_jump_of_affords {s : State} {target : BitVec 32} (affords : Affords s (.jump target) 0) :
    exec (.jump target) s = .next { s.chargedFor (.jump target) 0 with pc := target } := by
  have charged : chargeFlat .jump s = .ok (s.chargedFor (.jump target) 0) := chargeFlat_of_affords rfl affords
  rw [exec, execJump, charged]
  rfl

/-! ## `JUMPI` (44_control_flow.md R252) -/

section Jumpi

variable {s : State} {ind : BitVec 8} {cond : BitVec 16} {target : BitVec 32} {p v : Nat}

/-- On an integral condition, with the cost covered, the value alone decides where `JUMPI` goes. -/
theorem exec_jumpi_of_affords {t : Tag} (resolved : resolveEach s.memory (operands (.jumpi ind cond target)) = .ok [p])
    (found : readCell s.memory p = ⟨t, v⟩) (initialized : t ≠ .uninitialized) (integral : t ≠ .field)
    (affords : Affords s (.jumpi ind cond target) 0) :
    exec (.jumpi ind cond target) s = .next (if v ≠ 0
      then (s.chargedFor (.jumpi ind cond target) 0).setPc target
      else (s.chargedFor (.jumpi ind cond target) 0).advance 8) := by
  obtain ⟨_, addrC, addrs⟩ := slotAddr_of_resolveEach resolved
  cases addrs
  have charged : chargeFor .jumpi ind 1 0 s = .ok (s.chargedFor (.jumpi ind cond target) 0) :=
    chargeFor_of_affords (i := .jumpi ..) (instrFlags_slots1 ..) affords
  rw [exec, execJumpi, addrC, ok_bind, checkIntegral_ok.mpr ⟨found, initialized, integral⟩, ok_bind, charged, ok_bind,
    atFrameBoundary_ok]

/-- A `FIELD` condition raises in phase 4, whatever the gas. -/
theorem exec_jumpi_of_field (resolved : resolveEach s.memory (operands (.jumpi ind cond target)) = .ok [p])
    (found : readCell s.memory p = ⟨.field, v⟩) :
    exec (.jumpi ind cond target) s = .next (takeFault (tagError .tagMismatch p .field 0) s) := by
  obtain ⟨_, addrC, addrs⟩ := slotAddr_of_resolveEach resolved
  cases addrs
  have raised : checkIntegral s.memory p = .error (tagError .tagMismatch p .field 0) :=
    checkIntegral_error.mpr (.inr ⟨congrArg MemCell.tag found, rfl⟩)
  rw [exec, execJumpi, addrC, ok_bind, raised, error_bind, atFrameBoundary_error]

end Jumpi

/-- Settles O48: `JUMPI` on an integral cell branches on its value, and on a `FIELD` cell it raises. -/
theorem jumpsComplete : Obligations.JumpsComplete := by
  refine ⟨fun s target => exec_jump_of_affords, fun s ind cond target p v t resolved found initialized => ?_⟩
  refine ⟨fun integral affords nonzero => ?_, fun integral affords zero => ?_, ?_⟩
  · rw [exec_jumpi_of_affords resolved found initialized integral affords, if_pos nonzero, State.setPc]
  · rw [exec_jumpi_of_affords resolved found initialized integral affords, if_neg (not_not.mpr zero)]
    rfl
  · rintro rfl
    exact exec_jumpi_of_field resolved found

/-! ## `INTERNALCALL` and `INTERNALRETURN` (44_control_flow.md R253, R254) -/

section Subroutines

variable {s : State} {target : BitVec 32}

/-- With its cost covered, `INTERNALCALL` is the push, then the jump. -/
theorem exec_internalCall_of_affords (affords : Affords s (.internalCall target) 0) :
    exec (.internalCall target) s = atFrameBoundary s (do
      let st ← pushEntry ⟨s.pc, s.pc + 5⟩ s.callStack
      .ok { s.chargedFor (.internalCall target) 0 with callStack := st, pc := target }) := by
  have charged : chargeFlat .internalCall s = .ok (s.chargedFor (.internalCall target) 0) :=
    chargeFlat_of_affords rfl affords
  rw [exec, execInternalCall, charged]
  rfl

/-- With its cost covered, `INTERNALRETURN` is the pop, then the jump. -/
theorem exec_internalReturn_of_affords (affords : Affords s .internalReturn 0) :
    exec .internalReturn s = atFrameBoundary s (do
      let (e, rest) ← popEntry s.callStack
      .ok { s.chargedFor .internalReturn 0 with callStack := rest, pc := e.returnPc }) := by
  have charged : chargeFlat .internalReturn s = .ok (s.chargedFor .internalReturn 0) :=
    chargeFlat_of_affords rfl affords
  rw [exec, execInternalReturn, charged]
  rfl

theorem exec_internalCall_completed (affords : Affords s (.internalCall target) 0) (room : s.callStack.length < 1024) :
    exec (.internalCall target) s = .next { s.chargedFor (.internalCall target) 0 with
      callStack := ⟨s.pc, s.pc + 5⟩ :: s.callStack, pc := target } := by
  rw [exec_internalCall_of_affords affords, pushEntry_ok.mpr ⟨room, rfl⟩, ok_bind, atFrameBoundary_ok]

theorem exec_internalReturn_completed {e : CallEntry} {rest : List CallEntry} (affords : Affords s .internalReturn 0)
    (top : s.callStack = e :: rest) :
    exec .internalReturn s = .next { s.chargedFor .internalReturn 0 with callStack := rest, pc := e.returnPc } := by
  rw [exec_internalReturn_of_affords affords, popEntry_ok.mpr top, ok_bind, atFrameBoundary_ok]

end Subroutines

/-- Settles O49: the push answers or raises by the depth of the stack, and the pop by whether the stack has an entry. -/
theorem subroutinesComplete : Obligations.SubroutinesComplete := by
  refine fun s => ⟨fun target => exec_internalCall_completed, fun target affords full => ?_,
    fun e rest => exec_internalReturn_completed, fun affords empty => ?_⟩
  · rw [exec_internalCall_of_affords affords, pushEntry_error.mpr ⟨full, rfl⟩]
    rfl
  · rw [exec_internalReturn_of_affords affords, popEntry_error.mpr ⟨empty, rfl⟩]
    rfl

/-! ## A call that comes straight back (44_control_flow.md R255) -/

section Steps

variable {s : State} {target : BitVec 32}

/-- Both instructions that use the stack cost 6 L2 gas and no DA gas (40_step_and_gas.md R150). -/
theorem affords_of_usesStack {i : Instr} (stack : usesStack i = true) (gas : 6 ≤ s.l2Gas.toNat) : Affords s i 0 := by
  cases i with
  | internalCall | internalReturn => exact ⟨gas, Nat.zero_le _⟩
  | _ => cases stack

theorem chargedFor_of_usesStack {i : Instr} (stack : usesStack i = true) :
    s.chargedFor i 0 = { s with l2Gas := s.l2Gas - 6 } := by
  cases i with
  | internalCall | internalReturn => exact congrArg (s.setGas (s.l2Gas - 6)) (sub_zero_charge s.daGas)
  | _ => cases stack

theorem step_internalCall (running : s.halted = false) (fetched : fetch s = some (.internalCall target))
    (gas : 6 ≤ s.l2Gas.toNat) (room : s.callStack.length < 1024) :
    step s = .next { s with
      l2Gas := s.l2Gas - 6, callStack := ⟨s.pc, s.pc + 5⟩ :: s.callStack, pc := target } := by
  rw [step_of_fetch running fetched, exec_internalCall_completed (affords_of_usesStack rfl gas) room,
    chargedFor_of_usesStack rfl]

theorem step_internalReturn {e : CallEntry} {rest : List CallEntry} (running : s.halted = false)
    (fetched : fetch s = some .internalReturn) (gas : 6 ≤ s.l2Gas.toNat) (top : s.callStack = e :: rest) :
    step s = .next { s with l2Gas := s.l2Gas - 6, callStack := rest, pc := e.returnPc } := by
  rw [step_of_fetch running fetched, exec_internalReturn_completed (affords_of_usesStack rfl gas) top,
    chargedFor_of_usesStack rfl]

end Steps

/-- Settles O50: the call leaves its own entry on top, which the return pops, and each pays 6 of the 12 L2 gas. -/
theorem callReturnPairing : Obligations.CallReturnPairing := by
  intro s target running atCall atReturn room gas
  have left : 6 ≤ (s.l2Gas - 6).toNat := by bv_omega
  have both : s.l2Gas - 6 - 6 = s.l2Gas - 12 := by bv_omega
  calc runFor 2 s
    _ = runFor 1 { s with
        l2Gas := s.l2Gas - 6, callStack := ⟨s.pc, s.pc + 5⟩ :: s.callStack, pc := target } :=
      runFor_next (step_internalCall running atCall (by omega) room)
    _ = runFor 0 { s with l2Gas := s.l2Gas - 6 - 6, pc := s.pc + 5 } :=
      runFor_next (step_internalReturn (e := ⟨s.pc, s.pc + 5⟩) running atReturn left rfl)
    _ = .next { s with pc := s.pc + 5, l2Gas := s.l2Gas - 12 } := by rw [runFor_zero, both]

end Sys2Proof.Machine

/-! PROOFS of the statements of 45_environment_host.md on the host's ports: the states in which `SLOAD`, `SSTORE`, the
oracles and `CALL` complete, a stored value that is loaded again, and what a step asks of the host.

The answer of a port is fixed first: by the journal, by what is scripted, or not at all. An instruction then completes
with the answer that its port gives, whichever it is, and each clause of a statement is one answer. -/

namespace Sys2Proof.Machine

/-! ## The host's answers (45_environment_host.md R270 to R273) -/

section Answers

variable {contract slot v : FieldElem} {h : HostSide}

theorem journalValue_cons_same {w : StorageWrite} {j : List StorageWrite} (sameContract : w.contract = contract)
    (sameSlot : w.slot = slot) : journalValue contract slot (w :: j) = some w.value :=
  if_pos ⟨sameContract, sameSlot⟩

theorem journalValue_cons_other {w : StorageWrite} {j : List StorageWrite}
    (other : w.contract ≠ contract ∨ w.slot ≠ slot) :
    journalValue contract slot (w :: j) = journalValue contract slot j :=
  if_neg (not_and_or.mpr other)

theorem storageRead_of_written (written : journalValue contract slot h.journal = some v) :
    storageRead contract slot h = (v, issue (.storageRead contract slot) h) := by
  rw [storageRead, written]

theorem storageRead_of_scripted {rest : List FieldElem} (unwritten : journalValue contract slot h.journal = none)
    (scripted : h.storageAnswers = v :: rest) :
    storageRead contract slot h = (v, { issue (.storageRead contract slot) h with storageAnswers := rest }) := by
  rw [storageRead, unwritten, scripted]

theorem storageRead_of_unscripted (unwritten : journalValue contract slot h.journal = none)
    (unscripted : h.storageAnswers = []) :
    storageRead contract slot h =
      (freeFieldElem h.draws, { issue (.storageRead contract slot) h with draws := h.draws + 1 }) := by
  rw [storageRead, unwritten, unscripted]

theorem askOracle_of_scripted {o : Oracle} {key : FieldElem} {a : Bool × FieldElem} {rest : List (Bool × FieldElem)}
    (scripted : oracleAnswers o h = a :: rest) :
    askOracle o key h = (a, setOracleAnswers o rest (issue (.membership o key) h)) := by
  rw [askOracle, scripted]

theorem askOracle_of_unscripted {o : Oracle} {key : FieldElem} (unscripted : oracleAnswers o h = []) :
    askOracle o key h = ((Config.freeBool h.draws, freeFieldElem h.draws),
      { issue (.membership o key) h with draws := h.draws + 1 }) := by
  rw [askOracle, unscripted]

end Answers

/-! ## `SLOAD` (45_environment_host.md R285) -/

/-- On a `FIELD` slot, with the cost covered, `SLOAD` stores whatever the host answers. -/
theorem exec_sload_completed {s : State} {ind : BitVec 8} {slot dst : BitVec 16} {pk pd : Nat} {k v : FieldElem}
    {h : HostSide} (resolved : resolveEach s.memory (operands (.sload ind slot dst)) = .ok [pk, pd])
    (slotCell : readCell s.memory pk = ⟨.field, k.val⟩) (affords : Affords s (.sload ind slot dst) 0)
    (answer : storageRead s.env.storageAddress k s.host = (v, h)) :
    exec (.sload ind slot dst) s = .next { s.completed (.sload ind slot dst) 0
      (writeCell s.memory pd ⟨.field, v.val⟩) with host := h } := by
  obtain ⟨_, _, addrK, addrD, addrs⟩ := slotAddr_of_resolveEach_two resolved
  cases addrs
  have charged : chargeFor .sload ind 2 0 s = .ok (s.chargedFor (.sload ind slot dst) 0) :=
    chargeFor_of_affords (i := .sload ..) (instrFlags_slots2 ..) affords
  rw [exec, execSload, addrK, ok_bind, addrD, ok_bind, (checkTag_ok (t := .field) nofun).mpr slotCell, ok_bind, charged,
    ok_bind, fieldOfNat_val, answer]
  rfl

/-- Settles O52: one clause for each source of the host's answer. -/
theorem sloadCompletes : Obligations.SloadCompletes := by
  intro s ind slot dst pk pd k resolved slotCell affords asked loads
  have completed {v : FieldElem} {h : HostSide} (answer : storageRead s.env.storageAddress k s.host = (v, h)) :
      loads v h := exec_sload_completed resolved slotCell affords answer
  exact ⟨fun _ written => completed (storageRead_of_written written), fun unwritten =>
    ⟨fun _ _ scripted => completed (storageRead_of_scripted unwritten scripted),
      fun unscripted => ⟨_, completed (storageRead_of_unscripted unwritten unscripted)⟩⟩⟩

/-! ## `SSTORE` (45_environment_host.md R286) -/

/-- On two `FIELD` cells, with the cost covered, `SSTORE` hands the write to the host. -/
theorem exec_sstore_completed {s : State} {ind : BitVec 8} {src slot : BitVec 16} {pv pk : Nat} {v k : FieldElem}
    (resolved : resolveEach s.memory (operands (.sstore ind src slot)) = .ok [pv, pk])
    (valueCell : readCell s.memory pv = ⟨.field, v.val⟩) (slotCell : readCell s.memory pk = ⟨.field, k.val⟩)
    (affords : Affords s (.sstore ind src slot) 0) :
    exec (.sstore ind src slot) s = .next { s.completed (.sstore ind src slot) 0 s.memory with
      host := storageWrite s.env.storageAddress k v s.host } := by
  obtain ⟨_, _, addrV, addrK, addrs⟩ := slotAddr_of_resolveEach_two resolved
  cases addrs
  have charged : chargeFor .sstore ind 2 0 s = .ok (s.chargedFor (.sstore ind src slot) 0) :=
    chargeFor_of_affords (i := .sstore ..) (instrFlags_slots2 ..) affords
  rw [exec, execSstore, addrV, ok_bind, addrK, ok_bind, (checkTag_ok (t := .field) nofun).mpr valueCell, ok_bind,
    (checkTag_ok (t := .field) nofun).mpr slotCell, ok_bind, charged, ok_bind, fieldOfNat_val, fieldOfNat_val]
  rfl

/-- R150: the addressing modes and the runtime count cost no DA gas. -/
theorem costDA_sstore (flags count : Nat) : costDA .sstore flags count = 32 := by
  simp [costDA, baseDA, addrPenaltyDA, dynDA]

/-- Settles O53: the journal is searched from its latest write on, and `SSTORE` puts its write there. -/
theorem sstoreCompletes : Obligations.SstoreCompletes := by
  refine ⟨fun _ _ _ _ => ⟨rfl, journalValue_cons_same, journalValue_cons_other⟩, ?_⟩
  intro s ind src slot pv pk v k resolved valueCell slotCell affords
  have paid := chargedFor_daGas_toNat affords
  exact ⟨exec_sstore_completed resolved valueCell slotCell affords, by rwa [familyOf, costDA_sstore] at paid⟩

/-! ## A stored value is loaded again (45_environment_host.md R287 a) -/

section StoreThenLoad

variable {s t u : State} {k v : FieldElem} {pv pk pd : Nat}

theorem exec_of_step {i : Instr} (fetched : fetch s = some i) (h : step s = .next t) : exec i s = .next t := by
  rw [← h, step_of_fetch (step_next h).1 fetched]

/-- An instruction that ends without an error has paid its cost. -/
theorem affords_of_noError {i : Instr} {count : Nat} (size : sizeCount s.memory i = .ok count) (h : exec i s = .next t)
    (clean : t.err = noError) : Affords s i count := by
  obtain raised | effects := exec_effects h
  · exact absurd clean raised.err_ne_noError
  · obtain ⟨_, size', affords, -⟩ := effects.count
    cases size.symm.trans size'
    exact affords

theorem journal_of_sstore {ind : BitVec 8} {src slot : BitVec 16}
    (resolved : resolveEach s.memory (operands (.sstore ind src slot)) = .ok [pv, pk])
    (valueCell : readCell s.memory pv = ⟨.field, v.val⟩) (slotCell : readCell s.memory pk = ⟨.field, k.val⟩)
    (h : exec (.sstore ind src slot) s = .next t) (clean : t.err = noError) :
    t.env = s.env ∧ t.host.journal = ⟨s.env.storageAddress, k, v⟩ :: s.host.journal := by
  cases (exec_sstore_completed resolved valueCell slotCell (affords_of_noError rfl h clean)).symm.trans h
  exact ⟨rfl, rfl⟩

theorem readCell_of_sload {ind : BitVec 8} {slot dst : BitVec 16}
    (resolved : resolveEach s.memory (operands (.sload ind slot dst)) = .ok [pk, pd])
    (slotCell : readCell s.memory pk = ⟨.field, k.val⟩)
    (written : journalValue s.env.storageAddress k s.host.journal = some v)
    (h : exec (.sload ind slot dst) s = .next t) (clean : t.err = noError) :
    readCell t.memory pd = ⟨.field, v.val⟩ := by
  cases (exec_sload_completed resolved slotCell (affords_of_noError rfl h clean)
    (storageRead_of_written written)).symm.trans h
  exact readCell_writeCell_same s.memory pd ⟨.field, v.val⟩

theorem QuietRun.running (h : QuietRun k s t) (running : t.halted = false) : s.halted = false := by
  cases h with
  | done => exact running
  | more _ _ _ _ running => exact running

/-- A quiet run that ends running has taken no fault, so nothing emptied the journal; and no step of it wrote the slot. -/
theorem QuietRun.journalValue_eq (h : QuietRun k s t) (running : t.halted = false) :
    t.env = s.env ∧ journalValue s.env.storageAddress k t.host.journal =
      journalValue s.env.storageAddress k s.host.journal := by
  induction h with
  | done => exact ⟨rfl, rfl⟩
  | more s u t i _ fetched quiet stepped rest ih =>
    obtain ⟨env, value⟩ := ih running
    have stillRunning : u.halted = false := rest.running running
    obtain ⟨_, same, effects⟩ := effects_of_step_running stepped stillRunning
    cases fetched.symm.trans same
    have goesOn : endsFrame i = false :=
      Bool.eq_false_iff.mpr fun ends => by simp [effects.halted_of_endsFrame ends] at stillRunning
    obtain ⟨-, -, firstEnv, -⟩ := effects.inputs
    exact ⟨env.trans firstEnv, (firstEnv ▸ value).trans (effects.journal k quiet goesOn)⟩

end StoreThenLoad

/-- Settles O54: the store puts the value in front of the journal, the quiet run keeps what the journal holds for the slot,
and the load answers it. -/
theorem storedValueIsLoaded : Obligations.StoredValueIsLoaded := by
  intro s t u w ind ind' src slot slot' dst pv pk pk' pd v k _ atStore stored storeClean resolved valueCell slotCell run
    atLoad loaded loadClean resolved' slotCell'
  obtain ⟨storeEnv, journal⟩ :=
    journal_of_sstore resolved valueCell slotCell (exec_of_step atStore stored) storeClean
  obtain ⟨runEnv, kept⟩ := run.journalValue_eq (step_next loaded).1
  have written : journalValue u.env.storageAddress k u.host.journal = some v := by
    rw [runEnv, kept, storeEnv, journal]
    exact journalValue_cons_same rfl rfl
  exact readCell_of_sload resolved' slotCell' written (exec_of_step atLoad loaded) loadClean

/-! ## The existence oracles (45_environment_host.md R289 to R292) -/

/-- The three are the template of R289, with three operand slots and an oracle each. -/
theorem exec_eq_membershipQuery {i : Instr} {o : Oracle} (oracle : oracleOf i = some o) (s : State) :
    ∃ (ind : BitVec 8) (key existsDst valueDst : BitVec 16),
      operands i = [(slotMode ind 0, key.toNat), (slotMode ind 1, existsDst.toNat), (slotMode ind 2, valueDst.toNat)] ∧
      instrWidth i = 8 ∧ exec i s = membershipQuery (familyOf i) o ind key existsDst valueDst s := by
  cases i with
  | noteHashExists | nullifierExists | l1ToL2MsgExists =>
    cases oracle
    exact ⟨_, _, _, _, rfl, rfl, rfl⟩
  | _ => cases oracle

/-- On a `FIELD` key, with the cost covered, both parts of the oracle's answer are stored, the value second. -/
theorem exec_oracle_completed {s : State} {i : Instr} {o : Oracle} {pk pe pv : Nat} {k : FieldElem}
    {a : Bool × FieldElem} {h : HostSide} (oracle : oracleOf i = some o)
    (resolved : resolveEach s.memory (operands i) = .ok [pk, pe, pv])
    (keyCell : readCell s.memory pk = ⟨.field, k.val⟩) (affords : Affords s i 0)
    (answer : askOracle o k s.host = (a, h)) :
    exec i s = .next { s.completed i 0
      (writeCell (writeCell s.memory pe (boolCell a.1)) pv ⟨.field, a.2.val⟩) with host := h } := by
  obtain ⟨ind, _, _, _, slots, width, meaning⟩ := exec_eq_membershipQuery oracle s
  obtain ⟨_, _, _, addrK, addrE, addrV, addrs⟩ := slotAddr_of_resolveEach_three (slots ▸ resolved)
  cases addrs
  have charged : chargeFor (familyOf i) ind 3 0 s = .ok (s.chargedFor i 0) :=
    chargeFor_of_affords (by rw [instrFlags, slots, instrFlags_slots3]) affords
  rw [meaning, membershipQuery, addrK, ok_bind, addrE, ok_bind, addrV, ok_bind,
    (checkTag_ok (t := .field) nofun).mpr keyCell, ok_bind, charged, ok_bind, fieldOfNat_val, answer, State.completed,
    width]
  rfl

/-- Settles O55: each oracle has its own list of scripted answers, and a free answer is a pair like any other. -/
theorem oraclesComplete : Obligations.OraclesComplete := by
  intro s i o pk pe pv k oracle resolved keyCell affords asked answers
  have completed {a : Bool × FieldElem} {h : HostSide} (answer : askOracle o k s.host = (a, h)) : answers a h :=
    exec_oracle_completed oracle resolved keyCell affords answer
  refine ⟨fun a rest => ⟨?_, ?_, ?_⟩, fun unscripted => ⟨_, completed (askOracle_of_unscripted unscripted)⟩⟩
  all_goals
    rintro rfl scripted
    exact completed (askOracle_of_scripted scripted)

/-! ## `CALL` (45_environment_host.md R300) -/

section Call

variable {s : State} {d l2Gas daGas addr args argsSize ret success retSize : BitVec 16}
  {pl pd pc pa pn pr po gl gd n : Nat} {c : FieldElem}

/-- The offer of R300: what is asked for, or what the cost leaves. -/
theorem clampOffer_charged {g : Word64} {cost : Nat} (covered : cost ≤ g.toNat) (asked : Nat) :
    clampOffer asked (g - BitVec.ofNat 64 cost) = BitVec.ofNat 64 (min asked (g.toNat - cost)) := by
  rw [clampOffer, sub_charge_toNat covered]

/-- Phases 3 to 5 of `CALL` pass, and so do the checks of its phase 6. -/
structure CallPasses (s : State) (i : Instr) (retSize : BitVec 16) (pl pd pc pa pn pr po gl gd n : Nat)
    (c : FieldElem) : Prop where
  resolved : resolveEach s.memory (operands i) = .ok [pl, pd, pc, pa, pn, pr, po]
  l2Cell : readCell s.memory pl = ⟨.uint64, gl⟩
  daCell : readCell s.memory pd = ⟨.uint64, gd⟩
  addrCell : readCell s.memory pc = ⟨.field, c.val⟩
  sizeCell : readCell s.memory pn = ⟨.uint32, n⟩
  affords : Affords s i n
  argsFit : pa + n ≤ 2 ^ 32
  retFits : pr + retSize.toNat ≤ 2 ^ 32
  initialized : ∀ j < n, (readCell s.memory (pa + j)).tag ≠ .uninitialized

/-- The request that `CALL` then has ready. -/
def passedRequest (s : State) (i : Instr) (pa pr po gl gd n : Nat) (c : FieldElem) : CallRequest where
  contract := c
  args := (List.range n).map fun j => fieldOfNat (readCell s.memory (pa + j)).value
  l2Offer := BitVec.ofNat 64 (min gl (s.l2Gas.toNat - costL2 .call (instrFlags i) n))
  daOffer := BitVec.ofNat 64 (min gd (s.daGas.toNat - costDA .call (instrFlags i) n))
  retAddr := pr
  successAddr := po
  charged := s.chargedFor i n

theorem CallPasses.callRequest
    (h : CallPasses s (.call d l2Gas daGas addr args argsSize ret success retSize) retSize pl pd pc pa pn pr po gl gd n
      c) :
    callRequest d l2Gas daGas addr args argsSize ret success retSize s =
      .ok (passedRequest s (.call d l2Gas daGas addr args argsSize ret success retSize) pa pr po gl gd n c) := by
  obtain ⟨_, _, _, _, _, _, _, same, request⟩ := callRequest_of_resolved h.resolved
  cases same
  have charged : chargeFor .call d 7 n s =
      .ok (s.chargedFor (.call d l2Gas daGas addr args argsSize ret success retSize) n) :=
    chargeFor_of_affords (i := .call ..) (instrFlags_slots7 ..) h.affords
  rw [request, callRequestAt, (checkTag_ok (t := .uint64) nofun).mpr h.l2Cell, ok_bind,
    (checkTag_ok (t := .uint64) nofun).mpr h.daCell, ok_bind, (checkTag_ok (t := .field) nofun).mpr h.addrCell, ok_bind,
    (checkTag_ok (t := .uint32) nofun).mpr h.sizeCell, ok_bind, charged, ok_bind,
    (checkSlice_ok (u := ())).mpr h.argsFit, ok_bind, (checkSlice_ok (u := ())).mpr h.retFits, ok_bind,
    readSlice_of_initialized h.initialized, ok_bind, List.map_map, fieldOfNat_val, State.chargedFor_l2Gas,
    State.chargedFor_daGas, clampOffer_charged h.affords.l2, clampOffer_charged h.affords.da]
  rfl

theorem execCall_of_ready {q : CallRequest} {a : CallAnswer} {host : HostSide}
    (ready : callRequest d l2Gas daGas addr args argsSize ret success retSize s = .ok q)
    (answer : nestedCall q.contract q.args q.l2Offer q.daOffer s.host = (a, host))
    (admitted : callAnswerOk a q.l2Offer q.daOffer = true) :
    execCall d l2Gas daGas addr args argsSize ret success retSize s = .next (finishCall q retSize.toNat a host) := by
  rw [execCall, ready]
  simp only [answer, admitted, if_true]

end Call

theorem offer_toNat (asked cost : Nat) (g : Word64) :
    (BitVec.ofNat 64 (min asked (g.toNat - cost))).toNat = min asked (g.toNat - cost) := by
  have bound := g.isLt
  rw [BitVec.toNat_ofNat, Nat.mod_eq_of_lt (by omega)]

/-- R273 c: the child used no more gas than it was offered, and its output has a length. -/
theorem callAnswerOk_iff {a : CallAnswer} {l2 da : Word64} : callAnswerOk a l2 da = true ↔
    a.l2Used.toNat ≤ l2.toNat ∧ a.daUsed.toNat ≤ da.toNat ∧ a.output.length ≤ Config.maxLength := by
  simp [callAnswerOk, and_assoc]

/-- Settles O56: the request is ready, so `CALL` finishes on the run that is scripted next, or on a free one. -/
theorem callCompletes : Obligations.CallCompletes := by
  intro s d l2Gas daGas addr args argsSize ret success retSize pl pd pc pa pn pr po gl gd n c r rest a i l2Offer daOffer
    values out resolved l2Cell daCell addrCell sizeCell affords argsFit retFits initialized
  have passes : CallPasses s i retSize pl pd pc pa pn pr po gl gd n c :=
    ⟨resolved, l2Cell, daCell, addrCell, sizeCell, affords, argsFit, retFits, initialized⟩
  obtain ⟨run, runs, scripted, answer⟩ | ⟨unscripted, answer⟩ :=
    nestedCall_cases c values (BitVec.ofNat 64 l2Offer) (BitVec.ofNat 64 daOffer) s.host
  · refine ⟨fun next l2Used daUsed outputLength => ?_, fun none => absurd (scripted.symm.trans none) nofun⟩
    cases scripted.symm.trans next
    have admitted : callAnswerOk a (BitVec.ofNat 64 l2Offer) (BitVec.ofNat 64 daOffer) = true :=
      callAnswerOk_iff.mpr ⟨by rwa [offer_toNat], by rwa [offer_toNat], outputLength⟩
    refine (execCall_of_ready passes.callRequest answer admitted).trans ?_
    rw [finishCall, outputCells_eq]
    rfl
  · exact ⟨fun next => absurd (unscripted.symm.trans next) nofun, fun _ =>
      ⟨_, execCall_of_ready passes.callRequest answer (freeCallAnswer_ok ..), rfl, rfl, rfl⟩⟩

/-! ## What a step asks of the host (45_environment_host.md R271, R274 d) -/

/-- Of the instructions that complete, `REVERT` alone leaves the frame reverted. -/
theorem Effects.reverted_of_not_revert {i : Instr} {s t : State} (h : Effects i s t)
    (notRevert : ∀ ind ret size, i ≠ .revert ind ret size) (before : s.reverted = false) : t.reverted = false := by
  cases ends : endsFrame i with
  | true =>
    obtain isRet | ⟨ind, ret, size, isRevert⟩ := endsFrame_iff.mp ends
    · exact (h.ret isRet).2
    · exact absurd isRevert (notRevert ind ret size)
  | false =>
    obtain ⟨-, reverted, -⟩ := h.status ends
    exact reverted.trans before

/-- R274 d: a step leaves the frame reverted and rolls back, or leaves it not reverted and issues at most one request. -/
theorem step_requests {s t : State} (status : StatusOk s) (h : step s = .next t) :
    (t.reverted = true ∧ t.host = rollback s.host) ∨ (t.reverted = false ∧
      ∃ l : List HostRequest, l.length ≤ 1 ∧ t.host.requests = s.host.requests ++ l ∧ l ≠ [.rollback]) := by
  obtain ⟨running, ⟨e, -, rfl⟩ | ⟨i, -, effects⟩⟩ := step_cases h
  · exact .inl ⟨rfl, rfl⟩
  · by_cases isRevert : ∃ ind ret size, i = .revert ind ret size
    · exact .inl (effects.rev isRevert).2
    · have notRevert : ∀ ind ret size, i ≠ .revert ind ret size := by simpa using isRevert
      obtain ⟨l, short, requests, notRollback⟩ := effects.reqs
      exact .inr ⟨effects.reverted_of_not_revert notRevert (status.running running).1, l, short, requests,
        notRollback notRevert⟩

/-- Settles O59: one clause for each of the two outcomes of `step_requests`. -/
theorem oneRequestPerStep : Obligations.OneRequestPerStep := by
  intro s t status h
  obtain ⟨reverted, host⟩ | ⟨kept, l, short, requests, notRollback⟩ := step_requests status h
  · rw [reverted, host]
    exact ⟨⟨[.rollback], Nat.le_refl 1, rfl⟩, fun _ => ⟨rfl, rfl⟩, nofun⟩
  · rw [kept, requests]
    exact ⟨⟨l, short, rfl⟩, nofun, fun _ same => notRollback (List.append_cancel_left same)⟩

end Sys2Proof.Machine

/-! PROOFS of the statements of 46_halt.md: how a frame halts, what `RETURN` and `REVERT` answer, and what the result port
gives.

`RETURN` and `REVERT` differ only in how they end the frame. So both are run through `haltOutput` once, and a clause of
R310 and R311 is an outcome of the two checks that `haltOutput` has left after its charge. -/

namespace Sys2Proof.Machine

/-! ## The four engine states (10_state.md R25) -/

section EngineStates

variable {s : State}

theorem engineState_of_return (halted : s.halted = true) (notReverted : s.reverted = false) :
    engineState s = .haltedReturn := by
  simp [engineState, halted, notReverted]

theorem engineState_of_revert (halted : s.halted = true) (reverted : s.reverted = true) (noKind : s.err.kind = .none) :
    engineState s = .haltedRevert := by
  simp [engineState, halted, reverted, noKind]

theorem engineState_of_fault (halted : s.halted = true) (reverted : s.reverted = true) (error : s.err.kind ≠ .none) :
    engineState s = .faulted s.err.kind := by
  simp [engineState, halted, reverted, error]

end EngineStates

/-- A completed instruction that leaves a running frame halted is one of those that end a frame. -/
theorem Effects.endsFrame_of_halted {i : Instr} {s t : State} (h : Effects i s t) (running : s.halted = false)
    (halted : t.halted = true) : endsFrame i = true := by
  by_contra goesOn
  obtain ⟨same, -, -⟩ := h.status (Bool.eq_false_of_not_eq_true goesOn)
  exact Bool.false_ne_true (running.symm.trans (same.symm.trans halted))

/-- Settles O10: a step that raises faults the frame, and one that completes and halts the frame ran `RETURN` or `REVERT`,
which leave the error register of a running frame. -/
theorem threeWaysToHalt : Obligations.ThreeWaysToHalt := by
  intro s t status h halted
  obtain ⟨running, ⟨e, runtime, rfl⟩ | ⟨i, fetched, effects⟩⟩ := step_cases h
  · exact .inr (.inr ⟨engineState_of_fault rfl rfl runtime.isError, runtime.isError⟩)
  · obtain ⟨ind, ret, size, rfl⟩ | ⟨ind, ret, size, rfl⟩ :=
      endsFrame_iff.mp (effects.endsFrame_of_halted running halted)
    · obtain ⟨-, notReverted⟩ := effects.ret ⟨_, _, _, rfl⟩
      exact .inl ⟨engineState_of_return halted notReverted, ind, ret, size, fetched⟩
    · obtain ⟨-, reverted, -⟩ := effects.rev ⟨_, _, _, rfl⟩
      obtain ⟨-, noErr, -⟩ := status.running running
      have noKind : t.err.kind = .none := congrArg ErrReg.kind (effects.err.trans noErr)
      exact .inr (.inl ⟨engineState_of_revert halted reverted noKind, ind, ret, size, fetched⟩)

/-! ## `RETURN` and `REVERT` (46_halt.md R310, R311) -/

section Halting

variable {s : State} {i : Instr} {ind : BitVec 8} {ret size : BitVec 16} {pr pz n : Nat}

/-- Phases 3 to 5 of `RETURN` or `REVERT` pass. -/
structure HaltPasses (s : State) (i : Instr) (ind : BitVec 8) (ret size : BitVec 16) (pr pz n : Nat) : Prop where
  halting : i ∈ [Instr.ret ind ret size, .revert ind ret size]
  resolved : resolveEach s.memory (operands (.ret ind ret size)) = .ok [pr, pz]
  sizeCell : readCell s.memory pz = ⟨.uint32, n⟩
  affords : Affords s i n

/-- What is then left is to check the slice and to read it. -/
theorem HaltPasses.haltOutput_eq (h : HaltPasses s i ind ret size pr pz n) :
    haltOutput (familyOf i) ind ret size s = (checkSlice pr n >>= fun _ => readSlice s.memory pr n >>= fun values =>
      .ok (s.chargedFor i n, values.map fieldOfNat)) := by
  obtain ⟨halting, resolved, sizeCell, affords⟩ := h
  obtain ⟨_, _, addrR, addrZ, addrs⟩ := slotAddr_of_resolveEach_two resolved
  cases addrs
  have flags : instrFlags i = flagCount ind 2 := by
    obtain rfl | rfl := List.mem_pair.mp halting <;> exact instrFlags_slots2 ..
  rw [haltOutput, addrR, ok_bind, addrZ, ok_bind, (checkTag_ok (t := .uint32) nofun).mpr sizeCell, ok_bind,
    chargeFor_of_affords flags affords, ok_bind]

/-- The output buffer of R310 holds the values of the slice, which are field elements already. -/
theorem output_eq_slice_values {m : Memory} {out : List FieldElem} (length : out.length = n)
    (values : ∀ (j : Nat) (h : j < out.length), out[j].val = (readCell m (pr + j)).value) :
    out = ((List.range n).map fun j => (readCell m (pr + j)).value).map fieldOfNat := by
  refine List.ext_getElem (by simp [length]) fun j inOut _ => ?_
  simp [← values j inOut, fieldOfNat_val]

theorem HaltPasses.haltOutput_completed {out : List FieldElem} (h : HaltPasses s i ind ret size pr pz n)
    (fits : pr + n ≤ 2 ^ 32) (initialized : ∀ j < n, (readCell s.memory (pr + j)).tag ≠ .uninitialized)
    (length : out.length = n)
    (values : ∀ (j : Nat) (h : j < out.length), out[j].val = (readCell s.memory (pr + j)).value) :
    haltOutput (familyOf i) ind ret size s = .ok (s.chargedFor i n, out) := by
  rw [h.haltOutput_eq, (checkSlice_ok (u := ())).mpr fits, ok_bind, readSlice_of_initialized initialized, ok_bind,
    ← output_eq_slice_values length values]

/-- Whatever they do with the output, both instructions begin with `haltOutput`. -/
theorem exec_eq_haltOutput (halting : i ∈ [Instr.ret ind ret size, .revert ind ret size]) (s : State) :
    ∃ finish, exec i s = atFrameBoundary s (haltOutput (familyOf i) ind ret size s >>= finish) := by
  obtain rfl | rfl := List.mem_pair.mp halting
  · exact ⟨_, rfl⟩
  · exact ⟨_, rfl⟩

theorem exec_of_haltOutput_error {e : ErrReg} (halting : i ∈ [Instr.ret ind ret size, .revert ind ret size])
    (raised : haltOutput (familyOf i) ind ret size s = .error e) : exec i s = .next (takeFault e s) := by
  obtain ⟨finish, meaning⟩ := exec_eq_haltOutput halting s
  rw [meaning, raised, error_bind, atFrameBoundary_error]

theorem exec_ret_of_haltOutput {u : State} {out : List FieldElem}
    (output : haltOutput .ret ind ret size s = .ok (u, out)) :
    exec (.ret ind ret size) s = .next ((u.halt false out).advance 6) := by
  rw [exec, execRet, output]
  rfl

theorem exec_revert_of_haltOutput {u : State} {out : List FieldElem}
    (output : haltOutput .revert ind ret size s = .ok (u, out)) :
    exec (.revert ind ret size) s = .next (((u.halt true out).setHost (rollback s.host)).advance 6) := by
  rw [exec, execRevert, output]
  rfl

end Halting

/-- Settles O58: the two instructions complete on the output that the slice gives, and fault for a slice that does not fit or
that has a cell which is not initialised. -/
theorem returnRevertComplete : Obligations.ReturnRevertComplete := by
  intro s ind ret size pr pz n resolved sizeCell
  have passes (i : Instr) (halting : i ∈ [Instr.ret ind ret size, .revert ind ret size]) (affords : Affords s i n) :
      HaltPasses s i ind ret size pr pz n := ⟨halting, resolved, sizeCell, affords⟩
  refine ⟨fun out fits initialized length values => ⟨fun affords => ?_, fun affords => ?_⟩,
    fun i halting affords => ⟨fun beyond => ?_, fun j fits inSlice blank lowest => ?_⟩⟩
  · exact exec_ret_of_haltOutput
      ((passes (.ret ..) (by simp) affords).haltOutput_completed fits initialized length values)
  · exact exec_revert_of_haltOutput
      ((passes (.revert ..) (by simp) affords).haltOutput_completed fits initialized length values)
  · refine exec_of_haltOutput_error halting ?_
    rw [(passes i halting affords).haltOutput_eq, checkSlice_error.mpr ⟨beyond, rfl⟩]
    rfl
  · refine exec_of_haltOutput_error halting ?_
    rw [(passes i halting affords).haltOutput_eq, (checkSlice_ok (u := ())).mpr fits, ok_bind,
      readSlice_error.mpr ⟨j, inSlice, blank, lowest, rfl⟩]
    rfl

/-! ## The result port (46_halt.md R313, R314) -/

theorem frameResult_isSome (s : State) : (frameResult s).isSome = s.halted := by
  cases halted : s.halted <;> simp [frameResult, halted]

theorem frameResult_eq_some {s : State} {r : FrameResult} : frameResult s = some r ↔ s.halted = true ∧
    r = ⟨!s.reverted, s.output, s.l2Allotment - s.l2Gas, s.daAllotment - s.daGas, s.err⟩ := by
  cases halted : s.halted <;> simp [frameResult, halted, eq_comm]

/-- R313: the gas used and the gas left are the allotment, for a counter that does not exceed it. -/
theorem used_add_left {allotment left : Word64} (within : left.toNat ≤ allotment.toNat) :
    (allotment - left).toNat + left.toNat = allotment.toNat := by
  rw [BitVec.toNat_sub_of_le within, Nat.sub_add_cancel within]

/-- Settles O60: the result is read off the registers; a faulted frame has reverted, with no output and no gas left. -/
theorem frameResultLaws : Obligations.FrameResultLaws := by
  refine ⟨frameResult_isSome, fun _ _ _ _ => rfl, fun s r status gas result => ?_⟩
  obtain ⟨-, rfl⟩ := frameResult_eq_some.mp result
  refine ⟨rfl, rfl, rfl, fun success => ?_, fun error => ?_, used_add_left gas.l2, used_add_left gas.da⟩
  · by_contra error
    obtain ⟨reverted, -, -, -⟩ := status.faulted error
    simp [reverted] at success
  · obtain ⟨-, output, noL2, noDA⟩ := status.faulted error
    exact ⟨output, by simp [noL2], by simp [noDA]⟩

end Sys2Proof.Machine

/-! PROOFS of the statements of 60_exceptions.md: the state that a step which raises leaves. -/

namespace Sys2Proof.Machine

/-- R345: a step that brings an error into the register raised it, for a completed instruction leaves the register. -/
theorem raised_of_step_err {s t : State} (h : step s = .next t) (clean : s.err = noError) (error : t.err ≠ noError) :
    Raised s t := by
  obtain ⟨-, raised | ⟨i, -, effects⟩⟩ := step_cases h
  · exact raised
  · have noErr : t.err = noError := effects.err.trans clean
    exact absurd noErr error

/-- Settles O11: the step raised a runtime error, and the conversion is by definition the state that the clause writes
out. -/
theorem faultIsConversion : Obligations.FaultIsConversion := by
  intro s t h clean error
  obtain ⟨e, runtime, rfl⟩ := raised_of_step_err h clean error
  exact ⟨runtime.isError, runtime.payload, rfl⟩

end Sys2Proof.Machine
